-- ==== Sys2Proof/Word.lean ====
section
/-! DEFINITION. The word types of the core and the range of a word (00_scope.md R11, R14). -/

namespace Sys2Proof

/-- A W-bit word, W = 32: operand stack slots, data and port cells, the accumulator, the address latch and the
program counter. Read as a signed integer by `BitVec.toInt` (00_scope.md R11, R14). -/
abbrev Word := BitVec 32

/-- A 48-bit instruction word, the content of one program-region cell (30_encoding.md R124). -/
abbrev InstrWord := BitVec 48

/-- An opcode number, the OPC field of an instruction word (30_encoding.md R125). -/
abbrev OpcodeNumber := BitVec 8

/-- The smallest value of a word (00_scope.md R11). -/
abbrev minWord : Int := -2147483648

/-- The largest value of a word (00_scope.md R11). -/
abbrev maxWord : Int := 2147483647

/-- `v` lies in the signed range of a word (00_scope.md R14). -/
abbrev fitsWord (v : Int) : Prop := minWord ≤ v ∧ v ≤ maxWord

end Sys2Proof
end

