-- ==== Sys2Proof/Machine/Flags.lean ====
section
/-! DEFINITION. Truth values. The core has no flags register (10_state.md R54): a condition is a stack word, -1 for
true and 0 for false when produced, and only -1 is true when consumed (00_scope.md R15). -/

namespace Sys2Proof.Machine

/-- The word an instruction produces for a truth value (00_scope.md R15). -/
def truthWord (b : Bool) : Word := if b then -1 else 0

/-- The truth value of a word an instruction consumes (00_scope.md R15). -/
def isTrue (v : Word) : Bool := decide (v = -1)

end Sys2Proof.Machine
end

