-- ==== Sys2Proof/Config.lean ====
section
/-! DEFINITION. The fixed values of the core (00_scope.md R10, R11), the bounds on the run parameters (R9), and the
values the model gives the run parameters before any launch. This hardware leaves no value free
(70_reset_and_hazards.md R310), so nothing here is opaque. -/

namespace Sys2Proof.Config

/-- Operand stack capacity CAP (00_scope.md R10). -/
abbrev stackCap : Nat := 256

/-- Address of the input port (00_scope.md R10). -/
abbrev inputPort : Nat := 0

/-- Address of the output port (00_scope.md R10). -/
abbrev outputPort : Nat := 1

/-- First address of the data region (00_scope.md R10). -/
abbrev dataBase : Nat := 2

/-- First address of the program region (00_scope.md R10). -/
abbrev programBase : Nat := 128

/-- Number of data words, addresses 2 to 127 (00_scope.md R12). -/
abbrev dataWords : Nat := 126

/-- Largest admitted MEMORY_SIZE, 2^31 - 2 (00_scope.md R9). -/
abbrev maxMemorySize : Nat := 2147483646

/-- Largest admitted CEILING, 2^61 (00_scope.md R9). -/
abbrev maxCeiling : Nat := 2305843009213693952

/-- Largest character code, the largest Unicode code point (30_encoding.md R126). -/
abbrev maxCharCode : Nat := 0x10FFFF

/-- MEMORY_SIZE before any launch: the smallest value the empty program admits.
DESIGN CHOICE, unsafe (notes/assumptions/4.md): the spec gives the parameter no value. -/
abbrev memorySizeAtReset : Nat := 129

/-- CEILING before any launch: the largest admitted value.
DESIGN CHOICE, unsafe (notes/assumptions/4.md): the spec gives the parameter no value. -/
abbrev ceilingAtReset : Nat := maxCeiling

end Sys2Proof.Config
end

