-- ==== Sys2Proof/Opcode.lean ====
section
/-! DEFINITION. The closed opcode enumeration (00_scope.md R3), the argument of an instruction (30_encoding.md R120,
R121) and the Term attached to it (R128). -/

namespace Sys2Proof

/-- The closed set of 25 opcodes, in the order of their numbers (00_scope.md R3, 30_encoding.md R125). -/
inductive Opcode where
  | wrDir | wrNdr | readDir | readNdr
  | jmp | jnt | halt | beginMark | nop
  | mod | plus | minus | mult | div | pow | lt | neg | invert
  | dup | overWord | rot | swap | push | drop
  | print
  deriving DecidableEq, Repr

/-- An argument that is present: an integer (kind bit K = 0) or one character given by its code (K = 1)
(30_encoding.md R124, R126). -/
inductive Literal where
  /-- An integer literal or jump target: the argument field, read as a signed word. -/
  | int (value : Word)
  /-- One character, by its code. -/
  | chr (code : Word)
  deriving DecidableEq, Repr

/-- The value an argument stands for: ARG, the whole argument field (30_encoding.md R127). -/
abbrev Literal.value : Literal → Word
  | .int v => v
  | .chr c => c

/-- An optional argument; `none` is the presence bit A = 0 (30_encoding.md R124). -/
abbrev Arg := Option Literal

/-- A Term: source line number, source context and literal source text (30_encoding.md R121, R128). -/
structure Term where
  line    : Int
  context : String
  text    : String
  deriving DecidableEq, Repr

end Sys2Proof
end

