-- ==== Sys2Proof/Syntax.lean ====
section
/-! DEFINITION. The instructions: one constructor per row of spec/opcode_table.json, in the table's order
(30_encoding.md R125). An opcode that ignores its argument still carries it (R123, R133); JMP and JNT carry their
required integer target and PUSH its required literal (R129 tests 5 and 6). -/

namespace Sys2Proof

/-- A decoded instruction: the opcode with its argument, presence bit and kind bit (10_state.md R48). -/
inductive Instr where
  /-- WR_DIR, direct write (40_memory_access.md R160). -/
  | wrDir (arg : Arg)
  /-- WR_NDR, indirect write with pointer auto-increment (40_memory_access.md R161). -/
  | wrNdr (arg : Arg)
  /-- READ_DIR, direct read (40_memory_access.md R162). -/
  | readDir (arg : Arg)
  /-- READ_NDR, indirect read with pointer auto-increment (40_memory_access.md R163). -/
  | readNdr (arg : Arg)
  /-- JMP, unconditional jump to an absolute index (41_control_flow.md R180). -/
  | jmp (target : Word)
  /-- JNT, jump if not true to an absolute index (41_control_flow.md R181). -/
  | jnt (target : Word)
  /-- HALT (41_control_flow.md R182). -/
  | halt (arg : Arg)
  /-- BEGIN, entry marker (41_control_flow.md R183). -/
  | beginMark (arg : Arg)
  /-- NOP (41_control_flow.md R184). -/
  | nop (arg : Arg)
  /-- MOD, floored remainder (42_arith_logic.md R203). -/
  | mod (arg : Arg)
  /-- PLUS (42_arith_logic.md R204). -/
  | plus (arg : Arg)
  /-- MINUS, declared but unimplemented (42_arith_logic.md R205). -/
  | minus (arg : Arg)
  /-- MULT (42_arith_logic.md R206). -/
  | mult (arg : Arg)
  /-- DIV, declared but unimplemented (42_arith_logic.md R207). -/
  | div (arg : Arg)
  /-- POW, base on top (42_arith_logic.md R208). -/
  | pow (arg : Arg)
  /-- LT, signed less-than (42_arith_logic.md R209). -/
  | lt (arg : Arg)
  /-- NEG (42_arith_logic.md R210). -/
  | neg (arg : Arg)
  /-- INVERT (42_arith_logic.md R211). -/
  | invert (arg : Arg)
  /-- DUP (43_stack.md R230). -/
  | dup (arg : Arg)
  /-- OVER (43_stack.md R231). -/
  | overWord (arg : Arg)
  /-- ROT (43_stack.md R232). -/
  | rot (arg : Arg)
  /-- SWAP (43_stack.md R233). -/
  | swap (arg : Arg)
  /-- PUSH of an integer or a character (43_stack.md R234). -/
  | push (lit : Literal)
  /-- DROP (43_stack.md R235). -/
  | drop (arg : Arg)
  /-- PRINT, declared but unimplemented (44_io.md R250). -/
  | print (arg : Arg)
  deriving DecidableEq, Repr

end Sys2Proof
end

