-- ==== Sys2Proof/Decode.lean ====
section
/-! DEFINITION. The instruction decoder and the encoder of 48-bit instruction words (30_encoding.md R124 to R131).
The decoder is total: every word decodes to an instruction or is rejected by the name of the test it fails. -/

namespace Sys2Proof

/-- The opcode number of each opcode (30_encoding.md R125). -/
def Opcode.number : Opcode → OpcodeNumber
  | .wrDir => 0x01 | .wrNdr => 0x02 | .readDir => 0x03 | .readNdr => 0x04
  | .jmp => 0x05 | .jnt => 0x06 | .halt => 0x07 | .beginMark => 0x08 | .nop => 0x09
  | .mod => 0x0A | .plus => 0x0B | .minus => 0x0C | .mult => 0x0D | .div => 0x0E
  | .pow => 0x0F | .lt => 0x10 | .neg => 0x11 | .invert => 0x12
  | .dup => 0x13 | .overWord => 0x14 | .rot => 0x15 | .swap => 0x16 | .push => 0x17 | .drop => 0x18
  | .print => 0x19

/-- The opcode of a number; 0x00 and every number above 0x19 are none (30_encoding.md R125, R129 test 1). -/
def Opcode.ofNumber (n : OpcodeNumber) : Option Opcode :=
  match n.toNat with
  | 0x01 => some .wrDir | 0x02 => some .wrNdr | 0x03 => some .readDir | 0x04 => some .readNdr
  | 0x05 => some .jmp | 0x06 => some .jnt | 0x07 => some .halt | 0x08 => some .beginMark | 0x09 => some .nop
  | 0x0A => some .mod | 0x0B => some .plus | 0x0C => some .minus | 0x0D => some .mult | 0x0E => some .div
  | 0x0F => some .pow | 0x10 => some .lt | 0x11 => some .neg | 0x12 => some .invert
  | 0x13 => some .dup | 0x14 => some .overWord | 0x15 => some .rot | 0x16 => some .swap | 0x17 => some .push
  | 0x18 => some .drop | 0x19 => some .print
  | _ => none

/-! ## The fields of an instruction word (30_encoding.md R124) -/

/-- OPC, bits 7..0. -/
def opcField (w : InstrWord) : OpcodeNumber := w.extractLsb' 0 8

/-- A, bit 8: an argument is present. -/
def argPresent (w : InstrWord) : Bool := w.getLsbD 8

/-- K, bit 9: the argument is a character. -/
def argIsChar (w : InstrWord) : Bool := w.getLsbD 9

/-- RES, bits 15..10, reserved. -/
def resField (w : InstrWord) : BitVec 6 := w.extractLsb' 10 6

/-- ARGF, bits 47..16. -/
def argField (w : InstrWord) : Word := w.extractLsb' 16 32

/-! ## The decoder -/

/-- Why a word is no instruction: the test of 30_encoding.md R129 it fails. Each one is the machine's
`IllegalInstruction`. -/
inductive DecodeError where
  /-- Test 1: OPC is 0x00 or above 0x19. -/
  | unknownOpcode
  /-- Test 2: RES is not 0. -/
  | reservedBits
  /-- Test 3: no argument, but K or ARGF is not 0. -/
  | strayArgument
  /-- Test 4: a character code above 0x10FFFF. -/
  | charCodeRange
  /-- Test 5: JMP, JNT or PUSH without an argument. -/
  | missingArgument
  /-- Test 6: JMP or JNT with a character argument. -/
  | charTarget
  deriving DecidableEq, Repr

/-- Tests 1 to 4 of 30_encoding.md R129, in order: the opcode and the argument a word holds. -/
def readFields (w : InstrWord) : Except DecodeError (Opcode × Arg) :=
  match Opcode.ofNumber (opcField w) with
  | none    => .error .unknownOpcode
  | some op =>
    if resField w ≠ 0 then .error .reservedBits
    else if argPresent w = false then
      if argIsChar w = true ∨ argField w ≠ 0 then .error .strayArgument
      else .ok (op, none)
    else if argIsChar w = true then
      if Config.maxCharCode < (argField w).toNat then .error .charCodeRange
      else .ok (op, some (.chr (argField w)))
    else .ok (op, some (.int (argField w)))

/-- The argument of a jump: tests 5 and 6 of 30_encoding.md R129. -/
def jumpTarget : Arg → Except DecodeError Word
  | none          => .error .missingArgument
  | some (.chr _) => .error .charTarget
  | some (.int t) => .ok t

/-- Tests 5 and 6 of 30_encoding.md R129 and the instruction an opcode and an argument make. The closed,
exhaustive match on the opcode that R129 requires. -/
def assemble (op : Opcode) (arg : Arg) : Except DecodeError Instr :=
  match op with
  | .wrDir     => .ok (.wrDir arg)
  | .wrNdr     => .ok (.wrNdr arg)
  | .readDir   => .ok (.readDir arg)
  | .readNdr   => .ok (.readNdr arg)
  | .jmp       =>
    match jumpTarget arg with
    | .error e => .error e
    | .ok t    => .ok (.jmp t)
  | .jnt       =>
    match jumpTarget arg with
    | .error e => .error e
    | .ok t    => .ok (.jnt t)
  | .halt      => .ok (.halt arg)
  | .beginMark => .ok (.beginMark arg)
  | .nop       => .ok (.nop arg)
  | .mod       => .ok (.mod arg)
  | .plus      => .ok (.plus arg)
  | .minus     => .ok (.minus arg)
  | .mult      => .ok (.mult arg)
  | .div       => .ok (.div arg)
  | .pow       => .ok (.pow arg)
  | .lt        => .ok (.lt arg)
  | .neg       => .ok (.neg arg)
  | .invert    => .ok (.invert arg)
  | .dup       => .ok (.dup arg)
  | .overWord  => .ok (.overWord arg)
  | .rot       => .ok (.rot arg)
  | .swap      => .ok (.swap arg)
  | .push      =>
    match arg with
    | none   => .error .missingArgument
    | some l => .ok (.push l)
  | .drop      => .ok (.drop arg)
  | .print     => .ok (.print arg)

/-- The decoder on one instruction word (30_encoding.md R129, tests 1 to 6). MINUS, DIV and PRINT decode as legal
opcodes (R132); test 7 is their meaning (`execMinus`, `execDiv`, `execPrint`). -/
def decode (w : InstrWord) : Except DecodeError Instr :=
  match readFields w with
  | .error e      => .error e
  | .ok (op, arg) => assemble op arg

/-! ## The encoder -/

/-- The instruction word with the given fields and RES = 0 (30_encoding.md R124). -/
def packFields (opc : OpcodeNumber) (present isChar : Bool) (argf : Word) : InstrWord :=
  argf ++ (0#6 ++ (BitVec.ofBool isChar ++ (BitVec.ofBool present ++ opc)))

/-- `encode(op, arg)`: the word the loader writes for an opcode and an argument (30_encoding.md R126). -/
def encodeParts (op : Opcode) (arg : Arg) : InstrWord :=
  match arg with
  | none          => packFields op.number false false 0
  | some (.int n) => packFields op.number true false n
  | some (.chr c) => packFields op.number true true c

/-- The opcode of an instruction. -/
def Instr.opcode : Instr → Opcode
  | .wrDir _ => .wrDir | .wrNdr _ => .wrNdr | .readDir _ => .readDir | .readNdr _ => .readNdr
  | .jmp _ => .jmp | .jnt _ => .jnt | .halt _ => .halt | .beginMark _ => .beginMark | .nop _ => .nop
  | .mod _ => .mod | .plus _ => .plus | .minus _ => .minus | .mult _ => .mult | .div _ => .div
  | .pow _ => .pow | .lt _ => .lt | .neg _ => .neg | .invert _ => .invert
  | .dup _ => .dup | .overWord _ => .overWord | .rot _ => .rot | .swap _ => .swap | .push _ => .push | .drop _ => .drop
  | .print _ => .print

/-- The argument of an instruction, with its presence and kind. -/
def Instr.arg : Instr → Arg
  | .wrDir a | .wrNdr a | .readDir a | .readNdr a => a
  | .jmp t | .jnt t => some (.int t)
  | .halt a | .beginMark a | .nop a => a
  | .mod a | .plus a | .minus a | .mult a | .div a | .pow a | .lt a | .neg a | .invert a => a
  | .dup a | .overWord a | .rot a | .swap a => a
  | .push l => some l
  | .drop a | .print a => a

/-- The instruction word of an instruction (30_encoding.md R126). -/
def encode (i : Instr) : InstrWord := encodeParts i.opcode i.arg

/-- The instruction the decoder reads from the low `nbits` bits of `w`, numbered as spec/opcode_table.json numbers
them; the instruction's bits above `nbits` are 0. An instruction is one cell of 48 bits, so there is nothing to lay
out, and a number that does not fit the cell is no instruction word. -/
def decodeTableWord (nbits w : Nat) : Option Instr :=
  if w % 2 ^ nbits < 2 ^ 48 then
    match decode (BitVec.ofNat 48 (w % 2 ^ nbits)) with
    | .ok i    => some i
    | .error _ => none
  else none

end Sys2Proof
end

