-- ==== Sys2Proof/Machine/State.lean ====
section
/-! DEFINITION. The state of the core as plain data (10_state.md R40), the names of its stop reasons and fault causes,
and the state after reset (R58). -/

namespace Sys2Proof.Machine

/-- The control FSM's state PHASE (70_reset_and_hazards.md R304). -/
inductive Phase where
  | ready | check | fetch | decode | exec | retire | stopped
  deriving DecidableEq, Repr

/-- The run-time fault causes (60_exceptions.md R256). -/
inductive FaultCause where
  | fetchOutOfRange
  | illegalInstruction
  | unimplementedOpcode
  | stackUnderflow
  | stackOverflow
  | addressOutOfRange
  | portDirection
  | programRegionAccess
  | divideByZero
  | negativeExponent
  | arithmeticOverflow
  deriving DecidableEq, Repr

/-- The configuration errors a launch is refused with (60_exceptions.md R262). -/
inductive ConfigError where
  | memoryTooSmall
  | dataTooLong
  | badContainer
  | unknownOpcode
  | badArgument
  | badParameter
  deriving DecidableEq, Repr

/-- The values of STATUS.RUN (10_state.md R52); 3 is reserved and never written. -/
inductive RunState where
  | ready | running | stopped
  deriving DecidableEq, Repr

/-- The values of STATUS.WHY (10_state.md R52). -/
inductive Why where
  | none | normal | ceiling | fault
  deriving DecidableEq, Repr

/-- What ends a run: a NORMAL stop, the ceiling, or a fault with the value for FAULT_INFO
(60_exceptions.md R255, R256). -/
inductive Stop where
  | normal
  | ceiling
  | fault (cause : FaultCause) (info : Word)
  deriving DecidableEq, Repr

/-- An output token (10_state.md R51): a character of code 0 to 127, or a word printed in decimal. -/
inductive Token where
  | char (code : Fin 128)
  | dec (value : Word)
  deriving DecidableEq, Repr

/-- Cells of one width by address: a list of (address, cell) pairs, where an address that is not listed holds 0.
The canonical form (`Cells.canonical`) has the addresses strictly rising and no cell 0. -/
abbrev Cells (n : Nat) := List (Nat × BitVec n)

/-- The memory M[0..MEMORY_SIZE-1] (10_state.md R49): the ports and data cells 0 to 127, W bits each, and the program
region from 128, 48 bits a cell. Both lists hold the cells at their memory addresses; the two kinds of cell never mix
(90_conflicts.md C8). -/
structure Memory where
  /-- Cells 0 to 127: the port records M[0] and M[1] and the data words. -/
  words : Cells 32
  /-- Cells from 128: instruction words. -/
  text : Cells 48
  deriving DecidableEq, Repr

/-- The state of the core (10_state.md R40), with the parameters of the run (00_scope.md R9). -/
structure State where
  /-- Operand stack slots S[0..255] by index (10_state.md R41). -/
  stack : Cells 32
  /-- Stack pointer: the number of occupied slots (10_state.md R41). -/
  head : Nat
  /-- Program counter: a signed instruction index (10_state.md R43). -/
  pc : Word
  /-- Tick counter (10_state.md R44). -/
  ticks : Nat
  /-- Retired-instruction counter (10_state.md R47). -/
  retired : Nat
  /-- Address latch MAR (10_state.md R45). -/
  mar : Word
  /-- ALU accumulator ACC (10_state.md R46). -/
  acc : Word
  /-- Instruction register IR; `none` is empty (10_state.md R48). -/
  ir : Option Instr
  /-- The memory (10_state.md R49). -/
  mem : Memory
  /-- Input queue INQ: character codes, the next one first (10_state.md R50). -/
  inq : List Word
  /-- Output sequence OUTQ, the oldest token first (10_state.md R51). -/
  outq : List Token
  /-- STATUS: RUN[1:0], WHY[3:2], CAUSE[11:4] (10_state.md R52). -/
  status : BitVec 16
  /-- FAULT_PC (10_state.md R53). -/
  faultPc : Word
  /-- FAULT_OPC (10_state.md R53). -/
  faultOpc : OpcodeNumber
  /-- FAULT_TICK (10_state.md R53). -/
  faultTick : BitVec 64
  /-- FAULT_INFO (10_state.md R53). -/
  faultInfo : Word
  /-- PHASE (70_reset_and_hazards.md R304). -/
  phase : Phase
  /-- UPC, the micro-step being executed (70_reset_and_hazards.md R304). -/
  upc : Nat
  /-- Debug table DBG: the Term of each instruction (30_encoding.md R128). No rule reads it. -/
  dbg : List (Option Term)
  /-- MEMORY_SIZE (00_scope.md R9). -/
  memorySize : Nat
  /-- CEILING (00_scope.md R9). -/
  ceiling : Nat
  /-- PROGRAM_LENGTH (00_scope.md R9). -/
  programLength : Nat
  deriving DecidableEq, Repr

/-- Why the model's machine stops with no next state. The core's own faults are NOT here: the spec says what taking
one does to the state (60_exceptions.md R258), so a step takes it and answers a next state. -/
inductive Fault where
  /-- Raised by `step` alone, in a state whose PHASE is EXEC and whose IR and UPC name no micro-step:
  70_reset_and_hazards.md R304 gives such a state no transition. No run reaches one. Safe: the machine stops. -/
  | noTransition
  deriving DecidableEq, Repr

/-- Why an instruction has no meaning in the model. -/
inductive Refusal where
  /-- Raised by `exec` for an instruction that is not modelled. No arm of `exec` uses it: every instruction has its
  meaning. Safe: the machine stops. -/
  | notModelled (mnemonic : String)
  deriving DecidableEq, Repr

/-- The outcome of a step of this machine. -/
abbrev Result := Host.Outcome State Fault Refusal

/-- The state after reset with nothing loaded: every element at the value of 10_state.md R58, with no data, no input
and no program. The run parameters have the values of `Config` (DESIGN CHOICE, unsafe, notes/assumptions/4.md). -/
def State.reset : State where
  stack := []
  head := 0
  pc := 0
  ticks := 0
  retired := 0
  mar := 0
  acc := 0
  ir := none
  mem := { words := [], text := [] }
  inq := []
  outq := []
  status := 0
  faultPc := 0
  faultOpc := 0
  faultTick := 0
  faultInfo := 0
  phase := .ready
  upc := 0
  dbg := []
  memorySize := Config.memorySizeAtReset
  ceiling := Config.ceilingAtReset
  programLength := 0

end Sys2Proof.Machine
end

