-- ==== Sys2Proof/Machine/Ops.lean ====
section
/-! DEFINITION. The shared operations: cells and memory, the named updates of State, STATUS, taking a fault and the
other stops, the micro-step monad, the address latch and the accesses to memory, and fetch. -/

namespace Sys2Proof.Machine

/-! ## Cells -/

/-- The cell at an address; an address that is not listed holds 0. -/
def Cells.read {n : Nat} : Cells n → Nat → BitVec n
  | [], _ => 0
  | (b, v) :: rest, a => if b = a then v else Cells.read rest a

/-- The cells without the one at `a`. -/
def Cells.erase {n : Nat} : Cells n → Nat → Cells n
  | [], _ => []
  | (b, v) :: rest, a => if b = a then Cells.erase rest a else (b, v) :: Cells.erase rest a

/-- The cells with a pair put before the first higher address. -/
def Cells.insert {n : Nat} : Cells n → Nat → BitVec n → Cells n
  | [], a, v => [(a, v)]
  | (b, w) :: rest, a, v => if a < b then (a, v) :: (b, w) :: rest else (b, w) :: Cells.insert rest a v

/-- Write the cell at an address. Writing 0, what an unlisted address holds, removes the entry. -/
def Cells.write {n : Nat} (m : Cells n) (a : Nat) (v : BitVec n) : Cells n :=
  if v = 0 then Cells.erase m a else Cells.insert (Cells.erase m a) a v

/-- The canonical form: addresses strictly rising and at least `lo`, below `hi`, and no cell 0. -/
def Cells.canonical {n : Nat} (lo hi : Nat) : Cells n → Bool
  | [] => true
  | (a, v) :: rest => decide (lo ≤ a) && decide (a < hi) && decide (v ≠ 0) && Cells.canonical (a + 1) hi rest

/-! ## Memory (20_memory.md) -/

/-- The content of cell `a` of the port and data cells. -/
def Memory.word (m : Memory) (a : Nat) : Word := Cells.read m.words a

/-- The content of cell `a` of the program region. -/
def Memory.instrWord (m : Memory) (a : Nat) : InstrWord := Cells.read m.text a

/-- Write a port or data cell. -/
def Memory.setWord (m : Memory) (a : Nat) (v : Word) : Memory := { m with words := Cells.write m.words a v }

/-- Write a program cell: the host's load only; no data access does it (20_memory.md R105). -/
def Memory.setInstrWord (m : Memory) (a : Nat) (w : InstrWord) : Memory := { m with text := Cells.write m.text a w }

/-- The memory of a core with `size` words has its one form: the port and data cells lie below 128 and the program
cells in 128..size-1, each list strictly rising and without a cell 0 (10_state.md R49). -/
def Memory.wf (size : Nat) (m : Memory) : Bool :=
  Cells.canonical 0 Config.programBase m.words && Cells.canonical Config.programBase size m.text

/-- `LoadData(k, v)`: data word `k` at address 2 + k (20_memory.md R83, R111). -/
def Memory.loadData (m : Memory) (k : Nat) (v : Word) : Memory := m.setWord (Config.dataBase + k) v

/-- `LoadProgram(i, iw)`: instruction `i` at address 128 + i (20_memory.md R111). -/
def Memory.loadProgram (m : Memory) (i : Nat) (w : InstrWord) : Memory := m.setInstrWord (Config.programBase + i) w

/-! ## STATUS (10_state.md R52) -/

/-- The code of STATUS.RUN. -/
def RunState.code : RunState → BitVec 2
  | .ready => 0 | .running => 1 | .stopped => 2

/-- The code of STATUS.WHY. -/
def Why.code : Why → BitVec 2
  | .none => 0 | .normal => 1 | .ceiling => 2 | .fault => 3

/-- The fault code in STATUS.CAUSE (60_exceptions.md R256). -/
def FaultCause.code : FaultCause → BitVec 8
  | .fetchOutOfRange => 0x01
  | .illegalInstruction => 0x02
  | .unimplementedOpcode => 0x03
  | .stackUnderflow => 0x04
  | .stackOverflow => 0x05
  | .addressOutOfRange => 0x06
  | .portDirection => 0x07
  | .programRegionAccess => 0x08
  | .divideByZero => 0x09
  | .negativeExponent => 0x0A
  | .arithmeticOverflow => 0x0B

/-- The configuration code in STATUS.CAUSE (60_exceptions.md R262). -/
def ConfigError.code : ConfigError → BitVec 8
  | .memoryTooSmall => 0x10
  | .dataTooLong => 0x11
  | .badContainer => 0x12
  | .unknownOpcode => 0x13
  | .badArgument => 0x14
  | .badParameter => 0x15

/-- STATUS with the given fields; bits 15..12 are 0. -/
def statusWord (run : RunState) (why : Why) (cause : BitVec 8) : BitVec 16 :=
  0#4 ++ (cause ++ (why.code ++ run.code))

/-- STATUS.RUN, bits 1..0. -/
def statusRun (w : BitVec 16) : BitVec 2 := w.extractLsb' 0 2

/-- STATUS.WHY, bits 3..2. -/
def statusWhy (w : BitVec 16) : BitVec 2 := w.extractLsb' 2 2

/-- STATUS.CAUSE, bits 11..4. -/
def statusCause (w : BitVec 16) : BitVec 8 := w.extractLsb' 4 8

/-- STATUS with RUN written and the other fields kept. -/
def setStatusRun (w : BitVec 16) (run : RunState) : BitVec 16 := w.extractLsb' 2 14 ++ run.code

/-! ## The named updates of State -/

/-- Slot S[i] of the operand stack. -/
def State.slot (s : State) (i : Nat) : Word := Cells.read s.stack i

/-- Write slot S[i]. -/
def State.setSlot (s : State) (i : Nat) (v : Word) : State := { s with stack := Cells.write s.stack i v }

/-- Write the stack pointer. -/
def State.setHead (s : State) (h : Nat) : State := { s with head := h }

/-- Write the program counter. -/
def State.setPc (s : State) (p : Word) : State := { s with pc := p }

/-- Write the address latch. -/
def State.setMar (s : State) (a : Word) : State := { s with mar := a }

/-- Write the accumulator. -/
def State.setAcc (s : State) (v : Word) : State := { s with acc := v }

/-- Write the memory. -/
def State.setMem (s : State) (m : Memory) : State := { s with mem := m }

/-- Write the input queue. -/
def State.setInq (s : State) (q : List Word) : State := { s with inq := q }

/-- Append a token to the output sequence (10_state.md R51). -/
def State.emit (s : State) (t : Token) : State := { s with outq := s.outq ++ [t] }

/-- The end of a micro-step: one tick, and UPC moves on (10_state.md R44, 70_reset_and_hazards.md R304). -/
def State.tick (s : State) : State := { s with ticks := s.ticks + 1, upc := s.upc + 1 }

/-- The decoder writes IR and the FSM enters EXEC at micro-step 1 (30_encoding.md R129 test 8,
70_reset_and_hazards.md R304). -/
def State.issue (s : State) (i : Instr) : State := { s with ir := some i, phase := .exec, upc := 1 }

/-- RETIRE: the instruction is counted and the next macro-step begins at CHECK (70_reset_and_hazards.md R303,
R305). -/
def State.retire (s : State) : State := { s with retired := s.retired + 1, phase := .check, upc := 0 }

/-- The host's start action on a READY core (70_reset_and_hazards.md R302). -/
def State.start (s : State) : State :=
  if s.phase = .ready then { s with phase := .check, status := setStatusRun s.status .running } else s

/-- Stop the run: STATUS is written and PHASE becomes STOPPED (70_reset_and_hazards.md R307). -/
def State.halted (s : State) (why : Why) (cause : BitVec 8) : State :=
  { s with status := statusWord .stopped why cause, phase := .stopped, upc := 0 }

/-- TAKING A FAULT: `raise F(info)` (60_exceptions.md R257, R258). STATUS says FAULT with the cause's code, the fault
record saves `pc`, the opcode field `opc`, the completed ticks and `info`, and PHASE becomes STOPPED. There is no
handler and no return (R261, R266). FAULT_TICK is 64 bits wide (10_state.md R53). -/
def State.takeFault (s : State) (cause : FaultCause) (info : Word) (opc : OpcodeNumber) : State :=
  { s.halted .fault cause.code with
    faultPc := s.pc
    faultOpc := opc
    faultTick := BitVec.ofNat 64 s.ticks
    faultInfo := info }

/-- The state a stop leaves; `opc` is the opcode field a fault records (70_reset_and_hazards.md R307). -/
def State.stop (s : State) (opc : OpcodeNumber) : Stop → State
  | .normal           => s.halted .normal 0
  | .ceiling          => s.halted .ceiling 0
  | .fault cause info => s.takeFault cause info opc

/-! ## Micro-steps -/

/-- What a piece of a micro-step comes to: a value and the next state, or the stop it meets and the state the earlier
statements left (60_exceptions.md R260). -/
inductive Flow (α : Type) where
  | ok (value : α) (next : State)
  | error (stop : Stop) (left : State)

/-- A piece of a micro-step (00_scope.md R23). -/
abbrev Micro (α : Type) := State → Flow α

/-- Statements execute in the order written, each reading the state the previous one left; a stop ends the sequence
(00_scope.md R23). -/
def andThen {α β : Type} (m : Micro α) (f : α → Micro β) : Micro β := fun s =>
  match m s with
  | .ok a t    => f a t
  | .error e t => .error e t

/-- `terminate Exhausted`, a NORMAL stop (00_scope.md R23, 20_memory.md R91). -/
def exhausted {α : Type} : Micro α := fun s => .error .normal s

/-- Run micro-steps in order, each ended by its tick. A stop inside one leaves its tick uncounted
(00_scope.md R24, 70_reset_and_hazards.md R306). -/
def runTicks : List (Micro Unit) → Micro Unit
  | [], s => .ok () s
  | m :: rest, s =>
    match m s with
    | .ok _ t    => runTicks rest t.tick
    | .error e t => .error e t

/-- The macro-step of a decoded instruction with the given micro-steps, from the writing of IR to RETIRE or a stop
(70_reset_and_hazards.md R303). -/
def runMicrocode (i : Instr) (steps : List (Micro Unit)) (s : State) : Result :=
  match runTicks steps (s.issue i) with
  | .ok _ t    => .next t.retire
  | .error e t => .next (t.stop i.opcode.number e)

/-- Test 7 of 30_encoding.md R129: a declared but unimplemented opcode faults in DECODE, before IR is written; its
number is FAULT_INFO and FAULT_OPC (60_exceptions.md R256, R257). -/
def unimplemented (op : Opcode) (s : State) : Result :=
  .next (s.takeFault .unimplementedOpcode (op.number.setWidth 32) op.number)

/-! ## The address latch and the data accesses (20_memory.md R88 to R98) -/

/-- `latch(a)`: the range check, inclusive at the top, and the write of MAR (20_memory.md R88). -/
def latch (a : Word) : Micro Unit := fun s =>
  if a.toInt < 0 ∨ (s.memorySize : Int) < a.toInt then .error (.fault .addressOutOfRange a) s
  else .ok () (s.setMar a)

/-- The address in MAR as a cell number. A negative MAR, which no latch writes, counts as an address above every cell
(notes/assumptions/11.md). -/
def State.marCell (s : State) : Nat := s.mar.toNat

/-- `MemRead(MAR, 1)` (20_memory.md R89 to R93). -/
def memRead : Micro Word := fun s =>
  if s.marCell = Config.outputPort then .error (.fault .portDirection s.mar) s
  else if s.marCell = Config.inputPort then
    match s.inq with
    | []        => exhausted s
    | c :: rest => .ok c ((s.setInq rest).setMem (s.mem.setWord Config.inputPort c))
  else if s.marCell < Config.programBase then .ok (s.mem.word s.marCell) s
  else .error (.fault .programRegionAccess s.mar) s

/-- The token of an output value (20_memory.md R96). -/
def token (v : Word) : Token :=
  if 0 ≤ v.toInt ∧ v.toInt ≤ 127 then .char (Fin.ofNat 128 v.toNat) else .dec v

/-- `MemWrite(MAR, 1, v)` (20_memory.md R94 to R98). -/
def memWrite (v : Word) : Micro Unit := fun s =>
  if s.marCell = Config.inputPort then .error (.fault .portDirection s.mar) s
  else if s.marCell = Config.outputPort then
    .ok () ((s.setMem (s.mem.setWord Config.outputPort v)).emit (token v))
  else if s.marCell < Config.programBase then .ok () (s.setMem (s.mem.setWord s.marCell v))
  else .error (.fault .programRegionAccess s.mar) s

/-! ## The program counter -/

/-- The sequential program-counter latch, `pc <- pc + 1` (41_control_flow.md R185). -/
def advance : Micro Unit := fun s => .ok () (s.setPc (s.pc + 1))

/-- The jump latch, `pc <- target`; the target is not checked here (41_control_flow.md R180, R187). -/
def jump (target : Word) : Micro Unit := fun s => .ok () (s.setPc target)

/-- `Fetch(pc)`: the program-length check and the address check as the source states both
(20_memory.md R87, R99). -/
def fetch (s : State) : Except Stop InstrWord :=
  if s.pc.toInt < 0 ∨ (s.programLength : Int) ≤ s.pc.toInt then .error (.fault .fetchOutOfRange s.pc)
  else if (Config.programBase : Int) + s.pc.toInt < Config.programBase
      ∨ (s.memorySize : Int) ≤ Config.programBase + s.pc.toInt then .error (.fault .fetchOutOfRange s.pc)
  else .ok (s.mem.instrWord (Config.programBase + s.pc.toInt.toNat))

/-! ## Output text (20_memory.md R96, R110) -/

/-- The decimal text of an integer: a `-` sign for a negative value, then the digits (20_memory.md R96). -/
def decimalText (v : Int) : List Char :=
  if v < 0 then '-' :: Nat.toDigits 10 v.natAbs else Nat.toDigits 10 v.natAbs

/-- The text of a token. -/
def Token.text : Token → List Char
  | .char c => [Char.ofNat c.val]
  | .dec v  => decimalText v.toInt

/-- The output string of a run: the texts of the tokens in order (20_memory.md R110). -/
def outputText : List Token → List Char
  | []        => []
  | t :: rest => t.text ++ outputText rest

/-! ## Placing an instruction word where the next step fetches it -/

/-- `s` with `w` at the program counter's cell and the core ready to fetch it: PHASE is CHECK, the program and the
memory reach past that cell, and the ceiling is above the instructions retired so far. A negative program counter,
which names no cell, is set to 0. -/
def State.placeWord (s : State) (w : InstrWord) : State :=
  let p : Word := if s.pc.toInt < 0 then 0 else s.pc
  { s with
    pc := p
    mem := s.mem.loadProgram p.toNat w
    phase := .check
    upc := 0
    status := statusWord .running .none 0
    programLength := max s.programLength (p.toNat + 1)
    memorySize := max s.memorySize (max s.programLength (p.toNat + 1) + Config.programBase + 1)
    ceiling := max s.ceiling (s.retired + 1) }

end Sys2Proof.Machine
end

