-- ==== Sys2Proof/Machine/Operands.lean ====
section
/-! DEFINITION. The operand stack: the only operand form of the core (00_scope.md R17 to R20, 10_state.md R42). -/

namespace Sys2Proof.Machine

/-- The head adjustments a micro-step can make: +1, -1, -2, -3 (00_scope.md R10, 10_state.md R42). -/
inductive HeadDelta where
  | inc1 | dec1 | dec2 | dec3
  deriving DecidableEq, Repr

/-- The value of a head adjustment. -/
def HeadDelta.toInt : HeadDelta → Int
  | .inc1 => 1 | .dec1 => -1 | .dec2 => -2 | .dec3 => -3

/-- `top(k)` for k in 0..3 (00_scope.md R17). -/
def top (k : Fin 4) : Micro Word := fun s =>
  if s.head ≤ k.val then .error (.fault .stackUnderflow (BitVec.ofNat 32 k.val)) s
  else .ok (s.slot (s.head - 1 - k.val)) s

/-- `setTop(k, v)` for k in 0..3 (00_scope.md R18). -/
def setTop (k : Fin 4) (v : Word) : Micro Unit := fun s =>
  if s.head ≤ k.val then .error (.fault .stackUnderflow (BitVec.ofNat 32 k.val)) s
  else .ok () (s.setSlot (s.head - 1 - k.val) v)

/-- `adjust(d)` (00_scope.md R19). -/
def adjust (d : HeadDelta) : Micro Unit := fun s =>
  if (s.head : Int) + d.toInt < 0 then .error (.fault .stackUnderflow (BitVec.ofInt 32 d.toInt)) s
  else if (Config.stackCap : Int) ≤ (s.head : Int) + d.toInt then
    .error (.fault .stackOverflow (BitVec.ofInt 32 d.toInt)) s
  else .ok () (s.setHead ((s.head : Int) + d.toInt).toNat)

/-- Store at `S[head]`, the first half of a push (00_scope.md R20). -/
def storeAtHead (v : Word) : Micro Unit := fun s => .ok () (s.setSlot s.head v)

/-- `push(v)`: store at `S[head]`, then `adjust(+1)`. A push at head 255 writes S[255] and then faults
(00_scope.md R20). -/
def push (v : Word) : Micro Unit :=
  andThen (storeAtHead v) fun _ =>
  adjust .inc1

end Sys2Proof.Machine
end

