-- ==== Sys2Proof/Machine/Alu.lean ====
section
/-! DEFINITION. The ALU functions (42_arith_logic.md R202) and the two ALU sequences (R200, R201). Operands are words
read as signed integers, results are exact integers that pass `checkW` before they reach ACC (R212). -/

namespace Sys2Proof.Machine

/-- `checkW(v)` (00_scope.md R22). FAULT_INFO of an overflow is 0 (60_exceptions.md R256). -/
def checkW (v : Int) : Except Stop Word :=
  if fitsWord v then .ok (BitVec.ofInt 32 v) else .error (.fault .arithmeticOverflow 0)

/-- Modulo: the floored remainder `top(1) % top(0)` (42_arith_logic.md R203). -/
def aluMod (b a : Word) : Except Stop Int :=
  if a.toInt = 0 then .error (.fault .divideByZero b) else .ok (b.toInt - a.toInt * b.toInt.fdiv a.toInt)

/-- Add (42_arith_logic.md R204). -/
def aluAdd (b a : Word) : Except Stop Int := .ok (b.toInt + a.toInt)

/-- Multiply (42_arith_logic.md R206). -/
def aluMul (b a : Word) : Except Stop Int := .ok (b.toInt * a.toInt)

/-- The exponent a power is computed with. A base of magnitude 2 or more leaves the word range at every exponent of 32
or more, and the powers of -1, 0 and 1 repeat with period 2, so an exponent of 32 or more is brought to 32 or 33 with
its parity kept: `checkW` gives the same answer (`checkW_pow_clipExponent`, notes/assumptions/10.md). -/
def clipExponent (n : Nat) : Nat := if n < 32 then n else 32 + n % 2

/-- Power: base `top(0)`, exponent `top(1)` (42_arith_logic.md R208). -/
def aluPow (b a : Word) : Except Stop Int :=
  if b.toInt < 0 then .error (.fault .negativeExponent b) else .ok (a.toInt ^ clipExponent b.toInt.toNat)

/-- Signed less-than `top(1) < top(0)` (42_arith_logic.md R209). -/
def aluLt (b a : Word) : Except Stop Int := .ok (truthWord (decide (b.toInt < a.toInt))).toInt

/-- Arithmetic negate (42_arith_logic.md R210). -/
def aluNeg (a : Word) : Except Stop Int := .ok (-a.toInt)

/-- Bitwise invert, defined as -(a + 1) (42_arith_logic.md R211). -/
def aluInvert (a : Word) : Except Stop Int := .ok (-(a.toInt + 1))

/-- Pointer increment (42_arith_logic.md R202). -/
def aluIncrement (a : Word) : Except Stop Int := .ok (a.toInt + 1)

/-- The not-equal-minus-one test: 0 for -1, else -1 (42_arith_logic.md R202). -/
def aluNotTrue (a : Word) : Except Stop Int := .ok (truthWord (!isTrue a)).toInt

/-- Write an ALU result to ACC after `checkW`; an ALU fault stops the micro-step (42_arith_logic.md R202). -/
def latchAcc (result : Except Stop Int) : Micro Unit := fun s =>
  match result with
  | .error e => .error e s
  | .ok v =>
    match checkW v with
    | .error e => .error e s
    | .ok w    => .ok () (s.setAcc w)

/-- The accumulator as a source. -/
def readAcc : Micro Word := fun s => .ok s.acc s

/-- The binary sequence (42_arith_logic.md R200). -/
def binarySequence (f : Word → Word → Except Stop Int) : List (Micro Unit) :=
  [ -- T1
    andThen (top 0) fun a =>
    andThen (top 1) fun b =>
    latchAcc (f b a),
    -- T2
    andThen (adjust .dec2) fun _ =>
    andThen readAcc fun r =>
    andThen (push r) fun _ =>
    advance ]

/-- The unary sequence (42_arith_logic.md R201). -/
def unarySequence (g : Word → Except Stop Int) : List (Micro Unit) :=
  [ -- T1
    andThen (top 0) fun a =>
    latchAcc (g a),
    -- T2
    andThen (adjust .dec1) fun _ =>
    andThen readAcc fun r =>
    andThen (push r) fun _ =>
    advance ]

end Sys2Proof.Machine
end

