-- ==== Sys2Proof/Machine/ArithLogic.lean ====
section
/-! DEFINITION. The arithmetic and logic instructions (42_arith_logic.md R203 to R211). -/

namespace Sys2Proof.Machine

/-- The micro-steps of MOD (42_arith_logic.md R203). -/
def microMod : List (Micro Unit) := binarySequence aluMod

/-- MOD (42_arith_logic.md R203). -/
def execMod (arg : Arg) (s : State) : Result := runMicrocode (.mod arg) microMod s

/-- The micro-steps of PLUS (42_arith_logic.md R204). -/
def microPlus : List (Micro Unit) := binarySequence aluAdd

/-- PLUS (42_arith_logic.md R204). -/
def execPlus (arg : Arg) (s : State) : Result := runMicrocode (.plus arg) microPlus s

/-- MINUS: UnimplementedOpcode at decode, whatever its argument (42_arith_logic.md R205). -/
def execMinus (_arg : Arg) (s : State) : Result := unimplemented .minus s

/-- The micro-steps of MULT (42_arith_logic.md R206). -/
def microMult : List (Micro Unit) := binarySequence aluMul

/-- MULT (42_arith_logic.md R206). -/
def execMult (arg : Arg) (s : State) : Result := runMicrocode (.mult arg) microMult s

/-- DIV: UnimplementedOpcode at decode, whatever its argument (42_arith_logic.md R207). -/
def execDiv (_arg : Arg) (s : State) : Result := unimplemented .div s

/-- The micro-steps of POW (42_arith_logic.md R208). -/
def microPow : List (Micro Unit) := binarySequence aluPow

/-- POW (42_arith_logic.md R208). -/
def execPow (arg : Arg) (s : State) : Result := runMicrocode (.pow arg) microPow s

/-- The micro-steps of LT (42_arith_logic.md R209). -/
def microLt : List (Micro Unit) := binarySequence aluLt

/-- LT (42_arith_logic.md R209). -/
def execLt (arg : Arg) (s : State) : Result := runMicrocode (.lt arg) microLt s

/-- The micro-steps of NEG (42_arith_logic.md R210). -/
def microNeg : List (Micro Unit) := unarySequence aluNeg

/-- NEG (42_arith_logic.md R210). -/
def execNeg (arg : Arg) (s : State) : Result := runMicrocode (.neg arg) microNeg s

/-- The micro-steps of INVERT (42_arith_logic.md R211). -/
def microInvert : List (Micro Unit) := unarySequence aluInvert

/-- INVERT (42_arith_logic.md R211). -/
def execInvert (arg : Arg) (s : State) : Result := runMicrocode (.invert arg) microInvert s

end Sys2Proof.Machine
end

