-- ==== Sys2Proof/Machine/ControlFlow.lean ====
section
/-! DEFINITION. The control-flow instructions (41_control_flow.md R180 to R184). -/

namespace Sys2Proof.Machine

/-- The micro-step of JMP (41_control_flow.md R180). -/
def microJmp (target : Word) : List (Micro Unit) := [ jump target ]

/-- JMP (41_control_flow.md R180). -/
def execJmp (target : Word) (s : State) : Result := runMicrocode (.jmp target) (microJmp target) s

/-- The micro-step of JNT (41_control_flow.md R181). -/
def microJnt (target : Word) : List (Micro Unit) :=
  [ -- T1
    andThen (top 0) fun f =>
    andThen (latchAcc (aluNotTrue f)) fun _ =>
    andThen (adjust .dec1) fun _ =>
    andThen readAcc fun notTrue =>
    if notTrue = -1 then jump target else advance ]

/-- JNT (41_control_flow.md R181). -/
def execJnt (target : Word) (s : State) : Result := runMicrocode (.jnt target) (microJnt target) s

/-- HALT: no micro-step and no latch; the run stops NORMAL from DECODE, IR holding the HALT
(41_control_flow.md R182, 70_reset_and_hazards.md R303, R304, R307). -/
def execHalt (arg : Arg) (s : State) : Result := .next ((s.issue (.halt arg)).halted .normal 0)

/-- The micro-step of BEGIN (41_control_flow.md R183). -/
def microBegin : List (Micro Unit) := [ advance ]

/-- BEGIN (41_control_flow.md R183). -/
def execBeginMark (arg : Arg) (s : State) : Result := runMicrocode (.beginMark arg) microBegin s

/-- The micro-step of NOP (41_control_flow.md R184). -/
def microNop : List (Micro Unit) := [ advance ]

/-- NOP (41_control_flow.md R184). -/
def execNop (arg : Arg) (s : State) : Result := runMicrocode (.nop arg) microNop s

end Sys2Proof.Machine
end

