-- ==== Sys2Proof/Machine/Io.lean ====
section
/-! DEFINITION. The I/O instruction (44_io.md R250). -/

namespace Sys2Proof.Machine

/-- PRINT: UnimplementedOpcode at decode, whatever its argument (44_io.md R250). -/
def execPrint (_arg : Arg) (s : State) : Result := unimplemented .print s

end Sys2Proof.Machine
end

