-- ==== Sys2Proof/Machine/MemoryAccess.lean ====
section
/-! DEFINITION. The memory-access instructions (40_memory_access.md R160 to R163), micro-step by micro-step. No
value passes from one micro-step to the next but through the state. -/

namespace Sys2Proof.Machine

/-- The micro-steps of WR_DIR (40_memory_access.md R160). -/
def microWrDir : List (Micro Unit) :=
  [ -- T1
    andThen (top 0) fun a =>
    latch a,
    -- T2
    andThen (top 1) fun v =>
    andThen (memWrite v) fun _ =>
    andThen (adjust .dec2) fun _ =>
    advance ]

/-- WR_DIR (40_memory_access.md R160). -/
def execWrDir (arg : Arg) (s : State) : Result := runMicrocode (.wrDir arg) microWrDir s

/-- The micro-steps of WR_NDR (40_memory_access.md R161). -/
def microWrNdr : List (Micro Unit) :=
  [ -- T1
    andThen (top 0) fun a =>
    andThen (top 1) fun _ =>
    latch a,
    -- T2
    andThen memRead fun p =>
    push p,
    -- T3
    andThen (top 0) fun p =>
    andThen (latch p) fun _ =>
    latchAcc (aluIncrement p),
    -- T4
    andThen (top 2) fun v =>
    andThen (memWrite v) fun _ =>
    andThen (top 1) fun pa =>
    latch pa,
    -- T5
    andThen readAcc fun next =>
    andThen (memWrite next) fun _ =>
    andThen (adjust .dec3) fun _ =>
    advance ]

/-- WR_NDR (40_memory_access.md R161). -/
def execWrNdr (arg : Arg) (s : State) : Result := runMicrocode (.wrNdr arg) microWrNdr s

/-- The micro-steps of READ_DIR (40_memory_access.md R162). -/
def microReadDir : List (Micro Unit) :=
  [ -- T1
    andThen (top 0) fun a =>
    latch a,
    -- T2
    andThen memRead fun v =>
    andThen (setTop 0 v) fun _ =>
    advance ]

/-- READ_DIR (40_memory_access.md R162). -/
def execReadDir (arg : Arg) (s : State) : Result := runMicrocode (.readDir arg) microReadDir s

/-- The micro-steps of READ_NDR (40_memory_access.md R163). -/
def microReadNdr : List (Micro Unit) :=
  [ -- T1
    andThen (top 0) fun pa =>
    latch pa,
    -- T2
    andThen memRead fun p =>
    push p,
    -- T3
    andThen (top 0) fun p =>
    latch p,
    -- T4
    andThen memRead fun v =>
    push v,
    -- T5
    andThen (top 1) fun p =>
    andThen (latchAcc (aluIncrement p)) fun _ =>
    andThen (top 2) fun pa =>
    andThen (latch pa) fun _ =>
    andThen readAcc fun next =>
    andThen (memWrite next) fun _ =>
    andThen (top 0) fun v =>
    andThen (setTop 2 v) fun _ =>
    andThen (adjust .dec2) fun _ =>
    advance ]

/-- READ_NDR (40_memory_access.md R163). -/
def execReadNdr (arg : Arg) (s : State) : Result := runMicrocode (.readNdr arg) microReadNdr s

end Sys2Proof.Machine
end

