-- ==== Sys2Proof/Machine/StackShuffle.lean ====
section
/-! DEFINITION. The stack-shuffle instructions (43_stack.md R230 to R235). -/

namespace Sys2Proof.Machine

/-- The micro-step of DUP (43_stack.md R230). -/
def microDup : List (Micro Unit) :=
  [ -- T1
    andThen (top 0) fun x =>
    andThen (push x) fun _ =>
    advance ]

/-- DUP (43_stack.md R230). -/
def execDup (arg : Arg) (s : State) : Result := runMicrocode (.dup arg) microDup s

/-- The micro-step of OVER (43_stack.md R231). -/
def microOver : List (Micro Unit) :=
  [ -- T1
    andThen (top 1) fun y =>
    andThen (push y) fun _ =>
    advance ]

/-- OVER (43_stack.md R231). -/
def execOver (arg : Arg) (s : State) : Result := runMicrocode (.overWord arg) microOver s

/-- The micro-step of ROT: the top two words are exchanged, the third must exist and is unchanged
(43_stack.md R232, 90_conflicts.md C1). -/
def microRot : List (Micro Unit) :=
  [ -- T1
    andThen (top 2) fun _ =>
    andThen (top 0) fun x =>
    andThen (top 1) fun y =>
    andThen (setTop 0 y) fun _ =>
    andThen (setTop 1 x) fun _ =>
    advance ]

/-- ROT (43_stack.md R232). -/
def execRot (arg : Arg) (s : State) : Result := runMicrocode (.rot arg) microRot s

/-- The micro-step of SWAP (43_stack.md R233). -/
def microSwap : List (Micro Unit) :=
  [ -- T1
    andThen (top 0) fun x =>
    andThen (top 1) fun y =>
    andThen (setTop 0 y) fun _ =>
    andThen (setTop 1 x) fun _ =>
    advance ]

/-- SWAP (43_stack.md R233). -/
def execSwap (arg : Arg) (s : State) : Result := runMicrocode (.swap arg) microSwap s

/-- The micro-step of PUSH (43_stack.md R234). -/
def microPush (lit : Literal) : List (Micro Unit) :=
  [ -- T1
    andThen (push lit.value) fun _ =>
    advance ]

/-- PUSH (43_stack.md R234). -/
def execPush (lit : Literal) (s : State) : Result := runMicrocode (.push lit) (microPush lit) s

/-- The micro-step of DROP (43_stack.md R235). -/
def microDrop : List (Micro Unit) :=
  [ -- T1
    andThen (adjust .dec1) fun _ =>
    advance ]

/-- DROP (43_stack.md R235). -/
def execDrop (arg : Arg) (s : State) : Result := runMicrocode (.drop arg) microDrop s

end Sys2Proof.Machine
end

