-- ==== Sys2Proof/Machine/Dispatch.lean ====
section
/-! DEFINITION. One arm per instruction, each one direct call of its meaning. -/

namespace Sys2Proof.Machine

/-- The macro-step of a decoded instruction: IR, its micro-steps and RETIRE, or the stop it meets
(70_reset_and_hazards.md R303). -/
def exec (i : Instr) (s : State) : Host.Outcome State Fault Refusal :=
  match i with
  | .wrDir arg => Sys2Proof.Machine.execWrDir arg s
  | .wrNdr arg => Sys2Proof.Machine.execWrNdr arg s
  | .readDir arg => Sys2Proof.Machine.execReadDir arg s
  | .readNdr arg => Sys2Proof.Machine.execReadNdr arg s
  | .jmp target => Sys2Proof.Machine.execJmp target s
  | .jnt target => Sys2Proof.Machine.execJnt target s
  | .halt arg => Sys2Proof.Machine.execHalt arg s
  | .beginMark arg => Sys2Proof.Machine.execBeginMark arg s
  | .nop arg => Sys2Proof.Machine.execNop arg s
  | .mod arg => Sys2Proof.Machine.execMod arg s
  | .plus arg => Sys2Proof.Machine.execPlus arg s
  | .minus arg => Sys2Proof.Machine.execMinus arg s
  | .mult arg => Sys2Proof.Machine.execMult arg s
  | .div arg => Sys2Proof.Machine.execDiv arg s
  | .pow arg => Sys2Proof.Machine.execPow arg s
  | .lt arg => Sys2Proof.Machine.execLt arg s
  | .neg arg => Sys2Proof.Machine.execNeg arg s
  | .invert arg => Sys2Proof.Machine.execInvert arg s
  | .dup arg => Sys2Proof.Machine.execDup arg s
  | .overWord arg => Sys2Proof.Machine.execOver arg s
  | .rot arg => Sys2Proof.Machine.execRot arg s
  | .swap arg => Sys2Proof.Machine.execSwap arg s
  | .push lit => Sys2Proof.Machine.execPush lit s
  | .drop arg => Sys2Proof.Machine.execDrop arg s
  | .print arg => Sys2Proof.Machine.execPrint arg s

end Sys2Proof.Machine
end

