-- ==== Sys2Proof/Machine/Control.lean ====
section
/-! DEFINITION. The control FSM (70_reset_and_hazards.md R302 to R307): its single transitions (`fsm`) and the
macro-step as one transition (`macroStep`), which R304 allows. -/

namespace Sys2Proof.Machine

/-- The decoder's fault: IllegalInstruction, with the low 16 bits of the word in FAULT_INFO and its OPC field in
FAULT_OPC (30_encoding.md R129, 60_exceptions.md R256, R257). -/
def State.takeIllegal (s : State) (w : InstrWord) : State :=
  s.takeFault .illegalInstruction ((w.extractLsb' 0 16).setWidth 32) (opcField w)

/-- One macro-step from CHECK: the ceiling check, fetch, decode, and the instruction's micro-steps with RETIRE
(70_reset_and_hazards.md R303; the order of the checks is 60_exceptions.md R263). -/
def macroStep (s : State) : Result :=
  if s.ceiling ≤ s.retired then .next (s.stop 0 .ceiling)
  else
    match fetch s with
    | .error e => .next (s.stop 0 e)
    | .ok w =>
      match decode w with
      | .error _ => .next (s.takeIllegal w)
      | .ok i    => exec i s

/-- The micro-steps of each instruction (30_encoding.md R130). HALT has none, and MINUS, DIV and PRINT stop before
any (70_reset_and_hazards.md R311). -/
def microcode : Instr → List (Micro Unit)
  | .wrDir _     => microWrDir
  | .wrNdr _     => microWrNdr
  | .readDir _   => microReadDir
  | .readNdr _   => microReadNdr
  | .jmp t       => microJmp t
  | .jnt t       => microJnt t
  | .halt _      => []
  | .beginMark _ => microBegin
  | .nop _       => microNop
  | .mod _       => microMod
  | .plus _      => microPlus
  | .minus _     => []
  | .mult _      => microMult
  | .div _       => []
  | .pow _       => microPow
  | .lt _        => microLt
  | .neg _       => microNeg
  | .invert _    => microInvert
  | .dup _       => microDup
  | .overWord _      => microOver
  | .rot _       => microRot
  | .swap _      => microSwap
  | .push l      => microPush l
  | .drop _      => microDrop
  | .print _     => []

/-- The DECODE transition for a word that passes tests 1 to 6: to EXEC with UPC = 1, or STOPPED for HALT and for the
unimplemented opcodes (70_reset_and_hazards.md R304, 30_encoding.md R129 tests 7 and 8). -/
def enterExec (i : Instr) (s : State) : Result :=
  match i with
  | .halt _  => .next ((s.issue i).stop 0 .normal)
  | .minus _ => unimplemented .minus s
  | .div _   => unimplemented .div s
  | .print _ => unimplemented .print s
  | _        => .next (s.issue i)

/-- The EXEC transition: the statements of micro-step UPC of the instruction in IR, and its tick; the last micro-step
leads to RETIRE (70_reset_and_hazards.md R304, R321). -/
def execMicroStep (s : State) : Result :=
  match s.ir with
  | none   => .fault .noTransition
  | some i =>
    if s.upc = 0 then .fault .noTransition
    else
      match (microcode i)[s.upc - 1]? with
      | none   => .fault .noTransition
      | some m =>
        match m s with
        | .error e t => .next (t.stop i.opcode.number e)
        | .ok _ t =>
          if s.upc < (microcode i).length then .next t.tick
          else .next { t.tick with phase := .retire, upc := 0 }

/-- One transition of the control FSM (70_reset_and_hazards.md R304). FETCH only checks; the fetched word is not part
of the state, and DECODE reads it again, which fetch's idempotence allows (20_memory.md R100). STOPPED has no outgoing
transition: the state stays as it is (60_exceptions.md R258). -/
def fsm (s : State) : Result :=
  match s.phase with
  | .ready  => .next s.start
  | .check  => if s.ceiling ≤ s.retired then .next (s.stop 0 .ceiling) else .next { s with phase := .fetch }
  | .fetch  =>
    match fetch s with
    | .error e => .next (s.stop 0 e)
    | .ok _    => .next { s with phase := .decode }
  | .decode =>
    match fetch s with
    | .error e => .next (s.stop 0 e)
    | .ok w =>
      match decode w with
      | .error _ => .next (s.takeIllegal w)
      | .ok i    => enterExec i s
  | .exec    => execMicroStep s
  | .retire  => .next s.retire
  | .stopped => .next s

/-- One step of the machine: a whole macro-step from CHECK, and else the FSM's transition: the start action from
READY, nothing in STOPPED, and the single transitions of a macro-step in progress. -/
def controlStep (s : State) : Result :=
  if s.phase = .check then macroStep s else fsm s

end Sys2Proof.Machine
end

