-- ==== Sys2Proof/Machine/Step.lean ====
section
/-! DEFINITION. The step of the machine and the placing of an instruction for it to run. -/

namespace Sys2Proof.Machine

/-- One step of the core (70_reset_and_hazards.md R302 to R304). -/
def step (s : State) : Host.Outcome State Fault Refusal := controlStep s

/-- `s` with the instruction word whose bits are the low `nbits` bits of `w` placed so that the next step fetches and
runs it (notes/assumptions/5.md). -/
def State.withFetchWord (s : State) (nbits w : Nat) : State := s.placeWord (BitVec.ofNat 48 (w % 2 ^ nbits))

end Sys2Proof.Machine
end

