-- ==== Sys2Proof/Machine/Loader.lean ====
section
/-! DEFINITION. The program container, the loader and the launch (30_encoding.md R120 to R123, R126, R128;
60_exceptions.md R262; 70_reset_and_hazards.md R300). The container is taken as a JSON value; reading its text is not
the core's (notes/assumptions/12.md). -/

namespace Sys2Proof.Machine

/-- A JSON value. A number is either an integer or no integer; an object is its members in order. A string is a
sequence of Unicode characters, which are the code points but for the surrogates U+D800 to U+DFFF: that no container
holds a lone surrogate is the model's choice (DESIGN CHOICE, unsafe, notes/assumptions/20.md). -/
inductive Json where
  | null
  | bool (value : Bool)
  | int (value : Int)
  | nonInteger
  | str (value : String)
  | arr (items : List Json)
  | obj (members : List (String × Json))
  deriving Repr

/-- The member of an object with the given name; `none` when there is none or the value is no object. Of two members
with one name the first is read (notes/assumptions/13.md). -/
def Json.member (name : String) : Json → Option Json
  | .obj members => (members.find? fun m => m.1 == name).map Prod.snd
  | _            => none

/-- A container instruction as the loader understands it: opcode, optional argument, optional Term
(30_encoding.md R120, R121). -/
structure ContainerInstr where
  op   : Opcode
  arg  : Arg
  term : Option Term
  deriving DecidableEq, Repr

/-- The name of each opcode (30_encoding.md R125). -/
def Opcode.name : Opcode → String
  | .wrDir => "WR_DIR" | .wrNdr => "WR_NDR" | .readDir => "READ_DIR" | .readNdr => "READ_NDR"
  | .jmp => "JMP" | .jnt => "JNT" | .halt => "HALT" | .beginMark => "BEGIN" | .nop => "NOP"
  | .mod => "MOD" | .plus => "PLUS" | .minus => "MINUS" | .mult => "MULT" | .div => "DIV"
  | .pow => "POW" | .lt => "LT" | .neg => "NEG" | .invert => "INVERT"
  | .dup => "DUP" | .overWord => "OVER" | .rot => "ROT" | .swap => "SWAP" | .push => "PUSH" | .drop => "DROP"
  | .print => "PRINT"

/-- The 25 opcodes in the order of their numbers (30_encoding.md R125). -/
def Opcode.all : List Opcode :=
  [.wrDir, .wrNdr, .readDir, .readNdr, .jmp, .jnt, .halt, .beginMark, .nop, .mod, .plus, .minus, .mult, .div, .pow,
   .lt, .neg, .invert, .dup, .overWord, .rot, .swap, .push, .drop, .print]

/-- The opcode of a name, compared exactly and case-sensitively (30_encoding.md R122). -/
def Opcode.ofName (name : String) : Option Opcode := Opcode.all.find? fun op => Opcode.name op == name

/-- The argument of an instruction object: absent or `null` is no argument, an integer in the word range is an
integer, a string of exactly one character is that character; everything else is a bad argument
(30_encoding.md R121, R122; which strings there are: notes/assumptions/20.md). -/
def readArg : Option Json → Except ConfigError Arg
  | none           => .ok none
  | some .null     => .ok none
  | some (.int n)  => if fitsWord n then .ok (some (.int (BitVec.ofInt 32 n))) else .error .badArgument
  | some (.str cs) =>
    match cs.toList with
    | [c] => .ok (some (.chr (BitVec.ofNat 32 c.toNat)))
    | _   => .error .badArgument
  | some _         => .error .badArgument

/-- The Term of an instruction object: absent or `null` is none; else an object with an integer `line` and strings
`context` and `text` (30_encoding.md R121, R122). -/
def readTerm : Option Json → Except ConfigError (Option Term)
  | none       => .ok none
  | some .null => .ok none
  | some j =>
    match j.member "line", j.member "context", j.member "text" with
    | some (.int line), some (.str context), some (.str text) => .ok (some ⟨line, context, text⟩)
    | _, _, _ => .error .badContainer

/-- The opcode of an instruction object. A value that is no object, or has no string member `opcode`, is a malformed
container (30_encoding.md R121; notes/assumptions/14.md); a string that is no opcode name is an unknown opcode
(R122). -/
def readOpcode (j : Json) : Except ConfigError Opcode :=
  match j.member "opcode" with
  | some (.str name) =>
    match Opcode.ofName name with
    | some op => .ok op
    | none    => .error .unknownOpcode
  | _ => .error .badContainer

/-- One instruction object, where its three parts are well formed (30_encoding.md R121, R122). -/
def readInstr (j : Json) : Option ContainerInstr :=
  match readOpcode j, readArg (j.member "arg"), readTerm (j.member "term") with
  | .ok op, .ok arg, .ok term => some ⟨op, arg, term⟩
  | _, _, _ => none

/-- One word of the data array (30_encoding.md R122). -/
def readDatum : Json → Except ConfigError Word
  | .int n => if fitsWord n then .ok (BitVec.ofInt 32 n) else .error .badContainer
  | _      => .error .badContainer

/-- The instruction objects of a container; none when it has no `instructions` array. -/
def instrItems (c : Json) : List Json :=
  match c.member "instructions" with
  | some (.arr items) => items
  | _                 => []

/-- The items of the data array; none when there is no such array (notes/assumptions/14.md). -/
def dataItems (c : Json) : List Json :=
  match c.member "data" with
  | some (.arr items) => items
  | _                 => []

/-- The container has its outer form: an object with an `instructions` array, and `data`, where present, an array
(30_encoding.md R121, R122). -/
def outerForm (c : Json) : Bool :=
  (match c.member "instructions" with
   | some (.arr _) => true
   | _             => false) &&
  (match c.member "data" with
   | none          => true
   | some (.arr _) => true
   | some _        => false)

/-- The program of a container. -/
def programOf (c : Json) : List ContainerInstr := (instrItems c).filterMap readInstr

/-- The data segment of a container. -/
def dataOf (c : Json) : List Word := (dataItems c).filterMap fun j => (readDatum j).toOption

/-- The errors of a reading: one where it fails. -/
def readErrors {α : Type} : Except ConfigError α → List ConfigError
  | .ok _    => []
  | .error e => [e]

/-- Every error of an instruction object. -/
def instrErrors (j : Json) : List ConfigError :=
  readErrors (readOpcode j) ++ readErrors (readArg (j.member "arg")) ++ readErrors (readTerm (j.member "term"))

/-- Every configuration error of a launch (60_exceptions.md R262). A container without an `instructions` array counts
as empty in the check of MEMORY_SIZE (DESIGN CHOICE, unsafe, notes/assumptions/14.md). Every item of the two arrays
counts in the checks of MEMORY_SIZE and of the data's length, malformed ones too (DESIGN CHOICE, unsafe,
notes/assumptions/21.md). -/
def configErrors (c : Json) (memorySize ceiling : Nat) : List ConfigError :=
  (if memorySize ≤ (instrItems c).length + Config.programBase then [.memoryTooSmall] else []) ++
  (if Config.dataWords < (dataItems c).length then [.dataTooLong] else []) ++
  (if outerForm c then [] else [.badContainer]) ++
  (dataItems c).flatMap (fun j => readErrors (readDatum j)) ++
  (instrItems c).flatMap instrErrors ++
  (if Config.maxMemorySize < memorySize ∨ Config.maxCeiling < ceiling then [.badParameter] else [])

/-- The configuration errors in the order of their codes. -/
def ConfigError.inOrder : List ConfigError :=
  [.memoryTooSmall, .dataTooLong, .badContainer, .unknownOpcode, .badArgument, .badParameter]

/-- The error a launch is refused with: the one with the lowest code (60_exceptions.md R262). -/
def refusal (c : Json) (memorySize ceiling : Nat) : Option ConfigError :=
  ConfigError.inOrder.find? fun e => (configErrors c memorySize ceiling).contains e

/-- The state of a refused launch: STATUS records the refusal, nothing is loaded and the core is STOPPED
(60_exceptions.md R262, 70_reset_and_hazards.md R300, R302). -/
def refusedState (e : ConfigError) : State :=
  { State.reset with status := statusWord .stopped .fault e.code, phase := .stopped }

/-- The data words from word `k` on, each at its address (20_memory.md R83). -/
def Memory.loadDataFrom (m : Memory) : Nat → List Word → Memory
  | _, []        => m
  | k, v :: rest => Memory.loadDataFrom (m.loadData k v) (k + 1) rest

/-- The instructions from index `i` on, each encoded into its cell (30_encoding.md R126). -/
def Memory.loadProgramFrom (m : Memory) : Nat → List ContainerInstr → Memory
  | _, []        => m
  | i, x :: rest => Memory.loadProgramFrom (m.loadProgram i (encodeParts x.op x.arg)) (i + 1) rest

/-- Reset and load of an accepted launch: every element takes its reset value, then the data, the program, its Terms,
the input and the parameters (10_state.md R58, 70_reset_and_hazards.md R300). -/
def loadedState (program : List ContainerInstr) (data : List Word) (memorySize ceiling : Nat) (input : List Word) :
    State :=
  { State.reset with
    mem := (State.reset.mem.loadDataFrom 0 data).loadProgramFrom 0 program
    dbg := program.map ContainerInstr.term
    inq := input
    memorySize := memorySize
    ceiling := ceiling
    programLength := program.length }

/-- A launch by the host: the container, MEMORY_SIZE, CEILING and the input codes (70_reset_and_hazards.md R300).
The core is READY, or refused. -/
def launch (c : Json) (memorySize ceiling : Nat) (input : List Word) : State :=
  match refusal c memorySize ceiling with
  | some e => refusedState e
  | none   => loadedState (programOf c) (dataOf c) memorySize ceiling input

/-! ## Writing a container (30_encoding.md R121, R137) -/

/-- A Term as a JSON value. -/
def Term.toJson (t : Term) : Json :=
  .obj [("line", .int t.line), ("context", .str t.context), ("text", .str t.text)]

/-- A literal as a JSON value: an integer, or a string of one character. -/
def Literal.toJson : Literal → Json
  | .int v => .int v.toInt
  | .chr c => .str (String.singleton (Char.ofNat c.toNat))

/-- A container instruction as a JSON value; what is absent is written `null`. -/
def ContainerInstr.toJson (x : ContainerInstr) : Json :=
  .obj [("opcode", .str (Opcode.name x.op)),
        ("arg", match x.arg with | none => .null | some l => Literal.toJson l),
        ("term", match x.term with | none => .null | some t => Term.toJson t)]

/-- A container as a JSON value. -/
def containerJson (data : List Word) (program : List ContainerInstr) : Json :=
  .obj [("data", .arr (data.map fun v => .int v.toInt)), ("instructions", .arr (program.map ContainerInstr.toJson))]

end Sys2Proof.Machine
end

