-- ==== Sys2Proof/WellFormed.lean ====
section
/-! DEFINITION. Which instruction terms are instructions of the machine. The shapes of `Instr` already give JMP and
JNT an integer and PUSH a literal; what is left to check is the range of a character code (30_encoding.md R129
test 4, R131). -/

namespace Sys2Proof

/-- A character code is at most 0x10FFFF, read unsigned (30_encoding.md R129 test 4). -/
def Literal.wellFormed : Literal → Bool
  | .int _ => true
  | .chr c => decide (c.toNat ≤ Config.maxCharCode)

/-- An absent argument is well formed; a present one is when its literal is. -/
def Arg.wellFormed : Arg → Bool
  | none   => true
  | some l => l.wellFormed

/-- A term is an instruction of the machine: the decoder can produce it (30_encoding.md R129, R131). -/
def Instr.wellFormed : Instr → Bool
  | .wrDir a     => Arg.wellFormed a
  | .wrNdr a     => Arg.wellFormed a
  | .readDir a   => Arg.wellFormed a
  | .readNdr a   => Arg.wellFormed a
  | .jmp _       => true
  | .jnt _       => true
  | .halt a      => Arg.wellFormed a
  | .beginMark a => Arg.wellFormed a
  | .nop a       => Arg.wellFormed a
  | .mod a       => Arg.wellFormed a
  | .plus a      => Arg.wellFormed a
  | .minus a     => Arg.wellFormed a
  | .mult a      => Arg.wellFormed a
  | .div a       => Arg.wellFormed a
  | .pow a       => Arg.wellFormed a
  | .lt a        => Arg.wellFormed a
  | .neg a       => Arg.wellFormed a
  | .invert a    => Arg.wellFormed a
  | .dup a       => Arg.wellFormed a
  | .overWord a => Arg.wellFormed a
  | .rot a       => Arg.wellFormed a
  | .swap a      => Arg.wellFormed a
  | .push l      => l.wellFormed
  | .drop a      => Arg.wellFormed a
  | .print a     => Arg.wellFormed a

end Sys2Proof
end

