-- ==== Sys2Proof/Safety.lean ====
section
/-! DEFINITION. The terms claims are stated in: how a run ended and what its results are, the invariant of the
machine, the tick and depth tables, which states no program can tell apart, and the forms of a container. -/

namespace Sys2Proof.Machine

/-! ## How a run ended (60_exceptions.md R255, 70_reset_and_hazards.md R308) -/

/-- The core stands between two macro-steps, before the start or after the stop: every state a run reaches. -/
abbrev State.betweenSteps (s : State) : Prop := s.phase = .ready ∨ s.phase = .check ∨ s.phase = .stopped

/-- The run stopped NORMAL, by HALT or input exhaustion. -/
abbrev State.endedNormal (s : State) : Prop := s.phase = .stopped ∧ statusWhy s.status = Why.code .normal

/-- The run stopped at the ceiling. -/
abbrev State.endedCeiling (s : State) : Prop := s.phase = .stopped ∧ statusWhy s.status = Why.code .ceiling

/-- The run stopped with a fault, or its launch was refused. -/
abbrev State.endedFault (s : State) : Prop := s.phase = .stopped ∧ statusWhy s.status = Why.code .fault

/-- A safe run has not ended with a fault (60_exceptions.md R259). -/
abbrev State.safe (s : State) : Prop := ¬ s.endedFault

/-- The results of a run: the output string, the retired instructions and the ticks (70_reset_and_hazards.md R308). -/
structure RunResults where
  output  : List Char
  retired : Nat
  ticks   : Nat
  deriving DecidableEq, Repr

/-- The results of a run that ended NORMAL, or the partial ones of a run that ended at the ceiling. A faulted run has
none (60_exceptions.md R259, 70_reset_and_hazards.md R308). -/
def State.results (s : State) : Option RunResults :=
  if s.endedNormal ∨ s.endedCeiling then some ⟨outputText s.outq, s.retired, s.ticks⟩ else none

/-! ## The invariant of the machine -/

/-- The stack pointer is a head, and the slots have their canonical form (10_state.md R41). -/
abbrev State.stackOk (s : State) : Prop := s.head < Config.stackCap ∧ Cells.canonical 0 Config.stackCap s.stack = true

/-- The memory has its canonical form (10_state.md R49). -/
abbrev State.memoryOk (s : State) : Prop := s.mem.wf s.memorySize = true

/-- The run parameters are within their bounds (00_scope.md R9, 20_memory.md R82). -/
abbrev State.parametersOk (s : State) : Prop :=
  s.programLength + Config.programBase < s.memorySize ∧ s.memorySize ≤ Config.maxMemorySize ∧
    s.ceiling ≤ Config.maxCeiling

/-- The FSM stands between macro-steps with UPC 0, and STATUS.RUN and STATUS.WHY agree with PHASE
(10_state.md R52, 70_reset_and_hazards.md R304). -/
abbrev State.fsmOk (s : State) : Prop :=
  s.betweenSteps ∧ s.upc = 0 ∧
    (s.phase = .ready → s.status = statusWord .ready .none 0) ∧
    (s.phase = .check → s.status = statusWord .running .none 0) ∧
    (s.phase = .stopped → statusRun s.status = RunState.code .stopped ∧ statusWhy s.status ≠ Why.code .none)

/-- The reserved bits of STATUS are 0, and CAUSE and the fault record are 0 unless the run ended with a fault
(10_state.md R52, R53). -/
abbrev State.recordOk (s : State) : Prop :=
  s.status.extractLsb' 12 4 = 0 ∧
    (statusWhy s.status ≠ Why.code .fault →
      statusCause s.status = 0 ∧ s.faultPc = 0 ∧ s.faultOpc = 0 ∧ s.faultTick = 0 ∧ s.faultInfo = 0)

/-- The counters are within the bounds that keep them from wrapping: no instruction takes more than 5 ticks, and one
that stops the run leaves at most 4 counted (10_state.md R44, R47, 70_reset_and_hazards.md R306). -/
abbrev State.countersOk (s : State) : Prop :=
  s.retired ≤ s.ceiling ∧ s.ticks ≤ 5 * s.retired + (if s.phase = .stopped then 4 else 0)

/-- The invariant of the machine: it holds after reset and after every launch, and every step keeps it. -/
abbrev State.Inv (s : State) : Prop :=
  s.stackOk ∧ s.memoryOk ∧ s.parametersOk ∧ s.fsmOk ∧ s.recordOk ∧ s.countersOk

/-! ## The tables of the instructions -/

/-- The tick count of each instruction (70_reset_and_hazards.md R311); an instruction that faults at decode takes
none. -/
def tickCount : Instr → Nat
  | .wrDir _ => 2 | .wrNdr _ => 5 | .readDir _ => 2 | .readNdr _ => 5
  | .jmp _ => 1 | .jnt _ => 1 | .halt _ => 0 | .beginMark _ => 1 | .nop _ => 1
  | .mod _ => 2 | .plus _ => 2 | .minus _ => 0 | .mult _ => 2 | .div _ => 0 | .pow _ => 2 | .lt _ => 2
  | .neg _ => 2 | .invert _ => 2
  | .dup _ => 1 | .overWord _ => 1 | .rot _ => 1 | .swap _ => 1 | .push _ => 1 | .drop _ => 1
  | .print _ => 0

/-- The stack depth an instruction needs at its start (30_encoding.md R138). -/
def minHead : Instr → Nat
  | .wrDir _ => 2 | .wrNdr _ => 2 | .readDir _ => 1 | .readNdr _ => 1
  | .jmp _ => 0 | .jnt _ => 1 | .halt _ => 0 | .beginMark _ => 0 | .nop _ => 0
  | .mod _ => 2 | .plus _ => 2 | .minus _ => 0 | .mult _ => 2 | .div _ => 0 | .pow _ => 2 | .lt _ => 2
  | .neg _ => 1 | .invert _ => 1
  | .dup _ => 1 | .overWord _ => 2 | .rot _ => 3 | .swap _ => 2 | .push _ => 0 | .drop _ => 1
  | .print _ => 0

/-- The largest starting depth that does not overflow the stack (30_encoding.md R138). -/
def maxHead : Instr → Nat
  | .wrNdr _ => 254
  | .readNdr _ => 253
  | .dup _ => 254 | .overWord _ => 254 | .push _ => 254
  | .wrDir _ => 255 | .readDir _ => 255
  | .jmp _ => 255 | .jnt _ => 255 | .halt _ => 255 | .beginMark _ => 255 | .nop _ => 255
  | .mod _ => 255 | .plus _ => 255 | .minus _ => 255 | .mult _ => 255 | .div _ => 255 | .pow _ => 255 | .lt _ => 255
  | .neg _ => 255 | .invert _ => 255
  | .rot _ => 255 | .swap _ => 255 | .drop _ => 255
  | .print _ => 255

/-- The net change of the stack pointer by an instruction that completes (30_encoding.md R138). -/
def netHead : Instr → Int
  | .wrDir _ => -2 | .wrNdr _ => -2 | .readDir _ => 0 | .readNdr _ => 0
  | .jmp _ => 0 | .jnt _ => -1 | .halt _ => 0 | .beginMark _ => 0 | .nop _ => 0
  | .mod _ => -1 | .plus _ => -1 | .minus _ => 0 | .mult _ => -1 | .div _ => 0 | .pow _ => -1 | .lt _ => -1
  | .neg _ => 0 | .invert _ => 0
  | .dup _ => 1 | .overWord _ => 1 | .rot _ => 0 | .swap _ => 0 | .push _ => 1 | .drop _ => -1
  | .print _ => 0

/-- The next program counter of an instruction that completes in `s` (41_control_flow.md R185). -/
def nextPc (i : Instr) (s : State) : Word :=
  match i with
  | .jmp target => target
  | .jnt target => if isTrue (s.slot (s.head - 1)) then s.pc + 1 else target
  | _           => s.pc + 1

/-! ## What no program can tell apart -/

/-- Two states that differ at most in what no instruction can observe: unoccupied stack slots, MAR, ACC, IR, the
debug table and the program region beyond the program (10_state.md R42, R45, R46, R48, R58; 30_encoding.md R128). -/
structure SameVisible (s t : State) : Prop where
  head : s.head = t.head
  slots : ∀ i, i < s.head → s.slot i = t.slot i
  pc : s.pc = t.pc
  ticks : s.ticks = t.ticks
  retired : s.retired = t.retired
  words : ∀ a, s.mem.word a = t.mem.word a
  program : ∀ i, i < s.programLength → s.mem.instrWord (128 + i) = t.mem.instrWord (128 + i)
  inq : s.inq = t.inq
  outq : s.outq = t.outq
  status : s.status = t.status
  faultPc : s.faultPc = t.faultPc
  faultOpc : s.faultOpc = t.faultOpc
  faultTick : s.faultTick = t.faultTick
  faultInfo : s.faultInfo = t.faultInfo
  phase : s.phase = t.phase
  upc : s.upc = t.upc
  memorySize : s.memorySize = t.memorySize
  ceiling : s.ceiling = t.ceiling
  programLength : s.programLength = t.programLength

/-! ## The forms of a container (30_encoding.md R121) -/

/-- `j` is an object with the members `ms`, in any order: their names are among `names` and none repeats. -/
def Json.IsObject (names : List String) (ms : List (String × Json)) (j : Json) : Prop :=
  j = .obj ms ∧ (ms.map Prod.fst).Nodup ∧ ∀ m ∈ ms, m.1 ∈ names

/-- An optional member: `some v` where `ms` has one of that name and `v` is its value, `none` where it has none. -/
def OptionalMember (ms : List (String × Json)) (name : String) : Option Json → Prop
  | some v => (name, v) ∈ ms
  | none   => name ∉ ms.map Prod.fst

/-- The forms of an argument: absent or `null` for none, an integer, or a string of exactly one character, which
stands for its code point (30_encoding.md R121, R126). -/
inductive ArgForm : Option Json → Arg → Prop where
  | absent : ArgForm none none
  | null : ArgForm (some .null) none
  | int (v : Word) : ArgForm (some (.int v.toInt)) (some (.int v))
  | chr (c : Char) : ArgForm (some (.str (String.singleton c))) (some (.chr (BitVec.ofNat 32 c.toNat)))

/-- The forms of a Term: absent or `null` for none, or an object of its three members (30_encoding.md R121). -/
inductive TermForm : Option Json → Option Term → Prop where
  | absent : TermForm none none
  | null : TermForm (some .null) none
  | object (j : Json) (ms : List (String × Json)) (t : Term) (h : j.IsObject ["line", "context", "text"] ms)
      (line : ("line", .int t.line) ∈ ms) (context : ("context", .str t.context) ∈ ms)
      (text : ("text", .str t.text) ∈ ms) : TermForm (some j) (some t)

/-- An instruction object for `x` (30_encoding.md R121). -/
def InstrForm (j : Json) (x : ContainerInstr) : Prop :=
  ∃ (ms : List (String × Json)) (arg term : Option Json),
    j.IsObject ["opcode", "arg", "term"] ms ∧ ("opcode", .str (Opcode.name x.op)) ∈ ms ∧
    OptionalMember ms "arg" arg ∧ ArgForm arg x.arg ∧ OptionalMember ms "term" term ∧ TermForm term x.term

/-- A container of the given data and program: an object with an `instructions` array and, where there is data, a
`data` array; no data is also the absence of that member (30_encoding.md R121). -/
def ContainerForm (c : Json) (data : List Word) (program : List ContainerInstr) : Prop :=
  ∃ (ms : List (String × Json)) (items : List Json),
    c.IsObject ["data", "instructions"] ms ∧ ("instructions", .arr items) ∈ ms ∧
    List.Forall₂ InstrForm items program ∧
    (("data", .arr (data.map fun v => .int v.toInt)) ∈ ms ∨ ("data" ∉ ms.map Prod.fst ∧ data = []))

/-! ## The states an instruction goes through -/

/-- `s` while `i` is in IR with `n` of its micro-steps completed: what a fault or exhaustion in micro-step `n + 1`
stops in, but for the elements the statements before it wrote. -/
abbrev State.during (s : State) (i : Instr) (n : Nat) : State := { s with ir := some i, ticks := s.ticks + n }

/-- `s` after `i` has completed with `n` micro-steps and the program counter latched to `p`, but for the elements its
statements wrote (70_reset_and_hazards.md R303 to R305). -/
abbrev State.completed (s : State) (i : Instr) (n : Nat) (p : Word) : State :=
  { s with ir := some i, ticks := s.ticks + n, retired := s.retired + 1, pc := p, phase := .check, upc := 0 }

/-- What a read of the latched address `a` gives where it answers: the value, and the memory and input queue after it
(20_memory.md R90, R92). -/
def ReadGives (s : State) (a v : Word) (mem : Memory) (inq : List Word) : Prop :=
  (2 ≤ a.toInt ∧ a.toInt ≤ 127 ∧ v = s.mem.word a.toNat ∧ mem = s.mem ∧ inq = s.inq) ∨
    (a = 0 ∧ s.inq = v :: inq ∧ mem = s.mem.setWord 0 v)

/-- An address the latch accepts (20_memory.md R88). -/
abbrev State.latchable (s : State) (a : Word) : Prop := 0 ≤ a.toInt ∧ a.toInt ≤ s.memorySize

/-- The control FSM run from `s` until the next CHECK or STOPPED, at most `n` transitions. -/
def fsmRun : Nat → State → Result
  | 0, s => .next s
  | n + 1, s =>
    match fsm s with
    | .next t    => if t.phase = .check ∨ t.phase = .stopped then .next t else fsmRun n t
    | .fault r   => .fault r
    | .refused r => .refused r

end Sys2Proof.Machine
end

