-- ==== Sys2Proof/Certificates/Slice0/Obligations.lean ====
section
/-! DEFINITION. The statements about the model. An instruction's rule is stated as the whole next state: every element
that the equation does not name is unchanged. `s.during i n` and `s.completed i n p` (Sys2Proof/Safety.lean) are `s`
with the counters and registers that every instruction writes, and `takeFault` is stated by `TakingAFaultRecords`.
The premise `s.head < 256` is part of the invariant (`StepKeepsInvariant`). -/

open Sys2Proof Sys2Proof.Machine

/-! ## Encoding -/

/-- Decoding the encoding of a well-formed instruction gives it back, with every operand at every value the encoding
admits (30_encoding.md R124 to R129). -/
def Obligations.DecodeOfEncodeIsIdentity : Prop :=
  ∀ i : Instr, i.wellFormed = true → decode (encode i) = .ok i

/-- Every word that decodes has one meaning: it is the encoding of the instruction it decodes to, and that instruction
is well formed (30_encoding.md R129, R131, R134). -/
def Obligations.EncodeOfDecodeIsIdentity : Prop :=
  ∀ (w : InstrWord) (i : Instr), decode w = .ok i → encode i = w ∧ i.wellFormed = true

/-- The illegal encodings are exactly those of 30_encoding.md R131, read off the bits of the word. -/
def Obligations.IllegalEncodingsAreExactlyTheListed : Prop :=
  ∀ w : InstrWord, (∃ e, decode w = .error e) ↔
    ((w.toNat % 256 = 0 ∨ 0x1A ≤ w.toNat % 256) ∨
      w.toNat / 1024 % 64 ≠ 0 ∨
      (w.toNat / 256 % 2 = 0 ∧ (w.toNat / 512 % 2 ≠ 0 ∨ w.toNat / 65536 ≠ 0)) ∨
      (w.toNat / 512 % 2 = 1 ∧ 0x10FFFF < w.toNat / 65536) ∨
      ((w.toNat % 256 = 0x05 ∨ w.toNat % 256 = 0x06 ∨ w.toNat % 256 = 0x17) ∧ w.toNat / 256 % 2 = 0) ∨
      ((w.toNat % 256 = 0x05 ∨ w.toNat % 256 = 0x06) ∧ w.toNat / 512 % 2 = 1))

/-- Words written out from the spec's encoding decode to the instructions they stand for (30_encoding.md R124, R125;
the words of 95_test_vectors.md 2.1 and 3). -/
def Obligations.SpecWordsDecode : Prop :=
  decode 0x000000000001 = .ok (.wrDir none) ∧ decode 0x000000000105 = .ok (.jmp 0) ∧
    decode 0x000000120106 = .ok (.jnt 18) ∧ decode 0x00000000000B = .ok (.plus none) ∧
    decode 0xFFFFFFFF0117 = .ok (.push (.int (-1))) ∧ decode 0x000000410317 = .ok (.push (.chr 65)) ∧
    decode 0x000000050109 = .ok (.nop (some (.int 5))) ∧ decode 0x000000000019 = .ok (.print none)

/-- The container and the image round trip (30_encoding.md R137): writing a container of valid characters and reading
it gives the same data and program, Terms included; decoding a word the loader writes recovers the opcode and the
argument's presence, kind and value; and DBG holds the Terms. -/
def Obligations.ContainerAndImageRoundTrip : Prop :=
  ∀ (data : List Word) (program : List ContainerInstr),
    (∀ x ∈ program, ∀ c, x.arg = some (.chr c) → c.toNat.isValidChar) →
    dataOf (containerJson data program) = data ∧
    programOf (containerJson data program) = program ∧
    (∀ x ∈ program, readFields (encodeParts x.op x.arg) = .ok (x.op, x.arg)) ∧
    ∀ (memorySize ceiling : Nat) (input : List Word),
      (loadedState program data memorySize ceiling input).dbg = program.map ContainerInstr.term

/-! ## The primitives -/

/-- The stack primitives top, setTop, adjust and push (00_scope.md R17 to R20): where each answers, with what, and which
fault with which information it raises elsewhere; a push on a full stack writes S[255] before it faults. -/
def Obligations.StackPrimitivesFollowTheirRules : Prop :=
  ∀ s : State, s.head < 256 →
    (∀ k : Fin 4,
      (k.val < s.head → top k s = .ok (s.slot (s.head - 1 - k.val)) s) ∧
      (s.head ≤ k.val → top k s = .error (.fault .stackUnderflow (BitVec.ofNat 32 k.val)) s)) ∧
    (∀ (k : Fin 4) (v : Word),
      (k.val < s.head → setTop k v s = .ok () { s with stack := Cells.write s.stack (s.head - 1 - k.val) v }) ∧
      (s.head ≤ k.val → setTop k v s = .error (.fault .stackUnderflow (BitVec.ofNat 32 k.val)) s)) ∧
    (∀ (d : HeadDelta) (h : Int), h = s.head + d.toInt →
      (h < 0 → adjust d s = .error (.fault .stackUnderflow (BitVec.ofInt 32 d.toInt)) s) ∧
      (256 ≤ h → adjust d s = .error (.fault .stackOverflow (BitVec.ofInt 32 d.toInt)) s) ∧
      (0 ≤ h → h < 256 → adjust d s = .ok () { s with head := h.toNat })) ∧
    (∀ v : Word,
      (s.head < 255 → push v s = .ok () { s with stack := Cells.write s.stack s.head v, head := s.head + 1 }) ∧
      (s.head = 255 → push v s = .error (.fault .stackOverflow 1) { s with stack := Cells.write s.stack 255 v }))

/-- The address latch accepts 0 to MEMORY_SIZE, both included; a read of a latched address faults at the output port,
consumes the next input code at the input port or ends NORMAL, returns a data cell unchanged, and faults from 128 on
(20_memory.md R88 to R93). -/
def Obligations.LatchAndReadFollowTheirRules : Prop :=
  ∀ (s : State) (a : Word),
    (a.toInt < 0 ∨ (s.memorySize : Int) < a.toInt → latch a s = .error (.fault .addressOutOfRange a) s) ∧
    (0 ≤ a.toInt → a.toInt ≤ s.memorySize → latch a s = .ok () { s with mar := a }) ∧
    (s.mar = 1 → memRead s = .error (.fault .portDirection 1) s) ∧
    (s.mar = 0 → ∀ c rest, s.inq = c :: rest →
      memRead s = .ok c { s with inq := rest, mem := s.mem.setWord 0 c }) ∧
    (s.mar = 0 → s.inq = [] → memRead s = .error .normal s) ∧
    (2 ≤ s.mar.toInt → s.mar.toInt ≤ 127 → memRead s = .ok (s.mem.word s.mar.toNat) s) ∧
    (128 ≤ s.mar.toInt → memRead s = .error (.fault .programRegionAccess s.mar) s)

/-- A write of a latched address faults at the input port, stores and emits at the output port, stores in a data cell,
and faults from 128 on with nothing written (20_memory.md R94, R95, R97, R98). -/
def Obligations.WriteFollowsThePartition : Prop :=
  ∀ (s : State) (v : Word),
    (s.mar = 0 → memWrite v s = .error (.fault .portDirection 0) s) ∧
    (s.mar = 1 → memWrite v s = .ok () { s with mem := s.mem.setWord 1 v, outq := s.outq ++ [token v] }) ∧
    (2 ≤ s.mar.toInt → s.mar.toInt ≤ 127 → memWrite v s = .ok () { s with mem := s.mem.setWord s.mar.toNat v }) ∧
    (128 ≤ s.mar.toInt → memWrite v s = .error (.fault .programRegionAccess s.mar) s)

/-- The token of an output value and its text (20_memory.md R96): a value of 0 to 127 is the character of that code,
every other value the decimal text: a `-` sign for a negative value, then decimal digits without leading zeros that
spell its magnitude. The output string is the concatenation of the tokens' texts in order, and tokens say more than
the string (R110, the spec's own inference from R95 and R96). A run that ended NORMAL or at the ceiling has this
string and the two counters as its results; one that ended with a fault, or has not ended, has none
(70_reset_and_hazards.md R308, 60_exceptions.md R259). -/
def Obligations.TokenAndItsTextFollowTheirRule : Prop :=
  (∀ v : Word,
    (0 ≤ v.toInt → v.toInt ≤ 127 → ∃ c : Fin 128, c.val = v.toNat ∧ token v = .char c ∧
      (token v).text = [Char.ofNat v.toNat]) ∧
    (v.toInt < 0 ∨ 127 < v.toInt → token v = .dec v ∧
      ∃ digits : List Nat, (∀ d ∈ digits, d < 10) ∧ digits.head? ≠ some 0 ∧ digits ≠ [] ∧
        digits.foldl (fun n d => 10 * n + d) 0 = v.toInt.natAbs ∧
        (token v).text = (if v.toInt < 0 then ['-'] else []) ++ digits.map (fun d => Char.ofNat (48 + d)))) ∧
  (∀ tokens : List Token, outputText tokens = (tokens.map Token.text).flatten) ∧
  outputText [.dec 200] = outputText [.char 50, .char 48, .char 48] ∧
  ∀ s : State,
    (s.phase = .stopped → statusWhy s.status = 1 ∨ statusWhy s.status = 2 →
      s.results = some ⟨outputText s.outq, s.retired, s.ticks⟩) ∧
    (s.phase ≠ .stopped ∨ statusWhy s.status = 3 → s.results = none)

/-! ## Memory access -/

/-- WR_DIR, whole (40_memory_access.md R160): `a` is the top word and `v` the one under it. On a data cell `v` is
written, on the output port it is also emitted, and both operands are consumed in 2 ticks; an empty stack and an address
outside the latch's range stop it in T1, one operand, the input port and the program region in T2. -/
def Obligations.WrDirRule : Prop :=
  ∀ (arg : Arg) (s : State) (a v : Word), s.head < 256 → s.slot (s.head - 1) = a → s.slot (s.head - 2) = v →
    opcField (encode (.wrDir arg)) = 0x01 ∧
    (2 ≤ s.head → 2 ≤ a.toInt → a.toInt ≤ 127 → s.latchable a →
      exec (.wrDir arg) s = .next { s.completed (.wrDir arg) 2 (s.pc + 1) with
        head := s.head - 2, mar := a, mem := s.mem.setWord a.toNat v }) ∧
    (2 ≤ s.head → a = 1 → s.latchable a →
      exec (.wrDir arg) s = .next { s.completed (.wrDir arg) 2 (s.pc + 1) with
        head := s.head - 2, mar := 1, mem := s.mem.setWord 1 v, outq := s.outq ++ [token v] }) ∧
    (s.head = 0 →
      exec (.wrDir arg) s = .next ((s.during (.wrDir arg) 0).takeFault .stackUnderflow 0 0x01)) ∧
    (1 ≤ s.head → ¬ s.latchable a →
      exec (.wrDir arg) s = .next ((s.during (.wrDir arg) 0).takeFault .addressOutOfRange a 0x01)) ∧
    (s.head = 1 → s.latchable a →
      exec (.wrDir arg) s = .next (({ s.during (.wrDir arg) 1 with mar := a } : State).takeFault
        .stackUnderflow 1 0x01)) ∧
    (2 ≤ s.head → a = 0 →
      exec (.wrDir arg) s = .next (({ s.during (.wrDir arg) 1 with mar := 0 } : State).takeFault
        .portDirection 0 0x01)) ∧
    (2 ≤ s.head → 128 ≤ a.toInt → s.latchable a →
      exec (.wrDir arg) s = .next (({ s.during (.wrDir arg) 1 with mar := a } : State).takeFault
        .programRegionAccess a 0x01))

/-- READ_DIR, whole (40_memory_access.md R162): `a` is the top word, and the content of its cell, or the next input code,
replaces it in 2 ticks; input exhaustion stops the run NORMAL in T2; an empty stack and an address outside the latch's
range stop it in T1, the output port and the program region in T2. -/
def Obligations.ReadDirRule : Prop :=
  ∀ (arg : Arg) (s : State) (a : Word), s.head < 256 → s.slot (s.head - 1) = a →
    opcField (encode (.readDir arg)) = 0x03 ∧
    (1 ≤ s.head → 2 ≤ a.toInt → a.toInt ≤ 127 → s.latchable a →
      exec (.readDir arg) s = .next { s.completed (.readDir arg) 2 (s.pc + 1) with
        mar := a, stack := Cells.write s.stack (s.head - 1) (s.mem.word a.toNat) }) ∧
    (1 ≤ s.head → a = 0 → ∀ c rest, s.inq = c :: rest →
      exec (.readDir arg) s = .next { s.completed (.readDir arg) 2 (s.pc + 1) with
        mar := 0, stack := Cells.write s.stack (s.head - 1) c, inq := rest, mem := s.mem.setWord 0 c }) ∧
    (1 ≤ s.head → a = 0 → s.inq = [] →
      exec (.readDir arg) s = .next (({ s.during (.readDir arg) 1 with mar := 0 } : State).halted .normal 0)) ∧
    (s.head = 0 →
      exec (.readDir arg) s = .next ((s.during (.readDir arg) 0).takeFault .stackUnderflow 0 0x03)) ∧
    (1 ≤ s.head → ¬ s.latchable a →
      exec (.readDir arg) s = .next ((s.during (.readDir arg) 0).takeFault .addressOutOfRange a 0x03)) ∧
    (1 ≤ s.head → a = 1 → s.latchable a →
      exec (.readDir arg) s = .next (({ s.during (.readDir arg) 1 with mar := 1 } : State).takeFault
        .portDirection 1 0x03)) ∧
    (1 ≤ s.head → 128 ≤ a.toInt → s.latchable a →
      exec (.readDir arg) s = .next (({ s.during (.readDir arg) 1 with mar := a } : State).takeFault
        .programRegionAccess a 0x03))

/-- WR_NDR completes: it reads the pointer `p` from cell `pa`, writes `v` at `p` (or emits it when `p` is the output
port) and then `p + 1` at `pa`, also when `p` is `pa`; the pointer is left in the unoccupied slot S[head]
(40_memory_access.md, WR_NDR and the order of memory events). -/
def Obligations.WrNdrCompletes : Prop :=
  ∀ (arg : Arg) (s : State) (pa v p : Word), 2 ≤ s.head → s.head ≤ 254 → s.slot (s.head - 1) = pa →
    s.slot (s.head - 2) = v → 2 ≤ pa.toInt → pa.toInt ≤ 127 → s.latchable pa → s.mem.word pa.toNat = p →
    s.latchable p → (s.memorySize ≤ Config.maxMemorySize) →
    (2 ≤ p.toInt → p.toInt ≤ 127 →
      exec (.wrNdr arg) s = .next { s.completed (.wrNdr arg) 5 (s.pc + 1) with
        head := s.head - 2, mar := pa, acc := p + 1, stack := Cells.write s.stack s.head p
        mem := (s.mem.setWord p.toNat v).setWord pa.toNat (p + 1) }) ∧
    (p = 1 →
      exec (.wrNdr arg) s = .next { s.completed (.wrNdr arg) 5 (s.pc + 1) with
        head := s.head - 2, mar := pa, acc := 2, stack := Cells.write s.stack s.head 1
        mem := (s.mem.setWord 1 v).setWord pa.toNat 2, outq := s.outq ++ [token v] })

/-- WR_NDR stops at T1 or T2: the stack, the pointer's address, its read, and the headroom; the read comes before the
push (40_memory_access.md, WR_NDR; 60_exceptions.md, priority). -/
def Obligations.WrNdrStopsReadingThePointer : Prop :=
  ∀ (arg : Arg) (s : State) (pa : Word), s.head < 256 → s.slot (s.head - 1) = pa →
    (s.head < 2 →
      exec (.wrNdr arg) s = .next ((s.during (.wrNdr arg) 0).takeFault .stackUnderflow (BitVec.ofNat 32 s.head) 0x02)) ∧
    (2 ≤ s.head → ¬ s.latchable pa →
      exec (.wrNdr arg) s = .next ((s.during (.wrNdr arg) 0).takeFault .addressOutOfRange pa 0x02)) ∧
    (2 ≤ s.head → s.latchable pa → pa = 1 →
      exec (.wrNdr arg) s = .next (({ s.during (.wrNdr arg) 1 with mar := 1 } : State).takeFault
        .portDirection 1 0x02)) ∧
    (2 ≤ s.head → s.latchable pa → 128 ≤ pa.toInt →
      exec (.wrNdr arg) s = .next (({ s.during (.wrNdr arg) 1 with mar := pa } : State).takeFault
        .programRegionAccess pa 0x02)) ∧
    (2 ≤ s.head → pa = 0 → s.inq = [] →
      exec (.wrNdr arg) s = .next (({ s.during (.wrNdr arg) 1 with mar := 0 } : State).halted .normal 0)) ∧
    (s.head = 255 → s.latchable pa → ∀ p mem inq, ReadGives s pa p mem inq →
      exec (.wrNdr arg) s = .next (({ s.during (.wrNdr arg) 1 with
        mar := pa, mem := mem, inq := inq, stack := Cells.write s.stack 255 p } : State).takeFault
          .stackOverflow 1 0x02))

/-- WR_NDR stops at T3, T4 or T5: the pointer read is no address, is the input port or lies in the program region, or
the write-back goes to the input port, after the value has been written (40_memory_access.md, WR_NDR). -/
def Obligations.WrNdrStopsUsingThePointer : Prop :=
  ∀ (arg : Arg) (s : State) (pa v p : Word) (mem : Memory) (inq : List Word), 2 ≤ s.head → s.head ≤ 254 →
    s.slot (s.head - 1) = pa → s.slot (s.head - 2) = v → s.latchable pa → s.memorySize ≤ Config.maxMemorySize →
    ReadGives s pa p mem inq →
    (¬ s.latchable p →
      exec (.wrNdr arg) s = .next (({ s.during (.wrNdr arg) 2 with
        mar := pa, mem := mem, inq := inq, stack := Cells.write s.stack s.head p, head := s.head + 1 } : State).takeFault
          .addressOutOfRange p 0x02)) ∧
    (p = 0 →
      exec (.wrNdr arg) s = .next (({ s.during (.wrNdr arg) 3 with
        mar := 0, acc := 1, mem := mem, inq := inq, stack := Cells.write s.stack s.head 0
        head := s.head + 1 } : State).takeFault .portDirection 0 0x02)) ∧
    (s.latchable p → 128 ≤ p.toInt →
      exec (.wrNdr arg) s = .next (({ s.during (.wrNdr arg) 3 with
        mar := p, acc := p + 1, mem := mem, inq := inq, stack := Cells.write s.stack s.head p
        head := s.head + 1 } : State).takeFault .programRegionAccess p 0x02)) ∧
    (pa = 0 → s.latchable p → 2 ≤ p.toInt → p.toInt ≤ 127 →
      exec (.wrNdr arg) s = .next (({ s.during (.wrNdr arg) 4 with
        mar := 0, acc := p + 1, mem := mem.setWord p.toNat v, inq := inq, stack := Cells.write s.stack s.head p
        head := s.head + 1 } : State).takeFault .portDirection 0 0x02)) ∧
    (pa = 0 → s.latchable p → p = 1 →
      exec (.wrNdr arg) s = .next (({ s.during (.wrNdr arg) 4 with
        mar := 0, acc := 2, mem := mem.setWord 1 v, inq := inq, outq := s.outq ++ [token v]
        stack := Cells.write s.stack s.head 1, head := s.head + 1 } : State).takeFault .portDirection 0 0x02))

/-- READ_NDR completes: it reads the pointer `p` from cell `pa`, the value from `p` (a data cell or the input port),
and writes `p + 1` at `pa`; the value read when `p` is `pa` is the old pointer. The pointer and the value are left in
the unoccupied slots S[head] and S[head + 1] (40_memory_access.md, READ_NDR and the order of memory events). -/
def Obligations.ReadNdrCompletes : Prop :=
  ∀ (arg : Arg) (s : State) (pa p : Word), 1 ≤ s.head → s.head ≤ 253 → s.slot (s.head - 1) = pa →
    2 ≤ pa.toInt → pa.toInt ≤ 127 → s.latchable pa → s.mem.word pa.toNat = p → s.latchable p →
    s.memorySize ≤ Config.maxMemorySize → ∀ v mem inq, ReadGives s p v mem inq →
      exec (.readNdr arg) s = .next { s.completed (.readNdr arg) 5 (s.pc + 1) with
        mar := pa, acc := p + 1, mem := mem.setWord pa.toNat (p + 1), inq := inq
        stack := Cells.write (Cells.write (Cells.write s.stack s.head p) (s.head + 1) v) (s.head - 1) v }

/-- READ_NDR stops at T1 or T2 (40_memory_access.md, READ_NDR; 60_exceptions.md, priority). -/
def Obligations.ReadNdrStopsReadingThePointer : Prop :=
  ∀ (arg : Arg) (s : State) (pa : Word), s.head < 256 → s.slot (s.head - 1) = pa →
    (s.head = 0 →
      exec (.readNdr arg) s = .next ((s.during (.readNdr arg) 0).takeFault .stackUnderflow 0 0x04)) ∧
    (1 ≤ s.head → ¬ s.latchable pa →
      exec (.readNdr arg) s = .next ((s.during (.readNdr arg) 0).takeFault .addressOutOfRange pa 0x04)) ∧
    (1 ≤ s.head → s.latchable pa → pa = 1 →
      exec (.readNdr arg) s = .next (({ s.during (.readNdr arg) 1 with mar := 1 } : State).takeFault
        .portDirection 1 0x04)) ∧
    (1 ≤ s.head → s.latchable pa → 128 ≤ pa.toInt →
      exec (.readNdr arg) s = .next (({ s.during (.readNdr arg) 1 with mar := pa } : State).takeFault
        .programRegionAccess pa 0x04)) ∧
    (1 ≤ s.head → pa = 0 → s.inq = [] →
      exec (.readNdr arg) s = .next (({ s.during (.readNdr arg) 1 with mar := 0 } : State).halted .normal 0)) ∧
    (s.head = 255 → s.latchable pa → ∀ p mem inq, ReadGives s pa p mem inq →
      exec (.readNdr arg) s = .next (({ s.during (.readNdr arg) 1 with
        mar := pa, mem := mem, inq := inq, stack := Cells.write s.stack 255 p } : State).takeFault
          .stackOverflow 1 0x04))

/-- READ_NDR stops at T3, T4 or T5: the pointer read is no address, the output port, in the program region or the
empty input port; the second push finds the stack full; or the write-back goes to the input port, after the value has
been read and pushed (40_memory_access.md, READ_NDR). -/
def Obligations.ReadNdrStopsUsingThePointer : Prop :=
  ∀ (arg : Arg) (s : State) (pa p : Word) (mem : Memory) (inq : List Word), 1 ≤ s.head → s.head ≤ 254 →
    s.slot (s.head - 1) = pa → s.latchable pa → s.memorySize ≤ Config.maxMemorySize → ReadGives s pa p mem inq →
    (¬ s.latchable p →
      exec (.readNdr arg) s = .next (({ s.during (.readNdr arg) 2 with
        mar := pa, mem := mem, inq := inq, stack := Cells.write s.stack s.head p, head := s.head + 1 } : State).takeFault
          .addressOutOfRange p 0x04)) ∧
    (s.latchable p → p = 1 →
      exec (.readNdr arg) s = .next (({ s.during (.readNdr arg) 3 with
        mar := 1, mem := mem, inq := inq, stack := Cells.write s.stack s.head 1, head := s.head + 1 } : State).takeFault
          .portDirection 1 0x04)) ∧
    (s.latchable p → 128 ≤ p.toInt →
      exec (.readNdr arg) s = .next (({ s.during (.readNdr arg) 3 with
        mar := p, mem := mem, inq := inq, stack := Cells.write s.stack s.head p, head := s.head + 1 } : State).takeFault
          .programRegionAccess p 0x04)) ∧
    (p = 0 → inq = [] →
      exec (.readNdr arg) s = .next (({ s.during (.readNdr arg) 3 with
        mar := 0, mem := mem, inq := [], stack := Cells.write s.stack s.head 0, head := s.head + 1 } : State).halted
          .normal 0)) ∧
    (s.head = 254 → s.latchable p → ∀ v mem' inq', ReadGives { s with mem := mem, inq := inq } p v mem' inq' →
      exec (.readNdr arg) s = .next (({ s.during (.readNdr arg) 3 with
        mar := p, mem := mem', inq := inq', head := 255
        stack := Cells.write (Cells.write s.stack 254 p) 255 v } : State).takeFault .stackOverflow 1 0x04)) ∧
    (s.head ≤ 253 → pa = 0 → s.latchable p →
      ∀ v mem' inq', ReadGives { s with mem := mem, inq := inq } p v mem' inq' →
      exec (.readNdr arg) s = .next (({ s.during (.readNdr arg) 4 with
        mar := 0, acc := p + 1, mem := mem', inq := inq', head := s.head + 2
        stack := Cells.write (Cells.write s.stack s.head p) (s.head + 1) v } : State).takeFault .portDirection 0 0x04))

/-- What the memory-access instructions leave unchanged, however they end, read cell by cell: WR_DIR changes at most the
cell its top word `a` addresses; READ_DIR at most the input port's record; WR_NDR at most its pointer cell `a` and the
cell that the pointer `p` addresses, where `p` is the next input code if `a` is the input port and else the content of
`a`; READ_NDR at most its pointer cell and the input port's record (40_memory_access.md; 20_memory.md, read and
write). -/
def Obligations.OnlyTheStoredCellsChange : Prop :=
  ∀ (arg : Arg) (s t : State) (a p : Word), s.slot (s.head - 1) = a →
    p = (if a = 0 then s.inq.headD 0 else s.mem.word a.toNat) →
    (exec (.wrDir arg) s = .next t → ∀ b, b ≠ a.toNat → t.mem.word b = s.mem.word b) ∧
    (exec (.readDir arg) s = .next t → ∀ b, b ≠ 0 → t.mem.word b = s.mem.word b) ∧
    (exec (.wrNdr arg) s = .next t → ∀ b, b ≠ a.toNat → b ≠ p.toNat → t.mem.word b = s.mem.word b) ∧
    (exec (.readNdr arg) s = .next t → ∀ b, b ≠ a.toNat → b ≠ 0 → t.mem.word b = s.mem.word b)

/-! ## Control flow -/

/-- JMP, whole (41_control_flow.md R180): any target is accepted, and one outside the program faults at the next fetch;
a missing or character argument does not decode. -/
def Obligations.JmpRule : Prop :=
  (∀ (target : Word) (s : State),
    opcField (encode (.jmp target)) = 0x05 ∧ argPresent (encode (.jmp target)) = true ∧
    argIsChar (encode (.jmp target)) = false ∧
    exec (.jmp target) s = .next (s.completed (.jmp target) 1 target) ∧
    (target.toInt < 0 ∨ (s.programLength : Int) ≤ target.toInt → s.retired + 1 < s.ceiling →
      step (s.completed (.jmp target) 1 target) =
        .next ((s.completed (.jmp target) 1 target).takeFault .fetchOutOfRange target 0))) ∧
    decode (encodeParts .jmp none) = .error .missingArgument ∧
    ∀ c : Word, c.toNat ≤ 0x10FFFF → decode (encodeParts .jmp (some (.chr c))) = .error .charTarget

/-- JNT, whole (41_control_flow.md R181): only -1 is true and falls through; the flag is consumed on both paths; a taken
target outside the program faults at the next fetch; a missing or character argument does not decode. -/
def Obligations.JntRule : Prop :=
  (∀ (target : Word) (s : State), s.head < 256 →
    opcField (encode (.jnt target)) = 0x06 ∧ argPresent (encode (.jnt target)) = true ∧
    argIsChar (encode (.jnt target)) = false ∧
    (1 ≤ s.head → s.slot (s.head - 1) = -1 →
      exec (.jnt target) s = .next { s.completed (.jnt target) 1 (s.pc + 1) with head := s.head - 1, acc := 0 }) ∧
    (1 ≤ s.head → s.slot (s.head - 1) ≠ -1 →
      exec (.jnt target) s = .next { s.completed (.jnt target) 1 target with head := s.head - 1, acc := -1 }) ∧
    (target.toInt < 0 ∨ (s.programLength : Int) ≤ target.toInt → s.retired + 1 < s.ceiling →
      step { s.completed (.jnt target) 1 target with head := s.head - 1, acc := -1 } =
        .next (({ s.completed (.jnt target) 1 target with head := s.head - 1, acc := -1 } : State).takeFault
          .fetchOutOfRange target 0)) ∧
    (s.head = 0 →
      exec (.jnt target) s = .next ((s.during (.jnt target) 0).takeFault .stackUnderflow 0 0x06))) ∧
    decode (encodeParts .jnt none) = .error .missingArgument ∧
    ∀ c : Word, c.toNat ≤ 0x10FFFF → decode (encodeParts .jnt (some (.chr c))) = .error .charTarget

/-- HALT stops the run NORMAL: STATUS says STOPPED and NORMAL, the program counter, the counters and everything else
stay, but for IR, which holds the HALT (notes/assumptions/16.md) (41_control_flow.md, HALT; 10_state.md, STATUS). -/
def Obligations.HaltStopsNormal : Prop :=
  ∀ (arg : Arg) (s : State), exec (.halt arg) s =
    .next { s with ir := some (.halt arg), status := 0x0006, phase := .stopped, upc := 0 }

/-- BEGIN and NOP, whole (41_control_flow.md R183, R184): one tick, the sequential latch, nothing else, whatever the
argument; execution starts at index 0 whatever the program. -/
def Obligations.BeginAndNopRule : Prop :=
  (∀ (program : List ContainerInstr) (data : List Word) (memorySize ceiling : Nat) (input : List Word),
    (loadedState program data memorySize ceiling input).pc = 0) ∧
  ∀ (arg : Arg) (s : State),
    opcField (encode (.beginMark arg)) = 0x08 ∧ opcField (encode (.nop arg)) = 0x09 ∧
    exec (.beginMark arg) s = .next (s.completed (.beginMark arg) 1 (s.pc + 1)) ∧
    exec (.nop arg) s = .next (s.completed (.nop arg) 1 (s.pc + 1))

/-! ## Arithmetic and logic. `b` is the word under the top, `a` the top. -/

/-- PLUS, whole (42_arith_logic.md R204): a sum that fits a word replaces the two operands in 2 ticks; one that does
not faults ArithmeticOverflow, and fewer than two operands StackUnderflow, both in T1. -/
def Obligations.PlusRule : Prop :=
  ∀ (arg : Arg) (s : State) (b a : Word), s.head < 256 → s.slot (s.head - 2) = b → s.slot (s.head - 1) = a →
    opcField (encode (.plus arg)) = 0x0B ∧
    (2 ≤ s.head → minWord ≤ b.toInt + a.toInt → b.toInt + a.toInt ≤ maxWord →
      ∃ r : Word, r.toInt = b.toInt + a.toInt ∧
        exec (.plus arg) s = .next { s.completed (.plus arg) 2 (s.pc + 1) with
          head := s.head - 1, acc := r, stack := Cells.write s.stack (s.head - 2) r }) ∧
    (2 ≤ s.head → b.toInt + a.toInt < minWord ∨ maxWord < b.toInt + a.toInt →
      exec (.plus arg) s = .next ((s.during (.plus arg) 0).takeFault .arithmeticOverflow 0 0x0B)) ∧
    (s.head < 2 →
      exec (.plus arg) s = .next ((s.during (.plus arg) 0).takeFault .stackUnderflow (BitVec.ofNat 32 s.head) 0x0B))

/-- MULT, whole (42_arith_logic.md R206): a product that fits a word replaces the two operands in 2 ticks; one that does
not faults ArithmeticOverflow, and fewer than two operands StackUnderflow, both in T1. -/
def Obligations.MultRule : Prop :=
  ∀ (arg : Arg) (s : State) (b a : Word), s.head < 256 → s.slot (s.head - 2) = b → s.slot (s.head - 1) = a →
    opcField (encode (.mult arg)) = 0x0D ∧
    (2 ≤ s.head → minWord ≤ b.toInt * a.toInt → b.toInt * a.toInt ≤ maxWord →
      ∃ r : Word, r.toInt = b.toInt * a.toInt ∧
        exec (.mult arg) s = .next { s.completed (.mult arg) 2 (s.pc + 1) with
          head := s.head - 1, acc := r, stack := Cells.write s.stack (s.head - 2) r }) ∧
    (2 ≤ s.head → b.toInt * a.toInt < minWord ∨ maxWord < b.toInt * a.toInt →
      exec (.mult arg) s = .next ((s.during (.mult arg) 0).takeFault .arithmeticOverflow 0 0x0D)) ∧
    (s.head < 2 →
      exec (.mult arg) s = .next ((s.during (.mult arg) 0).takeFault .stackUnderflow (BitVec.ofNat 32 s.head) 0x0D))

/-- MOD, whole (42_arith_logic.md R203): the remainder `r` with quotient `q` has the sign of the divisor `a`, or is 0,
and is smaller than it in magnitude; that is the floored remainder. A zero divisor faults DivideByZero with the
dividend, and fewer than two operands StackUnderflow, both in T1. -/
def Obligations.ModRule : Prop :=
  ∀ (arg : Arg) (s : State) (b a : Word), s.head < 256 → s.slot (s.head - 2) = b → s.slot (s.head - 1) = a →
    opcField (encode (.mod arg)) = 0x0A ∧
    (2 ≤ s.head → a ≠ 0 →
      ∃ (r : Word) (q : Int), b.toInt = a.toInt * q + r.toInt ∧
        (0 ≤ r.toInt ∧ r.toInt < a.toInt ∨ a.toInt < r.toInt ∧ r.toInt ≤ 0) ∧
        exec (.mod arg) s = .next { s.completed (.mod arg) 2 (s.pc + 1) with
          head := s.head - 1, acc := r, stack := Cells.write s.stack (s.head - 2) r }) ∧
    (2 ≤ s.head → a = 0 →
      exec (.mod arg) s = .next ((s.during (.mod arg) 0).takeFault .divideByZero b 0x0A)) ∧
    (s.head < 2 →
      exec (.mod arg) s = .next ((s.during (.mod arg) 0).takeFault .stackUnderflow (BitVec.ofNat 32 s.head) 0x0A))

/-- POW, whole (42_arith_logic.md R208): the base is the top word, the exponent the word under it, and the result the
exact power; a negative exponent faults NegativeExponent, a power that does not fit a word ArithmeticOverflow, and fewer
than two operands StackUnderflow, all in T1. -/
def Obligations.PowRule : Prop :=
  ∀ (arg : Arg) (s : State) (b a : Word), s.head < 256 → s.slot (s.head - 2) = b → s.slot (s.head - 1) = a →
    opcField (encode (.pow arg)) = 0x0F ∧
    (2 ≤ s.head → 0 ≤ b.toInt → minWord ≤ a.toInt ^ b.toInt.toNat → a.toInt ^ b.toInt.toNat ≤ maxWord →
      ∃ r : Word, r.toInt = a.toInt ^ b.toInt.toNat ∧
        exec (.pow arg) s = .next { s.completed (.pow arg) 2 (s.pc + 1) with
          head := s.head - 1, acc := r, stack := Cells.write s.stack (s.head - 2) r }) ∧
    (2 ≤ s.head → 0 ≤ b.toInt → a.toInt ^ b.toInt.toNat < minWord ∨ maxWord < a.toInt ^ b.toInt.toNat →
      exec (.pow arg) s = .next ((s.during (.pow arg) 0).takeFault .arithmeticOverflow 0 0x0F)) ∧
    (2 ≤ s.head → b.toInt < 0 →
      exec (.pow arg) s = .next ((s.during (.pow arg) 0).takeFault .negativeExponent b 0x0F)) ∧
    (s.head < 2 →
      exec (.pow arg) s = .next ((s.during (.pow arg) 0).takeFault .stackUnderflow (BitVec.ofNat 32 s.head) 0x0F))

/-- LT, whole (42_arith_logic.md R209): -1 if `b < a`, signed, else 0, replaces the two operands in 2 ticks; fewer than two
operands fault StackUnderflow in T1. -/
def Obligations.LtRule : Prop :=
  ∀ (arg : Arg) (s : State) (b a : Word), s.head < 256 → s.slot (s.head - 2) = b → s.slot (s.head - 1) = a →
    opcField (encode (.lt arg)) = 0x10 ∧
    (2 ≤ s.head → b.toInt < a.toInt →
      exec (.lt arg) s = .next { s.completed (.lt arg) 2 (s.pc + 1) with
        head := s.head - 1, acc := -1, stack := Cells.write s.stack (s.head - 2) (-1) }) ∧
    (2 ≤ s.head → a.toInt ≤ b.toInt →
      exec (.lt arg) s = .next { s.completed (.lt arg) 2 (s.pc + 1) with
        head := s.head - 1, acc := 0, stack := Cells.write s.stack (s.head - 2) 0 }) ∧
    (s.head < 2 →
      exec (.lt arg) s = .next ((s.during (.lt arg) 0).takeFault .stackUnderflow (BitVec.ofNat 32 s.head) 0x10))

/-- NEG, whole (42_arith_logic.md R210): the negated word replaces the operand in 2 ticks; the smallest word faults
ArithmeticOverflow and an empty stack StackUnderflow, both in T1. -/
def Obligations.NegRule : Prop :=
  ∀ (arg : Arg) (s : State) (a : Word), s.head < 256 → s.slot (s.head - 1) = a →
    opcField (encode (.neg arg)) = 0x11 ∧
    (1 ≤ s.head → a.toInt ≠ minWord →
      ∃ r : Word, r.toInt = -a.toInt ∧
        exec (.neg arg) s = .next { s.completed (.neg arg) 2 (s.pc + 1) with
          acc := r, stack := Cells.write s.stack (s.head - 1) r }) ∧
    (1 ≤ s.head → a.toInt = minWord →
      exec (.neg arg) s = .next ((s.during (.neg arg) 0).takeFault .arithmeticOverflow 0 0x11)) ∧
    (s.head = 0 →
      exec (.neg arg) s = .next ((s.during (.neg arg) 0).takeFault .stackUnderflow 0 0x11))

/-- INVERT, whole (42_arith_logic.md R211): -(a + 1), which is the bitwise NOT and never overflows. -/
def Obligations.InvertRule : Prop :=
  ∀ (arg : Arg) (s : State) (a : Word), s.head < 256 → s.slot (s.head - 1) = a →
    opcField (encode (.invert arg)) = 0x12 ∧
    (1 ≤ s.head → (~~~a).toInt = -(a.toInt + 1) ∧
      exec (.invert arg) s = .next { s.completed (.invert arg) 2 (s.pc + 1) with
        acc := ~~~a, stack := Cells.write s.stack (s.head - 1) (~~~a) }) ∧
    (s.head = 0 →
      exec (.invert arg) s = .next ((s.during (.invert arg) 0).takeFault .stackUnderflow 0 0x12))

/-- MINUS, DIV and PRINT, whole (42_arith_logic.md R205, R207; 44_io.md R250; 30_encoding.md R132): they decode as
legal opcodes and then fault UnimplementedOpcode with their number, at whatever stack; no tick is counted, IR is not
written and nothing but STATUS, the fault record and the FSM changes. -/
def Obligations.UnimplementedOpcodesFault : Prop :=
  ∀ (arg : Arg) (s : State),
    opcField (encode (.minus arg)) = 0x0C ∧ opcField (encode (.div arg)) = 0x0E ∧ opcField (encode (.print arg)) = 0x19 ∧
    (Arg.wellFormed arg = true → decode (encodeParts .minus arg) = .ok (.minus arg) ∧
      decode (encodeParts .div arg) = .ok (.div arg) ∧ decode (encodeParts .print arg) = .ok (.print arg)) ∧
    exec (.minus arg) s = .next (s.takeFault .unimplementedOpcode 0x0C 0x0C) ∧
    exec (.div arg) s = .next (s.takeFault .unimplementedOpcode 0x0E 0x0E) ∧
    exec (.print arg) s = .next (s.takeFault .unimplementedOpcode 0x19 0x19)

/-! ## Stack shuffle -/

/-- DUP and OVER, whole (43_stack.md R230, R231). A push on a full stack writes S[255] before it faults. -/
def Obligations.DupAndOverRule : Prop :=
  ∀ (arg : Arg) (s : State) (y x : Word), s.head < 256 → s.slot (s.head - 2) = y → s.slot (s.head - 1) = x →
    opcField (encode (.dup arg)) = 0x13 ∧ opcField (encode (.overWord arg)) = 0x14 ∧
    (1 ≤ s.head → s.head ≤ 254 →
      exec (.dup arg) s = .next { s.completed (.dup arg) 1 (s.pc + 1) with
        head := s.head + 1, stack := Cells.write s.stack s.head x }) ∧
    (s.head = 0 → exec (.dup arg) s = .next ((s.during (.dup arg) 0).takeFault .stackUnderflow 0 0x13)) ∧
    (s.head = 255 → exec (.dup arg) s =
      .next (({ s.during (.dup arg) 0 with stack := Cells.write s.stack 255 x } : State).takeFault
        .stackOverflow 1 0x13)) ∧
    (2 ≤ s.head → s.head ≤ 254 →
      exec (.overWord arg) s = .next { s.completed (.overWord arg) 1 (s.pc + 1) with
        head := s.head + 1, stack := Cells.write s.stack s.head y }) ∧
    (s.head < 2 → exec (.overWord arg) s = .next ((s.during (.overWord arg) 0).takeFault .stackUnderflow 1 0x14)) ∧
    (s.head = 255 → exec (.overWord arg) s =
      .next (({ s.during (.overWord arg) 0 with stack := Cells.write s.stack 255 y } : State).takeFault
        .stackOverflow 1 0x14))

/-- ROT and SWAP, whole (43_stack.md R232, R233): the top two words change places; ROT also needs a third word, which it
leaves as it is. -/
def Obligations.RotAndSwapRule : Prop :=
  ∀ (arg : Arg) (s : State) (y x : Word), s.head < 256 → s.slot (s.head - 2) = y → s.slot (s.head - 1) = x →
    opcField (encode (.rot arg)) = 0x15 ∧ opcField (encode (.swap arg)) = 0x16 ∧
    (3 ≤ s.head →
      exec (.rot arg) s = .next { s.completed (.rot arg) 1 (s.pc + 1) with
        stack := Cells.write (Cells.write s.stack (s.head - 1) y) (s.head - 2) x }) ∧
    (s.head < 3 → exec (.rot arg) s = .next ((s.during (.rot arg) 0).takeFault .stackUnderflow 2 0x15)) ∧
    (2 ≤ s.head →
      exec (.swap arg) s = .next { s.completed (.swap arg) 1 (s.pc + 1) with
        stack := Cells.write (Cells.write s.stack (s.head - 1) y) (s.head - 2) x }) ∧
    (s.head < 2 →
      exec (.swap arg) s = .next ((s.during (.swap arg) 0).takeFault .stackUnderflow (BitVec.ofNat 32 s.head) 0x16))

/-- PUSH, whole (43_stack.md R234): an integer and a character with the same code push the same word; a missing
argument does not decode; the loader refuses an integer outside the word range. -/
def Obligations.PushRule : Prop :=
  (∀ (lit : Literal) (s : State), s.head < 256 →
    opcField (encode (.push lit)) = 0x17 ∧ argPresent (encode (.push lit)) = true ∧
    argIsChar (encode (.push lit)) = (match lit with | .int _ => false | .chr _ => true) ∧
    (s.head ≤ 254 →
      exec (.push lit) s = .next { s.completed (.push lit) 1 (s.pc + 1) with
        head := s.head + 1
        stack := Cells.write s.stack s.head (match lit with | .int n => n | .chr c => c) }) ∧
    (s.head = 255 →
      exec (.push lit) s = .next (({ s.during (.push lit) 0 with
        stack := Cells.write s.stack 255 (match lit with | .int n => n | .chr c => c) } : State).takeFault
          .stackOverflow 1 0x17))) ∧
    decode (encodeParts .push none) = .error .missingArgument ∧
    ∀ n : Int, n < minWord ∨ maxWord < n → readArg (some (.int n)) = .error .badArgument

/-- DROP, whole (43_stack.md R235): the stack pointer goes down by one and the dropped slot keeps its value; an empty stack
faults StackUnderflow with -1. -/
def Obligations.DropRule : Prop :=
  ∀ (arg : Arg) (s : State), s.head < 256 →
    opcField (encode (.drop arg)) = 0x18 ∧
    (1 ≤ s.head → exec (.drop arg) s = .next { s.completed (.drop arg) 1 (s.pc + 1) with head := s.head - 1 }) ∧
    (s.head = 0 → exec (.drop arg) s = .next ((s.during (.drop arg) 0).takeFault .stackUnderflow (-1) 0x18))

/-! ## Faults and stops -/

/-- Taking a fault writes STATUS, the fault record and the FSM, and nothing else (60_exceptions.md R257, R258;
10_state.md R52, R53). -/
def Obligations.TakingAFaultRecords : Prop :=
  ∀ (s : State) (cause : FaultCause) (info : Word) (opc : OpcodeNumber),
    s.takeFault cause info opc = { s with
      status := (s.takeFault cause info opc).status
      faultPc := s.pc, faultOpc := opc, faultTick := BitVec.ofNat 64 s.ticks, faultInfo := info
      phase := .stopped, upc := 0 } ∧
    (s.takeFault cause info opc).status.toNat = 2 + 4 * 3 + 16 * cause.code.toNat

/-- The fault codes and the configuration codes (60_exceptions.md R256, R262). -/
def Obligations.CausesHaveTheirCodes : Prop :=
  ([FaultCause.fetchOutOfRange, .illegalInstruction, .unimplementedOpcode, .stackUnderflow, .stackOverflow,
    .addressOutOfRange, .portDirection, .programRegionAccess, .divideByZero, .negativeExponent,
    .arithmeticOverflow].map fun c => c.code.toNat) = [1, 2, 3, 4, 5, 6, 7, 8, 9, 10, 11] ∧
  ([ConfigError.memoryTooSmall, .dataTooLong, .badContainer, .unknownOpcode, .badArgument, .badParameter].map
    fun e => e.code.toNat) = [16, 17, 18, 19, 20, 21]

/-- A fault is precise: a step from CHECK that ends with a fault leaves the program counter and the retired count,
records them and the completed ticks, records the OPC field of the fetched word or 0 where nothing was fetched, and the
run takes no further step (60_exceptions.md R257, R258), which the model makes a step that changes nothing
(notes/assumptions/2.md). -/
def Obligations.FaultsArePrecise : Prop :=
  ∀ s t : State, s.phase = .check → step s = .next t → t.endedFault →
    t.pc = s.pc ∧ t.retired = s.retired ∧ t.faultPc = s.pc ∧ t.faultTick = BitVec.ofNat 64 t.ticks ∧
    t.faultOpc = (match fetch s with
      | .ok w    => w.extractLsb' 0 8
      | .error _ => 0) ∧
    statusRun t.status = 2 ∧ 1 ≤ (statusCause t.status).toNat ∧ (statusCause t.status).toNat ≤ 11 ∧
    step t = .next t

/-- A run stops NORMAL only by HALT or by input exhaustion: a step from CHECK that ends NORMAL decoded a HALT, or read
the input port with nothing left to read in one of the three instructions that read memory (41_control_flow.md,
program-counter latch; 20_memory.md, read). -/
def Obligations.NormalEndsAreHaltOrExhaustion : Prop :=
  ∀ s t : State, s.phase = .check → step s = .next t → t.endedNormal →
    ∃ (w : InstrWord) (i : Instr), fetch s = .ok w ∧ decode w = .ok i ∧
      ((∃ arg, i = .halt arg) ∨
        (t.inq = [] ∧ t.mar = 0 ∧ ∃ arg, i = .readDir arg ∨ i = .readNdr arg ∨ i = .wrNdr arg))

/-- Input exhaustion comes before the stack overflow of the same micro-step: the indirect instructions at head 255 with
the input port as pointer cell and nothing to read stop NORMAL (60_exceptions.md R264). -/
def Obligations.ExhaustionComesBeforeOverflow : Prop :=
  ∀ (arg : Arg) (s : State), s.head = 255 → s.slot 254 = 0 → s.inq = [] →
    ∃ t u : State, exec (.readNdr arg) s = .next t ∧ exec (.wrNdr arg) s = .next u ∧
      t.endedNormal ∧ u.endedNormal ∧ t.ticks = s.ticks + 1 ∧ u.ticks = s.ticks + 1

/-! ## The control FSM -/

/-- A step runs the decoded instruction: where the core is at CHECK below the ceiling and the word at the program
counter's cell decodes to `i`, the step is `exec i` at that state, with nothing around it. -/
def Obligations.StepRunsTheDecodedInstruction : Prop :=
  ∀ (s : State) (i : Instr), s.phase = .check → s.retired < s.ceiling → 0 ≤ s.pc.toInt →
    s.pc.toInt < s.programLength → 128 + s.pc.toInt < s.memorySize →
    decode (s.mem.instrWord (128 + s.pc.toNat)) = .ok i → step s = exec i s

/-- What a step from CHECK does before any instruction: the ceiling stops the run first; then a program counter outside
the program faults FetchOutOfRange with opcode field 0; then a word that is no instruction faults IllegalInstruction
with its low 16 bits (60_exceptions.md, priority and fault table; 70_reset_and_hazards.md, control FSM). -/
def Obligations.ChecksBeforeExecution : Prop :=
  ∀ s : State, s.phase = .check →
    (s.ceiling ≤ s.retired → step s = .next { s with status := 0x000A, phase := .stopped, upc := 0 }) ∧
    (s.retired < s.ceiling → s.pc.toInt < 0 ∨ (s.programLength : Int) ≤ s.pc.toInt →
      step s = .next (s.takeFault .fetchOutOfRange s.pc 0)) ∧
    (s.retired < s.ceiling → 0 ≤ s.pc.toInt → s.pc.toInt < s.programLength → 128 + s.pc.toInt < s.memorySize →
      ∀ (w : InstrWord) (e : DecodeError), s.mem.instrWord (128 + s.pc.toNat) = w → decode w = .error e →
      step s = .next (s.takeFault .illegalInstruction (BitVec.ofNat 32 (w.toNat % 65536))
        (BitVec.ofNat 8 (w.toNat % 256))))

/-- The start action on a READY core, and the quiet of a STOPPED one: a step from READY starts the run, a step in
STOPPED does nothing. That a step stands for the start action, and that a stopped core answers a next state, are the
model's choices (notes/assumptions/2.md, notes/assumptions/3.md). -/
def Obligations.StartAndStoppedSteps : Prop :=
  ∀ s : State,
    (s.phase = .ready → s.status = 0 → step s = .next { s with phase := .check, status := 0x0001 }) ∧
    (s.phase = .stopped → step s = .next s)

/-- Edge cases of a run (70_reset_and_hazards.md R309): no instruction under ceiling 0, FetchOutOfRange at index 0 of
the empty program, and the ceiling before a HALT that comes when it is reached. R309 is the spec's own inference from
R303 and R305. Each run takes two steps from READY, because the start action counts as a step here: the model's choice
(notes/assumptions/3.md). -/
def Obligations.EdgeCasesOfARun : Prop :=
  ∀ (program : List ContainerInstr) (data : List Word) (memorySize ceiling : Nat) (input : List Word),
    (∃ t, Host.Core.run Sys2Proof.core 2 (loadedState program data memorySize 0 input) = .next t ∧
      t.endedCeiling ∧ t.retired = 0 ∧ t.ticks = 0 ∧ t.outq = []) ∧
    (0 < ceiling → ∃ t, Host.Core.run Sys2Proof.core 2 (loadedState [] data memorySize ceiling input) = .next t ∧
      t.endedFault ∧ statusCause t.status = 1 ∧ t.faultPc = 0 ∧ t.ticks = 0) ∧
    (∀ s : State, s.phase = .check → s.retired = s.ceiling → fetch s = .ok (encode (.halt none)) →
      ∃ t, step s = .next t ∧ t.endedCeiling)

/-- The whole macro-step is the control FSM's: running the single transitions of 70_reset_and_hazards.md R304 from
CHECK to the next CHECK or STOPPED gives exactly the step. -/
def Obligations.StepIsTheFsmRunToTheNextCheck : Prop :=
  ∀ s : State, s.phase = .check → fsmRun 9 s = step s

/-- Every run stops within its ceiling, and then stays as it is (93_implementation_defined.md U20;
70_reset_and_hazards.md, control FSM). That a stopped core answers the same state is the model's choice
(notes/assumptions/2.md). -/
def Obligations.EveryRunStopsWithinItsCeiling : Prop :=
  ∀ s : State, s.phase = .check →
    ∃ t : State, t.phase = .stopped ∧
      ∀ k : Nat, Host.Core.run Sys2Proof.core (s.ceiling - s.retired + 1 + k) s = .next t

/-- An instruction that completes retires, takes its ticks and latches its next program counter: a step from CHECK to
CHECK decoded an instruction, counts it once, adds the ticks of the table and writes the next index
(41_control_flow.md R185; 70_reset_and_hazards.md R305, R311). -/
def Obligations.CompletedInstructionAccounting : Prop :=
  ∀ s t : State, s.phase = .check → step s = .next t → t.phase = .check →
    ∃ (w : InstrWord) (i : Instr), fetch s = .ok w ∧ decode w = .ok i ∧ t.ir = some i ∧
      t.retired = s.retired + 1 ∧ t.ticks = s.ticks + tickCount i ∧ t.pc = nextPc i s ∧ t.upc = 0

/-- An instruction that stops the run does not retire, keeps the program counter and adds exactly the ticks of the
micro-steps it completed (70_reset_and_hazards.md R305, R306). A ceiling stop, a fault at fetch or decode, an
unimplemented opcode and a HALT add none. Otherwise `n` micro-steps of the fetched instruction completed, the next one
met the stop, and `n` ticks are added. -/
def Obligations.StoppedInstructionAccounting : Prop :=
  ∀ s t : State, s.phase = .check → step s = .next t → t.phase = .stopped →
    t.retired = s.retired ∧ t.pc = s.pc ∧
      ((t.ticks = s.ticks ∧ (s.ceiling ≤ s.retired ∨ (∃ e, fetch s = .error e) ∨
          ∃ w, fetch s = .ok w ∧ ((∃ e, decode w = .error e) ∨ ∃ i, decode w = .ok i ∧ tickCount i = 0))) ∨
        ∃ (w : InstrWord) (i : Instr) (n : Nat) (m : Micro Unit) (u v : State) (e : Stop),
          s.retired < s.ceiling ∧ fetch s = .ok w ∧ decode w = .ok i ∧ n < tickCount i ∧
          runTicks ((microcode i).take n) (s.issue i) = .ok () u ∧
          (microcode i)[n]? = some m ∧ m u = .error e v ∧ t.ticks = s.ticks + n)

/-- The depth table (30_encoding.md, operand and timing summary): an instruction that starts at a depth the table
admits raises no stack fault, and one that completes changes the depth by the table's net. -/
def Obligations.DepthTableHolds : Prop :=
  ∀ (i : Instr) (s t : State), exec i s = .next t → minHead i ≤ s.head → s.head ≤ maxHead i →
    (t.endedFault → statusCause t.status ≠ FaultCause.code .stackUnderflow ∧
      statusCause t.status ≠ FaultCause.code .stackOverflow) ∧
    (t.phase = .check → (t.head : Int) = s.head + netHead i)

/-! ## Whole-machine rules -/

/-- The invariant holds after reset. -/
def Obligations.InvariantHoldsAtReset : Prop := State.reset.Inv

/-- The invariant holds after every launch, accepted or refused. After a refused launch it rests on the model's
choices: PHASE is STOPPED and all but STATUS and PHASE is as reset leaves it (notes/assumptions/15.md), and the run
parameters then hold the values of reset (notes/assumptions/4.md). -/
def Obligations.InvariantHoldsAfterLaunch : Prop :=
  ∀ (c : Json) (memorySize ceiling : Nat) (input : List Word), (launch c memorySize ceiling input).Inv

/-- Every step keeps the invariant: the stack pointer stays below 256 and the slots and the memory keep their
canonical form, the parameters their bounds, STATUS agrees with PHASE, its reserved bits and an unused fault record stay
0, and the counters stay within the bounds that keep them from wrapping (10_state.md, 70_reset_and_hazards.md). The
steps from READY and in STOPPED are the model's choices (notes/assumptions/2.md, notes/assumptions/3.md). -/
def Obligations.StepKeepsInvariant : Prop :=
  ∀ s t : State, s.Inv → step s = .next t → t.Inv

/-- From a state that meets the invariant a step always answers a next state. In CHECK that is the macro-step of
70_reset_and_hazards.md R303; that a step from READY is the host's start action (notes/assumptions/3.md) and that a step
in STOPPED, which has no outgoing transition in R304, answers the same state (notes/assumptions/2.md) are the model's
choices. -/
def Obligations.StepAnswersUnderInvariant : Prop :=
  ∀ s : State, s.Inv → ∃ t, step s = .next t

/-- The program and the parameters never change: no step writes the program region, the debug table, MEMORY_SIZE,
CEILING or PROGRAM_LENGTH (20_memory.md, instruction-fetch coherence; 70_reset_and_hazards.md, hazards). -/
def Obligations.ProgramIsFixed : Prop :=
  ∀ s t : State, step s = .next t →
    (∀ a, t.mem.instrWord a = s.mem.instrWord a) ∧ t.dbg = s.dbg ∧ t.memorySize = s.memorySize ∧
      t.ceiling = s.ceiling ∧ t.programLength = s.programLength

/-- The core only appends to OUTQ and only removes codes from the front of INQ (10_state.md, I/O buffers). -/
def Obligations.OutputOnlyGrowsInputOnlyShrinks : Prop :=
  ∀ s t : State, step s = .next t → (∃ new, t.outq = s.outq ++ new) ∧ ∃ used, s.inq = used ++ t.inq

/-- The arithmetic, logic, stack and control-flow instructions leave memory, INQ, OUTQ and MAR unchanged, however they
end (42_arith_logic.md, arithmetic laws; 43_stack.md). -/
def Obligations.OnlyMemoryAccessTouchesMemory : Prop :=
  ∀ (i : Instr) (s t : State), exec i s = .next t →
    (∀ arg, i ≠ .wrDir arg ∧ i ≠ .wrNdr arg ∧ i ≠ .readDir arg ∧ i ≠ .readNdr arg) →
    t.mem = s.mem ∧ t.inq = s.inq ∧ t.outq = s.outq ∧ t.mar = s.mar

/-- What no instruction reads has no effect: two states that differ at most in the unoccupied stack slots, MAR, ACC, IR,
the debug table and the cells beyond the program step to two states that differ at most in these
(10_state.md R42, R45, R46; 93_implementation_defined.md U10, U11, U16). That READY and STOPPED
states step at all is the model's choice (notes/assumptions/2.md, notes/assumptions/3.md). -/
def Obligations.UnobservableElementsHaveNoEffect : Prop :=
  ∀ s t : State, s.betweenSteps → SameVisible s t →
    ∃ s' t' : State, step s = .next s' ∧ step t = .next t' ∧ SameVisible s' t'

/-! ## Launch -/

/-- The configuration errors of a launch are those of 60_exceptions.md R262 and 30_encoding.md R122, each under exactly
its condition; a launch is refused exactly where it has one, with the lowest code among them, and then nothing is loaded
and the core is STOPPED with that code in STATUS. Choices of the model: of two members with one name the first is
read, and members with other names are ignored (notes/assumptions/13.md); an object without an opcode string is
BadContainer, and instructions or data that are no array count as empty (notes/assumptions/14.md); malformed items
count for the two lengths (notes/assumptions/21.md); a refused core is STOPPED and else as after reset
(notes/assumptions/15.md), with the run parameters of reset (notes/assumptions/4.md). -/
def Obligations.RefusalReportsTheLowestCode : Prop :=
  ∀ (c : Json) (memorySize ceiling : Nat) (input : List Word) (errors : List ConfigError),
    errors = configErrors c memorySize ceiling →
    (∀ items, c.member "instructions" = some (.arr items) → instrItems c = items) ∧
    ((∀ items, c.member "instructions" ≠ some (.arr items)) → instrItems c = []) ∧
    (∀ items, c.member "data" = some (.arr items) → dataItems c = items) ∧
    ((∀ items, c.member "data" ≠ some (.arr items)) → dataItems c = []) ∧
    (.memoryTooSmall ∈ errors ↔ memorySize ≤ (instrItems c).length + 128) ∧
    (.dataTooLong ∈ errors ↔ 126 < (dataItems c).length) ∧
    (.badContainer ∈ errors ↔
      (∀ items, c.member "instructions" ≠ some (.arr items)) ∨
      (∃ d, c.member "data" = some d ∧ ∀ items, d ≠ .arr items) ∨
      (∃ d ∈ dataItems c, ∀ n, d = .int n → n < -2 ^ 31 ∨ 2 ^ 31 - 1 < n) ∨
      (∃ j ∈ instrItems c, ∀ name, j.member "opcode" ≠ some (.str name)) ∨
      (∃ j ∈ instrItems c, ∃ t, j.member "term" = some t ∧ t ≠ .null ∧ ∀ line context text,
        ¬ (t.member "line" = some (.int line) ∧ t.member "context" = some (.str context) ∧
          t.member "text" = some (.str text)))) ∧
    (.unknownOpcode ∈ errors ↔ ∃ j ∈ instrItems c, ∃ name, j.member "opcode" = some (.str name) ∧
      name ∉ ["WR_DIR", "WR_NDR", "READ_DIR", "READ_NDR", "JMP", "JNT", "HALT", "BEGIN", "NOP", "MOD", "PLUS", "MINUS",
        "MULT", "DIV", "POW", "LT", "NEG", "INVERT", "DUP", "OVER", "ROT", "SWAP", "PUSH", "DROP", "PRINT"]) ∧
    (.badArgument ∈ errors ↔ ∃ j ∈ instrItems c, ∃ a, j.member "arg" = some a ∧ a ≠ .null ∧
      (∀ n, a = .int n → n < -2 ^ 31 ∨ 2 ^ 31 - 1 < n) ∧ ∀ text, a = .str text → text.length ≠ 1) ∧
    (.badParameter ∈ errors ↔ 2 ^ 31 - 2 < memorySize ∨ 2 ^ 61 < ceiling) ∧
    (refusal c memorySize ceiling = none ↔ errors = []) ∧
    ∀ e, refusal c memorySize ceiling = some e →
      e ∈ errors ∧ (∀ e' ∈ errors, e.code.toNat ≤ e'.code.toNat) ∧
      launch c memorySize ceiling input = { State.reset with
        status := BitVec.ofNat 16 (2 + 4 * 3 + 16 * e.code.toNat), phase := .stopped }

/-- A well-formed container within the bounds is accepted, whatever its arguments, and the launch loads exactly its data
and program (30_encoding.md, program container; 70_reset_and_hazards.md, reset and load): with its members in any
order, with or without a data member where there is no data, and with an absent argument or Term left out or `null`.
The containers the model writes are such containers. -/
def Obligations.WellFormedContainersAreLoaded : Prop :=
  (∀ (c : Json) (data : List Word) (program : List ContainerInstr) (memorySize ceiling : Nat) (input : List Word),
    ContainerForm c data program → data.length ≤ 126 → program.length + 128 < memorySize →
    memorySize ≤ 2 ^ 31 - 2 → ceiling ≤ 2 ^ 61 →
    launch c memorySize ceiling input = loadedState program data memorySize ceiling input) ∧
  ∀ (data : List Word) (program : List ContainerInstr),
    (∀ x ∈ program, ∀ c, x.arg = some (.chr c) → c.toNat.isValidChar) →
    ContainerForm (containerJson data program) data program

/-- What the state holds after an accepted launch, before the first macro-step (10_state.md R58,
70_reset_and_hazards.md R313): data word `k` at 2 + k and 0 in the rest of the data region, instruction `i` encoded at
128 + i, the whole input, an empty stack and output, and every other element 0, empty or READY. -/
def Obligations.LoadedStateHoldsItsResetValues : Prop :=
  ∀ (program : List ContainerInstr) (data : List Word) (memorySize ceiling : Nat) (input : List Word) (s : State),
    data.length ≤ 126 → s = loadedState program data memorySize ceiling input →
    (∀ k, k < 126 → s.mem.word (2 + k) = data.getD k 0) ∧ s.mem.word 0 = 0 ∧ s.mem.word 1 = 0 ∧
    (∀ i (h : i < program.length), s.mem.instrWord (128 + i) = encodeParts program[i].op program[i].arg) ∧
    s.dbg = program.map ContainerInstr.term ∧ s.inq = input ∧ s.outq = [] ∧ s.head = 0 ∧ (∀ i, s.slot i = 0) ∧
    s.pc = 0 ∧ s.ticks = 0 ∧ s.retired = 0 ∧ s.mar = 0 ∧ s.acc = 0 ∧ s.ir = none ∧ s.status = 0 ∧
    s.faultPc = 0 ∧ s.faultOpc = 0 ∧ s.faultTick = 0 ∧ s.faultInfo = 0 ∧ s.phase = .ready ∧ s.upc = 0 ∧
    s.memorySize = memorySize ∧ s.ceiling = ceiling ∧ s.programLength = program.length

/-- Placing a word makes the very next step run it: the model's own interface for running one instruction
(notes/assumptions/5.md). -/
def Obligations.PlacedWordIsRunNext : Prop :=
  ∀ (s : State) (nbits w : Nat) (i : Instr), nbits ≤ 48 → decodeTableWord nbits w = some i →
    step (s.withFetchWord nbits w) = exec i (s.withFetchWord nbits w)
end

