-- ==== Sys2Proof/Laws/Cells.lean ====
section
/-! SUPPORT. Cells and memory: reading after a write, and the canonical form, which every memory operation keeps. -/

namespace Sys2Proof.Machine

variable {n : Nat}

@[simp] theorem read_nil (a : Nat) : Cells.read ([] : Cells n) a = 0 := rfl

theorem read_cons (b : Nat) (v : BitVec n) (rest : Cells n) (a : Nat) :
    Cells.read ((b, v) :: rest) a = if b = a then v else Cells.read rest a := rfl

theorem erase_cons (b : Nat) (v : BitVec n) (rest : Cells n) (a : Nat) :
    Cells.erase ((b, v) :: rest) a = if b = a then Cells.erase rest a else (b, v) :: Cells.erase rest a := rfl

theorem insert_cons (b : Nat) (w : BitVec n) (rest : Cells n) (a : Nat) (v : BitVec n) :
    Cells.insert ((b, w) :: rest) a v =
      if a < b then (a, v) :: (b, w) :: rest else (b, w) :: Cells.insert rest a v := rfl

theorem read_erase_same (m : Cells n) (a : Nat) : Cells.read (Cells.erase m a) a = 0 := by
  induction m with
  | nil => rfl
  | cons p rest ih =>
    obtain ⟨b, v⟩ := p
    rw [erase_cons]
    split
    · exact ih
    · rw [read_cons, if_neg ‹_›]; exact ih

theorem read_erase_other (m : Cells n) {a b : Nat} (hab : b ≠ a) :
    Cells.read (Cells.erase m a) b = Cells.read m b := by
  induction m with
  | nil => rfl
  | cons p rest ih =>
    obtain ⟨c, v⟩ := p
    rw [erase_cons, read_cons]
    split
    · rw [if_neg (by omega)]; exact ih
    · rw [read_cons, ih]

theorem read_insert_same (m : Cells n) (a : Nat) (v : BitVec n) (h : Cells.erase m a = m) :
    Cells.read (Cells.insert m a v) a = v := by
  induction m with
  | nil => simp [Cells.insert, Cells.read]
  | cons p rest ih =>
    obtain ⟨b, w⟩ := p
    have hb : b ≠ a := by
      intro e
      have hlen : ∀ (l : Cells n), (Cells.erase l a).length ≤ l.length := by
        intro l
        induction l with
        | nil => simp [Cells.erase]
        | cons q t iht => simp only [Cells.erase]; split <;> simp <;> omega
      have := congrArg List.length h
      simp [Cells.erase, e] at this
      have := hlen rest
      omega
    have hrest : Cells.erase rest a = rest := by simpa [Cells.erase, hb] using h
    by_cases hlt : a < b <;> simp [Cells.insert, Cells.read, hlt, hb, ih hrest]

theorem read_insert_other (m : Cells n) {a b : Nat} (v : BitVec n) (hab : b ≠ a) :
    Cells.read (Cells.insert m a v) b = Cells.read m b := by
  induction m with
  | nil => simp [Cells.insert, read_cons, Ne.symm hab]
  | cons p rest ih =>
    obtain ⟨c, w⟩ := p
    rw [insert_cons]
    split
    · rw [read_cons, if_neg (Ne.symm hab)]
    · rw [read_cons, read_cons, ih]

theorem erase_erase (m : Cells n) (a : Nat) : Cells.erase (Cells.erase m a) a = Cells.erase m a := by
  induction m with
  | nil => rfl
  | cons p rest ih =>
    obtain ⟨b, v⟩ := p
    by_cases h : b = a <;> simp [Cells.erase, h, ih]

/-- Reading after a write, at any address and for any list. -/
theorem read_write (m : Cells n) (a b : Nat) (v : BitVec n) :
    Cells.read (Cells.write m a v) b = if b = a then v else Cells.read m b := by
  unfold Cells.write
  split
  · split
    · subst ‹b = a›; rw [read_erase_same, ‹v = 0›]
    · exact read_erase_other m ‹_›
  · split
    · subst ‹b = a›; exact read_insert_same _ _ _ (erase_erase m b)
    · rw [read_insert_other _ v ‹_›, read_erase_other m ‹_›]

@[simp] theorem read_write_same (m : Cells n) (a : Nat) (v : BitVec n) :
    Cells.read (Cells.write m a v) a = v := by simp [read_write]

theorem read_write_other (m : Cells n) {a b : Nat} (v : BitVec n) (h : b ≠ a) :
    Cells.read (Cells.write m a v) b = Cells.read m b := by simp [read_write, h]

/-! ## The canonical form -/

theorem canonical_cons {lo hi a : Nat} {v : BitVec n} {rest : Cells n} :
    Cells.canonical lo hi ((a, v) :: rest) = true ↔
      lo ≤ a ∧ a < hi ∧ v ≠ 0 ∧ Cells.canonical (a + 1) hi rest = true := by
  simp [Cells.canonical, and_assoc]

theorem canonical_weaken {lo lo' hi hi' : Nat} (hlo : lo' ≤ lo) (hhi : hi ≤ hi') {m : Cells n}
    (h : Cells.canonical lo hi m = true) : Cells.canonical lo' hi' m = true := by
  induction m generalizing lo lo' with
  | nil => rfl
  | cons p rest ih =>
    obtain ⟨a, v⟩ := p
    rw [canonical_cons] at h ⊢
    exact ⟨by omega, by omega, h.2.2.1, ih (le_refl _) h.2.2.2⟩

theorem canonical_erase {lo hi : Nat} {m : Cells n} (a : Nat) (h : Cells.canonical lo hi m = true) :
    Cells.canonical lo hi (Cells.erase m a) = true := by
  induction m generalizing lo with
  | nil => rfl
  | cons p rest ih =>
    obtain ⟨b, v⟩ := p
    rw [canonical_cons] at h
    by_cases hb : b = a
    · simp only [Cells.erase, hb, if_true]
      exact canonical_weaken (by omega) (le_refl _) (ih h.2.2.2)
    · simp only [Cells.erase, hb, if_false]
      exact canonical_cons.2 ⟨h.1, h.2.1, h.2.2.1, ih h.2.2.2⟩

theorem canonical_insert {lo hi : Nat} {m : Cells n} {a : Nat} {v : BitVec n} (hlo : lo ≤ a) (hhi : a < hi)
    (hv : v ≠ 0) (h : Cells.canonical lo hi m = true) :
    Cells.canonical lo hi (Cells.insert (Cells.erase m a) a v) = true := by
  induction m generalizing lo with
  | nil => exact canonical_cons.2 ⟨hlo, hhi, hv, rfl⟩
  | cons p rest ih =>
    obtain ⟨b, w⟩ := p
    rw [canonical_cons] at h
    obtain ⟨h1, h2, h3, h4⟩ := h
    by_cases hb : b = a
    · subst hb
      simp only [Cells.erase, if_true]
      exact ih hlo (canonical_weaken (by omega) (le_refl _) h4)
    · simp only [Cells.erase, hb, if_false, Cells.insert]
      by_cases hlt : a < b
      · simp only [hlt, if_true]
        exact canonical_cons.2 ⟨hlo, hhi, hv, canonical_cons.2 ⟨hlt, h2, h3, canonical_erase a h4⟩⟩
      · simp only [hlt, if_false]
        exact canonical_cons.2 ⟨h1, h2, h3, ih (by omega) h4⟩

/-- A write inside the bounds keeps the canonical form. -/
theorem canonical_write {lo hi : Nat} {m : Cells n} {a : Nat} (v : BitVec n) (hlo : lo ≤ a) (hhi : a < hi)
    (h : Cells.canonical lo hi m = true) : Cells.canonical lo hi (Cells.write m a v) = true := by
  unfold Cells.write
  split
  · exact canonical_erase a h
  · exact canonical_insert hlo hhi ‹_› h

/-- Below its lower bound a canonical list holds 0. -/
theorem read_below {lo hi : Nat} {m : Cells n} (h : Cells.canonical lo hi m = true) {a : Nat} (ha : a < lo) :
    Cells.read m a = 0 := by
  induction m generalizing lo with
  | nil => rfl
  | cons p rest ih =>
    obtain ⟨b, v⟩ := p
    rw [canonical_cons] at h
    have : b ≠ a := by omega
    simp only [Cells.read, this, if_false]
    exact ih h.2.2.2 (by omega)

/-- Two canonical lists that read alike are the same list: equal memories are equal data. -/
theorem canonical_ext {lo hi : Nat} {m k : Cells n} (hm : Cells.canonical lo hi m = true)
    (hk : Cells.canonical lo hi k = true) (h : ∀ a, Cells.read m a = Cells.read k a) : m = k := by
  induction m generalizing lo k with
  | nil =>
    cases k with
    | nil => rfl
    | cons q t =>
      obtain ⟨b, w⟩ := q
      rw [canonical_cons] at hk
      have := h b
      simp [Cells.read] at this
      exact absurd this.symm hk.2.2.1
  | cons p rest ih =>
    obtain ⟨a, v⟩ := p
    cases k with
    | nil =>
      rw [canonical_cons] at hm
      have := h a
      simp [Cells.read] at this
      exact absurd this hm.2.2.1
    | cons q t =>
      obtain ⟨b, w⟩ := q
      rw [canonical_cons] at hm hk
      have hab : a = b := by
        rcases Nat.lt_trichotomy a b with hlt | heq | hgt
        · have h1 := h a
          have hne : b ≠ a := by omega
          simp only [Cells.read, hne, if_true, if_false] at h1
          exact absurd (h1.trans (read_below hk.2.2.2 (by omega))) hm.2.2.1
        · exact heq
        · have h1 := h b
          have hne : a ≠ b := by omega
          simp only [Cells.read, hne, if_true, if_false] at h1
          exact absurd (h1.symm.trans (read_below hm.2.2.2 (by omega))) hk.2.2.1
      subst hab
      have hvw : v = w := by have := h a; simpa [Cells.read] using this
      subst hvw
      have : rest = t := by
        refine ih hm.2.2.2 hk.2.2.2 fun c => ?_
        have hc := h c
        by_cases hac : a = c
        · subst hac
          rw [read_below hm.2.2.2 (by omega), read_below hk.2.2.2 (by omega)]
        · simpa [Cells.read, hac] using hc
      rw [this]

/-! ## Memory -/

@[simp] theorem word_setWord (m : Memory) (a b : Nat) (v : Word) :
    (m.setWord a v).word b = if b = a then v else m.word b := read_write m.words a b v

@[simp] theorem instrWord_setWord (m : Memory) (a b : Nat) (v : Word) :
    (m.setWord a v).instrWord b = m.instrWord b := rfl

@[simp] theorem text_setWord (m : Memory) (a : Nat) (v : Word) : (m.setWord a v).text = m.text := rfl

@[simp] theorem instrWord_setInstrWord (m : Memory) (a b : Nat) (w : InstrWord) :
    (m.setInstrWord a w).instrWord b = if b = a then w else m.instrWord b := read_write m.text a b w

@[simp] theorem word_setInstrWord (m : Memory) (a b : Nat) (w : InstrWord) :
    (m.setInstrWord a w).word b = m.word b := rfl

theorem wf_iff {size : Nat} {m : Memory} : m.wf size = true ↔
    Cells.canonical 0 Config.programBase m.words = true ∧ Cells.canonical Config.programBase size m.text = true := by
  simp [Memory.wf]

/-- A write of a port or data cell keeps the memory's form. -/
theorem wf_setWord {size : Nat} {m : Memory} {a : Nat} (v : Word) (ha : a < Config.programBase)
    (h : m.wf size = true) : (m.setWord a v).wf size = true := by
  rw [wf_iff] at h ⊢
  exact ⟨canonical_write v (Nat.zero_le _) ha h.1, h.2⟩

/-- A write of a program cell below the memory's size keeps the memory's form. -/
theorem wf_setInstrWord {size : Nat} {m : Memory} {a : Nat} (w : InstrWord) (hlo : Config.programBase ≤ a)
    (hhi : a < size) (h : m.wf size = true) : (m.setInstrWord a w).wf size = true := by
  rw [wf_iff] at h ⊢
  exact ⟨h.1, canonical_write w hlo hhi h.2⟩

/-- Loading a data word keeps the memory's form. -/
theorem wf_loadData {size : Nat} {m : Memory} {k : Nat} (v : Word) (hk : k < Config.dataWords)
    (h : m.wf size = true) : (m.loadData k v).wf size = true := by
  refine wf_setWord v ?_ h
  show 2 + k < 128
  have : k < 126 := hk
  omega

/-- Loading an instruction keeps the memory's form. -/
theorem wf_loadProgram {size : Nat} {m : Memory} {i : Nat} (w : InstrWord) (hi : Config.programBase + i < size)
    (h : m.wf size = true) : (m.loadProgram i w).wf size = true :=
  wf_setInstrWord w (Nat.le_add_right _ _) hi h

theorem wf_reset : State.reset.mem.wf State.reset.memorySize = true := by decide

end Sys2Proof.Machine
end

