-- ==== Sys2Proof/Laws/State.lean ====
section
/-! SUPPORT. One lemma per field per named update of State, each true by unfolding the update once, so that no later
proof unfolds a record update. -/

namespace Sys2Proof.Machine

variable (s : State)

/-! ### setSlot -/

@[simp] theorem setSlot_stack (i : Nat) (v : Word) : (s.setSlot i v).stack = Cells.write s.stack i v := rfl
@[simp] theorem setSlot_head (i : Nat) (v : Word) : (s.setSlot i v).head = s.head := rfl
@[simp] theorem setSlot_pc (i : Nat) (v : Word) : (s.setSlot i v).pc = s.pc := rfl
@[simp] theorem setSlot_ticks (i : Nat) (v : Word) : (s.setSlot i v).ticks = s.ticks := rfl
@[simp] theorem setSlot_retired (i : Nat) (v : Word) : (s.setSlot i v).retired = s.retired := rfl
@[simp] theorem setSlot_mar (i : Nat) (v : Word) : (s.setSlot i v).mar = s.mar := rfl
@[simp] theorem setSlot_acc (i : Nat) (v : Word) : (s.setSlot i v).acc = s.acc := rfl
@[simp] theorem setSlot_ir (i : Nat) (v : Word) : (s.setSlot i v).ir = s.ir := rfl
@[simp] theorem setSlot_mem (i : Nat) (v : Word) : (s.setSlot i v).mem = s.mem := rfl
@[simp] theorem setSlot_inq (i : Nat) (v : Word) : (s.setSlot i v).inq = s.inq := rfl
@[simp] theorem setSlot_outq (i : Nat) (v : Word) : (s.setSlot i v).outq = s.outq := rfl
@[simp] theorem setSlot_status (i : Nat) (v : Word) : (s.setSlot i v).status = s.status := rfl
@[simp] theorem setSlot_faultPc (i : Nat) (v : Word) : (s.setSlot i v).faultPc = s.faultPc := rfl
@[simp] theorem setSlot_faultOpc (i : Nat) (v : Word) : (s.setSlot i v).faultOpc = s.faultOpc := rfl
@[simp] theorem setSlot_faultTick (i : Nat) (v : Word) : (s.setSlot i v).faultTick = s.faultTick := rfl
@[simp] theorem setSlot_faultInfo (i : Nat) (v : Word) : (s.setSlot i v).faultInfo = s.faultInfo := rfl
@[simp] theorem setSlot_phase (i : Nat) (v : Word) : (s.setSlot i v).phase = s.phase := rfl
@[simp] theorem setSlot_upc (i : Nat) (v : Word) : (s.setSlot i v).upc = s.upc := rfl
@[simp] theorem setSlot_dbg (i : Nat) (v : Word) : (s.setSlot i v).dbg = s.dbg := rfl
@[simp] theorem setSlot_memorySize (i : Nat) (v : Word) : (s.setSlot i v).memorySize = s.memorySize := rfl
@[simp] theorem setSlot_ceiling (i : Nat) (v : Word) : (s.setSlot i v).ceiling = s.ceiling := rfl
@[simp] theorem setSlot_programLength (i : Nat) (v : Word) : (s.setSlot i v).programLength = s.programLength := rfl

/-! ### setHead -/

@[simp] theorem setHead_stack (h : Nat) : (s.setHead h).stack = s.stack := rfl
@[simp] theorem setHead_head (h : Nat) : (s.setHead h).head = h := rfl
@[simp] theorem setHead_pc (h : Nat) : (s.setHead h).pc = s.pc := rfl
@[simp] theorem setHead_ticks (h : Nat) : (s.setHead h).ticks = s.ticks := rfl
@[simp] theorem setHead_retired (h : Nat) : (s.setHead h).retired = s.retired := rfl
@[simp] theorem setHead_mar (h : Nat) : (s.setHead h).mar = s.mar := rfl
@[simp] theorem setHead_acc (h : Nat) : (s.setHead h).acc = s.acc := rfl
@[simp] theorem setHead_ir (h : Nat) : (s.setHead h).ir = s.ir := rfl
@[simp] theorem setHead_mem (h : Nat) : (s.setHead h).mem = s.mem := rfl
@[simp] theorem setHead_inq (h : Nat) : (s.setHead h).inq = s.inq := rfl
@[simp] theorem setHead_outq (h : Nat) : (s.setHead h).outq = s.outq := rfl
@[simp] theorem setHead_status (h : Nat) : (s.setHead h).status = s.status := rfl
@[simp] theorem setHead_faultPc (h : Nat) : (s.setHead h).faultPc = s.faultPc := rfl
@[simp] theorem setHead_faultOpc (h : Nat) : (s.setHead h).faultOpc = s.faultOpc := rfl
@[simp] theorem setHead_faultTick (h : Nat) : (s.setHead h).faultTick = s.faultTick := rfl
@[simp] theorem setHead_faultInfo (h : Nat) : (s.setHead h).faultInfo = s.faultInfo := rfl
@[simp] theorem setHead_phase (h : Nat) : (s.setHead h).phase = s.phase := rfl
@[simp] theorem setHead_upc (h : Nat) : (s.setHead h).upc = s.upc := rfl
@[simp] theorem setHead_dbg (h : Nat) : (s.setHead h).dbg = s.dbg := rfl
@[simp] theorem setHead_memorySize (h : Nat) : (s.setHead h).memorySize = s.memorySize := rfl
@[simp] theorem setHead_ceiling (h : Nat) : (s.setHead h).ceiling = s.ceiling := rfl
@[simp] theorem setHead_programLength (h : Nat) : (s.setHead h).programLength = s.programLength := rfl

/-! ### setPc -/

@[simp] theorem setPc_stack (p : Word) : (s.setPc p).stack = s.stack := rfl
@[simp] theorem setPc_head (p : Word) : (s.setPc p).head = s.head := rfl
@[simp] theorem setPc_pc (p : Word) : (s.setPc p).pc = p := rfl
@[simp] theorem setPc_ticks (p : Word) : (s.setPc p).ticks = s.ticks := rfl
@[simp] theorem setPc_retired (p : Word) : (s.setPc p).retired = s.retired := rfl
@[simp] theorem setPc_mar (p : Word) : (s.setPc p).mar = s.mar := rfl
@[simp] theorem setPc_acc (p : Word) : (s.setPc p).acc = s.acc := rfl
@[simp] theorem setPc_ir (p : Word) : (s.setPc p).ir = s.ir := rfl
@[simp] theorem setPc_mem (p : Word) : (s.setPc p).mem = s.mem := rfl
@[simp] theorem setPc_inq (p : Word) : (s.setPc p).inq = s.inq := rfl
@[simp] theorem setPc_outq (p : Word) : (s.setPc p).outq = s.outq := rfl
@[simp] theorem setPc_status (p : Word) : (s.setPc p).status = s.status := rfl
@[simp] theorem setPc_faultPc (p : Word) : (s.setPc p).faultPc = s.faultPc := rfl
@[simp] theorem setPc_faultOpc (p : Word) : (s.setPc p).faultOpc = s.faultOpc := rfl
@[simp] theorem setPc_faultTick (p : Word) : (s.setPc p).faultTick = s.faultTick := rfl
@[simp] theorem setPc_faultInfo (p : Word) : (s.setPc p).faultInfo = s.faultInfo := rfl
@[simp] theorem setPc_phase (p : Word) : (s.setPc p).phase = s.phase := rfl
@[simp] theorem setPc_upc (p : Word) : (s.setPc p).upc = s.upc := rfl
@[simp] theorem setPc_dbg (p : Word) : (s.setPc p).dbg = s.dbg := rfl
@[simp] theorem setPc_memorySize (p : Word) : (s.setPc p).memorySize = s.memorySize := rfl
@[simp] theorem setPc_ceiling (p : Word) : (s.setPc p).ceiling = s.ceiling := rfl
@[simp] theorem setPc_programLength (p : Word) : (s.setPc p).programLength = s.programLength := rfl

/-! ### setMar -/

@[simp] theorem setMar_stack (a : Word) : (s.setMar a).stack = s.stack := rfl
@[simp] theorem setMar_head (a : Word) : (s.setMar a).head = s.head := rfl
@[simp] theorem setMar_pc (a : Word) : (s.setMar a).pc = s.pc := rfl
@[simp] theorem setMar_ticks (a : Word) : (s.setMar a).ticks = s.ticks := rfl
@[simp] theorem setMar_retired (a : Word) : (s.setMar a).retired = s.retired := rfl
@[simp] theorem setMar_mar (a : Word) : (s.setMar a).mar = a := rfl
@[simp] theorem setMar_acc (a : Word) : (s.setMar a).acc = s.acc := rfl
@[simp] theorem setMar_ir (a : Word) : (s.setMar a).ir = s.ir := rfl
@[simp] theorem setMar_mem (a : Word) : (s.setMar a).mem = s.mem := rfl
@[simp] theorem setMar_inq (a : Word) : (s.setMar a).inq = s.inq := rfl
@[simp] theorem setMar_outq (a : Word) : (s.setMar a).outq = s.outq := rfl
@[simp] theorem setMar_status (a : Word) : (s.setMar a).status = s.status := rfl
@[simp] theorem setMar_faultPc (a : Word) : (s.setMar a).faultPc = s.faultPc := rfl
@[simp] theorem setMar_faultOpc (a : Word) : (s.setMar a).faultOpc = s.faultOpc := rfl
@[simp] theorem setMar_faultTick (a : Word) : (s.setMar a).faultTick = s.faultTick := rfl
@[simp] theorem setMar_faultInfo (a : Word) : (s.setMar a).faultInfo = s.faultInfo := rfl
@[simp] theorem setMar_phase (a : Word) : (s.setMar a).phase = s.phase := rfl
@[simp] theorem setMar_upc (a : Word) : (s.setMar a).upc = s.upc := rfl
@[simp] theorem setMar_dbg (a : Word) : (s.setMar a).dbg = s.dbg := rfl
@[simp] theorem setMar_memorySize (a : Word) : (s.setMar a).memorySize = s.memorySize := rfl
@[simp] theorem setMar_ceiling (a : Word) : (s.setMar a).ceiling = s.ceiling := rfl
@[simp] theorem setMar_programLength (a : Word) : (s.setMar a).programLength = s.programLength := rfl

/-! ### setAcc -/

@[simp] theorem setAcc_stack (v : Word) : (s.setAcc v).stack = s.stack := rfl
@[simp] theorem setAcc_head (v : Word) : (s.setAcc v).head = s.head := rfl
@[simp] theorem setAcc_pc (v : Word) : (s.setAcc v).pc = s.pc := rfl
@[simp] theorem setAcc_ticks (v : Word) : (s.setAcc v).ticks = s.ticks := rfl
@[simp] theorem setAcc_retired (v : Word) : (s.setAcc v).retired = s.retired := rfl
@[simp] theorem setAcc_mar (v : Word) : (s.setAcc v).mar = s.mar := rfl
@[simp] theorem setAcc_acc (v : Word) : (s.setAcc v).acc = v := rfl
@[simp] theorem setAcc_ir (v : Word) : (s.setAcc v).ir = s.ir := rfl
@[simp] theorem setAcc_mem (v : Word) : (s.setAcc v).mem = s.mem := rfl
@[simp] theorem setAcc_inq (v : Word) : (s.setAcc v).inq = s.inq := rfl
@[simp] theorem setAcc_outq (v : Word) : (s.setAcc v).outq = s.outq := rfl
@[simp] theorem setAcc_status (v : Word) : (s.setAcc v).status = s.status := rfl
@[simp] theorem setAcc_faultPc (v : Word) : (s.setAcc v).faultPc = s.faultPc := rfl
@[simp] theorem setAcc_faultOpc (v : Word) : (s.setAcc v).faultOpc = s.faultOpc := rfl
@[simp] theorem setAcc_faultTick (v : Word) : (s.setAcc v).faultTick = s.faultTick := rfl
@[simp] theorem setAcc_faultInfo (v : Word) : (s.setAcc v).faultInfo = s.faultInfo := rfl
@[simp] theorem setAcc_phase (v : Word) : (s.setAcc v).phase = s.phase := rfl
@[simp] theorem setAcc_upc (v : Word) : (s.setAcc v).upc = s.upc := rfl
@[simp] theorem setAcc_dbg (v : Word) : (s.setAcc v).dbg = s.dbg := rfl
@[simp] theorem setAcc_memorySize (v : Word) : (s.setAcc v).memorySize = s.memorySize := rfl
@[simp] theorem setAcc_ceiling (v : Word) : (s.setAcc v).ceiling = s.ceiling := rfl
@[simp] theorem setAcc_programLength (v : Word) : (s.setAcc v).programLength = s.programLength := rfl

/-! ### setMem -/

@[simp] theorem setMem_stack (m : Memory) : (s.setMem m).stack = s.stack := rfl
@[simp] theorem setMem_head (m : Memory) : (s.setMem m).head = s.head := rfl
@[simp] theorem setMem_pc (m : Memory) : (s.setMem m).pc = s.pc := rfl
@[simp] theorem setMem_ticks (m : Memory) : (s.setMem m).ticks = s.ticks := rfl
@[simp] theorem setMem_retired (m : Memory) : (s.setMem m).retired = s.retired := rfl
@[simp] theorem setMem_mar (m : Memory) : (s.setMem m).mar = s.mar := rfl
@[simp] theorem setMem_acc (m : Memory) : (s.setMem m).acc = s.acc := rfl
@[simp] theorem setMem_ir (m : Memory) : (s.setMem m).ir = s.ir := rfl
@[simp] theorem setMem_mem (m : Memory) : (s.setMem m).mem = m := rfl
@[simp] theorem setMem_inq (m : Memory) : (s.setMem m).inq = s.inq := rfl
@[simp] theorem setMem_outq (m : Memory) : (s.setMem m).outq = s.outq := rfl
@[simp] theorem setMem_status (m : Memory) : (s.setMem m).status = s.status := rfl
@[simp] theorem setMem_faultPc (m : Memory) : (s.setMem m).faultPc = s.faultPc := rfl
@[simp] theorem setMem_faultOpc (m : Memory) : (s.setMem m).faultOpc = s.faultOpc := rfl
@[simp] theorem setMem_faultTick (m : Memory) : (s.setMem m).faultTick = s.faultTick := rfl
@[simp] theorem setMem_faultInfo (m : Memory) : (s.setMem m).faultInfo = s.faultInfo := rfl
@[simp] theorem setMem_phase (m : Memory) : (s.setMem m).phase = s.phase := rfl
@[simp] theorem setMem_upc (m : Memory) : (s.setMem m).upc = s.upc := rfl
@[simp] theorem setMem_dbg (m : Memory) : (s.setMem m).dbg = s.dbg := rfl
@[simp] theorem setMem_memorySize (m : Memory) : (s.setMem m).memorySize = s.memorySize := rfl
@[simp] theorem setMem_ceiling (m : Memory) : (s.setMem m).ceiling = s.ceiling := rfl
@[simp] theorem setMem_programLength (m : Memory) : (s.setMem m).programLength = s.programLength := rfl

/-! ### setInq -/

@[simp] theorem setInq_stack (q : List Word) : (s.setInq q).stack = s.stack := rfl
@[simp] theorem setInq_head (q : List Word) : (s.setInq q).head = s.head := rfl
@[simp] theorem setInq_pc (q : List Word) : (s.setInq q).pc = s.pc := rfl
@[simp] theorem setInq_ticks (q : List Word) : (s.setInq q).ticks = s.ticks := rfl
@[simp] theorem setInq_retired (q : List Word) : (s.setInq q).retired = s.retired := rfl
@[simp] theorem setInq_mar (q : List Word) : (s.setInq q).mar = s.mar := rfl
@[simp] theorem setInq_acc (q : List Word) : (s.setInq q).acc = s.acc := rfl
@[simp] theorem setInq_ir (q : List Word) : (s.setInq q).ir = s.ir := rfl
@[simp] theorem setInq_mem (q : List Word) : (s.setInq q).mem = s.mem := rfl
@[simp] theorem setInq_inq (q : List Word) : (s.setInq q).inq = q := rfl
@[simp] theorem setInq_outq (q : List Word) : (s.setInq q).outq = s.outq := rfl
@[simp] theorem setInq_status (q : List Word) : (s.setInq q).status = s.status := rfl
@[simp] theorem setInq_faultPc (q : List Word) : (s.setInq q).faultPc = s.faultPc := rfl
@[simp] theorem setInq_faultOpc (q : List Word) : (s.setInq q).faultOpc = s.faultOpc := rfl
@[simp] theorem setInq_faultTick (q : List Word) : (s.setInq q).faultTick = s.faultTick := rfl
@[simp] theorem setInq_faultInfo (q : List Word) : (s.setInq q).faultInfo = s.faultInfo := rfl
@[simp] theorem setInq_phase (q : List Word) : (s.setInq q).phase = s.phase := rfl
@[simp] theorem setInq_upc (q : List Word) : (s.setInq q).upc = s.upc := rfl
@[simp] theorem setInq_dbg (q : List Word) : (s.setInq q).dbg = s.dbg := rfl
@[simp] theorem setInq_memorySize (q : List Word) : (s.setInq q).memorySize = s.memorySize := rfl
@[simp] theorem setInq_ceiling (q : List Word) : (s.setInq q).ceiling = s.ceiling := rfl
@[simp] theorem setInq_programLength (q : List Word) : (s.setInq q).programLength = s.programLength := rfl

/-! ### emit -/

@[simp] theorem emit_stack (k : Token) : (s.emit k).stack = s.stack := rfl
@[simp] theorem emit_head (k : Token) : (s.emit k).head = s.head := rfl
@[simp] theorem emit_pc (k : Token) : (s.emit k).pc = s.pc := rfl
@[simp] theorem emit_ticks (k : Token) : (s.emit k).ticks = s.ticks := rfl
@[simp] theorem emit_retired (k : Token) : (s.emit k).retired = s.retired := rfl
@[simp] theorem emit_mar (k : Token) : (s.emit k).mar = s.mar := rfl
@[simp] theorem emit_acc (k : Token) : (s.emit k).acc = s.acc := rfl
@[simp] theorem emit_ir (k : Token) : (s.emit k).ir = s.ir := rfl
@[simp] theorem emit_mem (k : Token) : (s.emit k).mem = s.mem := rfl
@[simp] theorem emit_inq (k : Token) : (s.emit k).inq = s.inq := rfl
@[simp] theorem emit_outq (k : Token) : (s.emit k).outq = s.outq ++ [k] := rfl
@[simp] theorem emit_status (k : Token) : (s.emit k).status = s.status := rfl
@[simp] theorem emit_faultPc (k : Token) : (s.emit k).faultPc = s.faultPc := rfl
@[simp] theorem emit_faultOpc (k : Token) : (s.emit k).faultOpc = s.faultOpc := rfl
@[simp] theorem emit_faultTick (k : Token) : (s.emit k).faultTick = s.faultTick := rfl
@[simp] theorem emit_faultInfo (k : Token) : (s.emit k).faultInfo = s.faultInfo := rfl
@[simp] theorem emit_phase (k : Token) : (s.emit k).phase = s.phase := rfl
@[simp] theorem emit_upc (k : Token) : (s.emit k).upc = s.upc := rfl
@[simp] theorem emit_dbg (k : Token) : (s.emit k).dbg = s.dbg := rfl
@[simp] theorem emit_memorySize (k : Token) : (s.emit k).memorySize = s.memorySize := rfl
@[simp] theorem emit_ceiling (k : Token) : (s.emit k).ceiling = s.ceiling := rfl
@[simp] theorem emit_programLength (k : Token) : (s.emit k).programLength = s.programLength := rfl

/-! ### tick -/

@[simp] theorem tick_stack : (s.tick).stack = s.stack := rfl
@[simp] theorem tick_head : (s.tick).head = s.head := rfl
@[simp] theorem tick_pc : (s.tick).pc = s.pc := rfl
@[simp] theorem tick_ticks : (s.tick).ticks = s.ticks + 1 := rfl
@[simp] theorem tick_retired : (s.tick).retired = s.retired := rfl
@[simp] theorem tick_mar : (s.tick).mar = s.mar := rfl
@[simp] theorem tick_acc : (s.tick).acc = s.acc := rfl
@[simp] theorem tick_ir : (s.tick).ir = s.ir := rfl
@[simp] theorem tick_mem : (s.tick).mem = s.mem := rfl
@[simp] theorem tick_inq : (s.tick).inq = s.inq := rfl
@[simp] theorem tick_outq : (s.tick).outq = s.outq := rfl
@[simp] theorem tick_status : (s.tick).status = s.status := rfl
@[simp] theorem tick_faultPc : (s.tick).faultPc = s.faultPc := rfl
@[simp] theorem tick_faultOpc : (s.tick).faultOpc = s.faultOpc := rfl
@[simp] theorem tick_faultTick : (s.tick).faultTick = s.faultTick := rfl
@[simp] theorem tick_faultInfo : (s.tick).faultInfo = s.faultInfo := rfl
@[simp] theorem tick_phase : (s.tick).phase = s.phase := rfl
@[simp] theorem tick_upc : (s.tick).upc = s.upc + 1 := rfl
@[simp] theorem tick_dbg : (s.tick).dbg = s.dbg := rfl
@[simp] theorem tick_memorySize : (s.tick).memorySize = s.memorySize := rfl
@[simp] theorem tick_ceiling : (s.tick).ceiling = s.ceiling := rfl
@[simp] theorem tick_programLength : (s.tick).programLength = s.programLength := rfl

/-! ### issue -/

@[simp] theorem issue_stack (i : Instr) : (s.issue i).stack = s.stack := rfl
@[simp] theorem issue_head (i : Instr) : (s.issue i).head = s.head := rfl
@[simp] theorem issue_pc (i : Instr) : (s.issue i).pc = s.pc := rfl
@[simp] theorem issue_ticks (i : Instr) : (s.issue i).ticks = s.ticks := rfl
@[simp] theorem issue_retired (i : Instr) : (s.issue i).retired = s.retired := rfl
@[simp] theorem issue_mar (i : Instr) : (s.issue i).mar = s.mar := rfl
@[simp] theorem issue_acc (i : Instr) : (s.issue i).acc = s.acc := rfl
@[simp] theorem issue_ir (i : Instr) : (s.issue i).ir = some i := rfl
@[simp] theorem issue_mem (i : Instr) : (s.issue i).mem = s.mem := rfl
@[simp] theorem issue_inq (i : Instr) : (s.issue i).inq = s.inq := rfl
@[simp] theorem issue_outq (i : Instr) : (s.issue i).outq = s.outq := rfl
@[simp] theorem issue_status (i : Instr) : (s.issue i).status = s.status := rfl
@[simp] theorem issue_faultPc (i : Instr) : (s.issue i).faultPc = s.faultPc := rfl
@[simp] theorem issue_faultOpc (i : Instr) : (s.issue i).faultOpc = s.faultOpc := rfl
@[simp] theorem issue_faultTick (i : Instr) : (s.issue i).faultTick = s.faultTick := rfl
@[simp] theorem issue_faultInfo (i : Instr) : (s.issue i).faultInfo = s.faultInfo := rfl
@[simp] theorem issue_phase (i : Instr) : (s.issue i).phase = .exec := rfl
@[simp] theorem issue_upc (i : Instr) : (s.issue i).upc = 1 := rfl
@[simp] theorem issue_dbg (i : Instr) : (s.issue i).dbg = s.dbg := rfl
@[simp] theorem issue_memorySize (i : Instr) : (s.issue i).memorySize = s.memorySize := rfl
@[simp] theorem issue_ceiling (i : Instr) : (s.issue i).ceiling = s.ceiling := rfl
@[simp] theorem issue_programLength (i : Instr) : (s.issue i).programLength = s.programLength := rfl

/-! ### retire -/

@[simp] theorem retire_stack : (s.retire).stack = s.stack := rfl
@[simp] theorem retire_head : (s.retire).head = s.head := rfl
@[simp] theorem retire_pc : (s.retire).pc = s.pc := rfl
@[simp] theorem retire_ticks : (s.retire).ticks = s.ticks := rfl
@[simp] theorem retire_retired : (s.retire).retired = s.retired + 1 := rfl
@[simp] theorem retire_mar : (s.retire).mar = s.mar := rfl
@[simp] theorem retire_acc : (s.retire).acc = s.acc := rfl
@[simp] theorem retire_ir : (s.retire).ir = s.ir := rfl
@[simp] theorem retire_mem : (s.retire).mem = s.mem := rfl
@[simp] theorem retire_inq : (s.retire).inq = s.inq := rfl
@[simp] theorem retire_outq : (s.retire).outq = s.outq := rfl
@[simp] theorem retire_status : (s.retire).status = s.status := rfl
@[simp] theorem retire_faultPc : (s.retire).faultPc = s.faultPc := rfl
@[simp] theorem retire_faultOpc : (s.retire).faultOpc = s.faultOpc := rfl
@[simp] theorem retire_faultTick : (s.retire).faultTick = s.faultTick := rfl
@[simp] theorem retire_faultInfo : (s.retire).faultInfo = s.faultInfo := rfl
@[simp] theorem retire_phase : (s.retire).phase = .check := rfl
@[simp] theorem retire_upc : (s.retire).upc = 0 := rfl
@[simp] theorem retire_dbg : (s.retire).dbg = s.dbg := rfl
@[simp] theorem retire_memorySize : (s.retire).memorySize = s.memorySize := rfl
@[simp] theorem retire_ceiling : (s.retire).ceiling = s.ceiling := rfl
@[simp] theorem retire_programLength : (s.retire).programLength = s.programLength := rfl

/-! ### halted -/

@[simp] theorem halted_stack (why : Why) (cause : BitVec 8) : (s.halted why cause).stack = s.stack := rfl
@[simp] theorem halted_head (why : Why) (cause : BitVec 8) : (s.halted why cause).head = s.head := rfl
@[simp] theorem halted_pc (why : Why) (cause : BitVec 8) : (s.halted why cause).pc = s.pc := rfl
@[simp] theorem halted_ticks (why : Why) (cause : BitVec 8) : (s.halted why cause).ticks = s.ticks := rfl
@[simp] theorem halted_retired (why : Why) (cause : BitVec 8) : (s.halted why cause).retired = s.retired := rfl
@[simp] theorem halted_mar (why : Why) (cause : BitVec 8) : (s.halted why cause).mar = s.mar := rfl
@[simp] theorem halted_acc (why : Why) (cause : BitVec 8) : (s.halted why cause).acc = s.acc := rfl
@[simp] theorem halted_ir (why : Why) (cause : BitVec 8) : (s.halted why cause).ir = s.ir := rfl
@[simp] theorem halted_mem (why : Why) (cause : BitVec 8) : (s.halted why cause).mem = s.mem := rfl
@[simp] theorem halted_inq (why : Why) (cause : BitVec 8) : (s.halted why cause).inq = s.inq := rfl
@[simp] theorem halted_outq (why : Why) (cause : BitVec 8) : (s.halted why cause).outq = s.outq := rfl
@[simp] theorem halted_status (why : Why) (cause : BitVec 8) : (s.halted why cause).status = statusWord .stopped why cause := rfl
@[simp] theorem halted_faultPc (why : Why) (cause : BitVec 8) : (s.halted why cause).faultPc = s.faultPc := rfl
@[simp] theorem halted_faultOpc (why : Why) (cause : BitVec 8) : (s.halted why cause).faultOpc = s.faultOpc := rfl
@[simp] theorem halted_faultTick (why : Why) (cause : BitVec 8) : (s.halted why cause).faultTick = s.faultTick := rfl
@[simp] theorem halted_faultInfo (why : Why) (cause : BitVec 8) : (s.halted why cause).faultInfo = s.faultInfo := rfl
@[simp] theorem halted_phase (why : Why) (cause : BitVec 8) : (s.halted why cause).phase = .stopped := rfl
@[simp] theorem halted_upc (why : Why) (cause : BitVec 8) : (s.halted why cause).upc = 0 := rfl
@[simp] theorem halted_dbg (why : Why) (cause : BitVec 8) : (s.halted why cause).dbg = s.dbg := rfl
@[simp] theorem halted_memorySize (why : Why) (cause : BitVec 8) : (s.halted why cause).memorySize = s.memorySize := rfl
@[simp] theorem halted_ceiling (why : Why) (cause : BitVec 8) : (s.halted why cause).ceiling = s.ceiling := rfl
@[simp] theorem halted_programLength (why : Why) (cause : BitVec 8) : (s.halted why cause).programLength = s.programLength := rfl

/-! ### takeFault -/

@[simp] theorem takeFault_stack (c : FaultCause) (info : Word) (opc : OpcodeNumber) : (s.takeFault c info opc).stack = s.stack := rfl
@[simp] theorem takeFault_head (c : FaultCause) (info : Word) (opc : OpcodeNumber) : (s.takeFault c info opc).head = s.head := rfl
@[simp] theorem takeFault_pc (c : FaultCause) (info : Word) (opc : OpcodeNumber) : (s.takeFault c info opc).pc = s.pc := rfl
@[simp] theorem takeFault_ticks (c : FaultCause) (info : Word) (opc : OpcodeNumber) : (s.takeFault c info opc).ticks = s.ticks := rfl
@[simp] theorem takeFault_retired (c : FaultCause) (info : Word) (opc : OpcodeNumber) : (s.takeFault c info opc).retired = s.retired := rfl
@[simp] theorem takeFault_mar (c : FaultCause) (info : Word) (opc : OpcodeNumber) : (s.takeFault c info opc).mar = s.mar := rfl
@[simp] theorem takeFault_acc (c : FaultCause) (info : Word) (opc : OpcodeNumber) : (s.takeFault c info opc).acc = s.acc := rfl
@[simp] theorem takeFault_ir (c : FaultCause) (info : Word) (opc : OpcodeNumber) : (s.takeFault c info opc).ir = s.ir := rfl
@[simp] theorem takeFault_mem (c : FaultCause) (info : Word) (opc : OpcodeNumber) : (s.takeFault c info opc).mem = s.mem := rfl
@[simp] theorem takeFault_inq (c : FaultCause) (info : Word) (opc : OpcodeNumber) : (s.takeFault c info opc).inq = s.inq := rfl
@[simp] theorem takeFault_outq (c : FaultCause) (info : Word) (opc : OpcodeNumber) : (s.takeFault c info opc).outq = s.outq := rfl
@[simp] theorem takeFault_status (c : FaultCause) (info : Word) (opc : OpcodeNumber) : (s.takeFault c info opc).status = statusWord .stopped .fault c.code := rfl
@[simp] theorem takeFault_faultPc (c : FaultCause) (info : Word) (opc : OpcodeNumber) : (s.takeFault c info opc).faultPc = s.pc := rfl
@[simp] theorem takeFault_faultOpc (c : FaultCause) (info : Word) (opc : OpcodeNumber) : (s.takeFault c info opc).faultOpc = opc := rfl
@[simp] theorem takeFault_faultTick (c : FaultCause) (info : Word) (opc : OpcodeNumber) : (s.takeFault c info opc).faultTick = BitVec.ofNat 64 s.ticks := rfl
@[simp] theorem takeFault_faultInfo (c : FaultCause) (info : Word) (opc : OpcodeNumber) : (s.takeFault c info opc).faultInfo = info := rfl
@[simp] theorem takeFault_phase (c : FaultCause) (info : Word) (opc : OpcodeNumber) : (s.takeFault c info opc).phase = .stopped := rfl
@[simp] theorem takeFault_upc (c : FaultCause) (info : Word) (opc : OpcodeNumber) : (s.takeFault c info opc).upc = 0 := rfl
@[simp] theorem takeFault_dbg (c : FaultCause) (info : Word) (opc : OpcodeNumber) : (s.takeFault c info opc).dbg = s.dbg := rfl
@[simp] theorem takeFault_memorySize (c : FaultCause) (info : Word) (opc : OpcodeNumber) : (s.takeFault c info opc).memorySize = s.memorySize := rfl
@[simp] theorem takeFault_ceiling (c : FaultCause) (info : Word) (opc : OpcodeNumber) : (s.takeFault c info opc).ceiling = s.ceiling := rfl
@[simp] theorem takeFault_programLength (c : FaultCause) (info : Word) (opc : OpcodeNumber) : (s.takeFault c info opc).programLength = s.programLength := rfl

/-! ### Slots -/

@[simp] theorem slot_eq (i : Nat) : s.slot i = Cells.read s.stack i := rfl

end Sys2Proof.Machine
end

