-- ==== Sys2Proof/Laws/Micro.lean ====
section
/-! SUPPORT. What each primitive of a micro-step does: one equation per case, and for each primitive one lemma that
says everything it can do when it completes and one for when it stops. Then relations that every primitive respects,
carried through whole micro-step sequences. -/

namespace Sys2Proof.Machine

variable {α β : Type} {s t : State}

/-! ## Sequencing -/

theorem andThen_ok {m : Micro α} {f : α → Micro β} {a : α} (h : m s = .ok a t) : andThen m f s = f a t := by
  simp only [andThen, h]

theorem andThen_error {m : Micro α} {f : α → Micro β} {e : Stop} (h : m s = .error e t) :
    andThen m f s = .error e t := by simp only [andThen, h]

/-- A sequence completes when both parts do. -/
theorem andThen_eq_ok {m : Micro α} {f : α → Micro β} {b : β} :
    andThen m f s = .ok b t ↔ ∃ a u, m s = .ok a u ∧ f a u = .ok b t := by
  unfold andThen
  cases m s with
  | ok a u => exact ⟨fun h => ⟨a, u, rfl, h⟩, by rintro ⟨_, _, h, h'⟩; cases h; exact h'⟩
  | error e u => exact ⟨nofun, by rintro ⟨_, _, h, _⟩; cases h⟩

/-- A sequence stops when its first part does, or its second part after it. -/
theorem andThen_eq_error {m : Micro α} {f : α → Micro β} {e : Stop} :
    andThen m f s = .error e t ↔ m s = .error e t ∨ ∃ a u, m s = .ok a u ∧ f a u = .error e t := by
  unfold andThen
  cases m s with
  | ok a u => exact ⟨fun h => .inr ⟨a, u, rfl, h⟩, by rintro (h | ⟨_, _, h, h'⟩); cases h; cases h; exact h'⟩
  | error e' u => exact ⟨fun h => .inl (by cases h; rfl), by rintro (h | ⟨_, _, h, _⟩); cases h; rfl; cases h⟩

theorem runTicks_nil (s : State) : runTicks [] s = .ok () s := rfl

theorem runTicks_ok {m : Micro Unit} {rest : List (Micro Unit)} {u : Unit} (h : m s = .ok u t) :
    runTicks (m :: rest) s = runTicks rest t.tick := by simp [runTicks, h]

theorem runTicks_error {m : Micro Unit} {rest : List (Micro Unit)} {e : Stop} (h : m s = .error e t) :
    runTicks (m :: rest) s = .error e t := by simp [runTicks, h]

/-! ## The operand stack -/

theorem top_ok {k : Fin 4} (h : k.val < s.head) : top k s = .ok (Cells.read s.stack (s.head - 1 - k.val)) s := by
  simp [top, Nat.not_le.2 h]

theorem top_underflow {k : Fin 4} (h : s.head ≤ k.val) :
    top k s = .error (.fault .stackUnderflow (BitVec.ofNat 32 k.val)) s := by simp [top, h]

/-- All that `top` does when it answers. -/
theorem top_eq_ok {k : Fin 4} {v : Word} (h : top k s = .ok v t) :
    t = s ∧ k.val < s.head ∧ v = Cells.read s.stack (s.head - 1 - k.val) := by
  unfold top at h; split at h
  · cases h
  · cases h; exact ⟨rfl, by omega, rfl⟩

/-- All that `top` does when it stops. -/
theorem top_eq_error {k : Fin 4} {e : Stop} (h : top k s = .error e t) :
    t = s ∧ s.head ≤ k.val ∧ e = .fault .stackUnderflow (BitVec.ofNat 32 k.val) := by
  unfold top at h; split at h
  · cases h; exact ⟨rfl, by omega, rfl⟩
  · cases h

theorem setTop_ok {k : Fin 4} {v : Word} (h : k.val < s.head) :
    setTop k v s = .ok () (s.setSlot (s.head - 1 - k.val) v) := by simp [setTop, Nat.not_le.2 h]

theorem setTop_underflow {k : Fin 4} {v : Word} (h : s.head ≤ k.val) :
    setTop k v s = .error (.fault .stackUnderflow (BitVec.ofNat 32 k.val)) s := by simp [setTop, h]

/-- All that `setTop` does when it answers. -/
theorem setTop_eq_ok {k : Fin 4} {v : Word} {u : Unit} (h : setTop k v s = .ok u t) :
    k.val < s.head ∧ t = s.setSlot (s.head - 1 - k.val) v := by
  unfold setTop at h; split at h
  · cases h
  · cases h; exact ⟨by omega, rfl⟩

/-- All that `setTop` does when it stops. -/
theorem setTop_eq_error {k : Fin 4} {v : Word} {e : Stop} (h : setTop k v s = .error e t) :
    t = s ∧ s.head ≤ k.val ∧ e = .fault .stackUnderflow (BitVec.ofNat 32 k.val) := by
  unfold setTop at h; split at h
  · cases h; exact ⟨rfl, by omega, rfl⟩
  · cases h

theorem adjust_ok {d : HeadDelta} (h0 : 0 ≤ (s.head : Int) + d.toInt) (h1 : (s.head : Int) + d.toInt < 256) :
    adjust d s = .ok () (s.setHead ((s.head : Int) + d.toInt).toNat) := by
  simp [adjust, not_lt.2 h0, not_le.2 h1]

theorem adjust_underflow {d : HeadDelta} (h : (s.head : Int) + d.toInt < 0) :
    adjust d s = .error (.fault .stackUnderflow (BitVec.ofInt 32 d.toInt)) s := by simp [adjust, h]

theorem adjust_overflow {d : HeadDelta} (h : 256 ≤ (s.head : Int) + d.toInt) :
    adjust d s = .error (.fault .stackOverflow (BitVec.ofInt 32 d.toInt)) s := by
  have h0 : ¬ ((s.head : Int) + d.toInt < 0) := by omega
  simp [adjust, h0, h]

/-- All that `adjust` does when it answers: the head stays a head. -/
theorem adjust_eq_ok {d : HeadDelta} {u : Unit} (h : adjust d s = .ok u t) :
    0 ≤ (s.head : Int) + d.toInt ∧ (s.head : Int) + d.toInt < 256 ∧
      t = s.setHead ((s.head : Int) + d.toInt).toNat := by
  unfold adjust at h; split at h
  · cases h
  · split at h
    · cases h
    · cases h
      have h2 : ¬ (256 : Int) ≤ (s.head : Int) + d.toInt := ‹_›
      exact ⟨by omega, by omega, rfl⟩

/-- All that `adjust` does when it stops. -/
theorem adjust_eq_error {d : HeadDelta} {e : Stop} (h : adjust d s = .error e t) :
    t = s ∧ ((s.head : Int) + d.toInt < 0 ∧ e = .fault .stackUnderflow (BitVec.ofInt 32 d.toInt) ∨
      256 ≤ (s.head : Int) + d.toInt ∧ e = .fault .stackOverflow (BitVec.ofInt 32 d.toInt)) := by
  unfold adjust at h; split at h
  · cases h; exact ⟨rfl, .inl ⟨‹_›, rfl⟩⟩
  · split at h
    · cases h; exact ⟨rfl, .inr ⟨‹_›, rfl⟩⟩
    · cases h

theorem adjust_dec1_ok (h : 1 ≤ s.head) (h' : s.head ≤ 256) : adjust .dec1 s = .ok () (s.setHead (s.head - 1)) := by
  rw [adjust_ok (by simp only [HeadDelta.toInt]; omega) (by simp only [HeadDelta.toInt]; omega)]
  congr 2; simp only [HeadDelta.toInt]; omega

theorem adjust_dec2_ok (h : 2 ≤ s.head) (h' : s.head ≤ 257) : adjust .dec2 s = .ok () (s.setHead (s.head - 2)) := by
  rw [adjust_ok (by simp only [HeadDelta.toInt]; omega) (by simp only [HeadDelta.toInt]; omega)]
  congr 2; simp only [HeadDelta.toInt]; omega

theorem adjust_dec3_ok (h : 3 ≤ s.head) (h' : s.head ≤ 258) : adjust .dec3 s = .ok () (s.setHead (s.head - 3)) := by
  rw [adjust_ok (by simp only [HeadDelta.toInt]; omega) (by simp only [HeadDelta.toInt]; omega)]
  congr 2; simp only [HeadDelta.toInt]; omega

theorem push_ok {v : Word} (h : s.head < 255) :
    push v s = .ok () ((s.setSlot s.head v).setHead (s.head + 1)) := by
  unfold push
  rw [andThen_ok (show storeAtHead v s = .ok () (s.setSlot s.head v) from rfl),
    adjust_ok (by simp only [HeadDelta.toInt, setSlot_head]; omega) (by simp only [HeadDelta.toInt, setSlot_head]; omega)]
  congr 2

theorem push_overflow {v : Word} (h : 255 ≤ s.head) :
    push v s = .error (.fault .stackOverflow 1) (s.setSlot s.head v) := by
  unfold push
  rw [andThen_ok (show storeAtHead v s = .ok () (s.setSlot s.head v) from rfl),
    adjust_overflow (by simp only [HeadDelta.toInt, setSlot_head]; omega)]
  rfl

/-- All that `push` does when it answers. -/
theorem push_eq_ok {v : Word} {u : Unit} (h : push v s = .ok u t) :
    s.head < 255 ∧ t = (s.setSlot s.head v).setHead (s.head + 1) := by
  by_cases hh : s.head < 255
  · rw [push_ok hh] at h; cases h; exact ⟨hh, rfl⟩
  · rw [push_overflow (by omega)] at h; cases h

/-- All that `push` does when it stops: the slot at `head` is written, though no operand is added. -/
theorem push_eq_error {v : Word} {e : Stop} (h : push v s = .error e t) :
    255 ≤ s.head ∧ e = .fault .stackOverflow 1 ∧ t = s.setSlot s.head v := by
  by_cases hh : s.head < 255
  · rw [push_ok hh] at h; cases h
  · rw [push_overflow (by omega)] at h; cases h; exact ⟨by omega, rfl, rfl⟩

/-! ## The latch, the data accesses and the program counter -/

theorem latch_ok {a : Word} (h0 : 0 ≤ a.toInt) (h1 : a.toInt ≤ s.memorySize) : latch a s = .ok () (s.setMar a) := by
  have : ¬ (a.toInt < 0 ∨ (s.memorySize : Int) < a.toInt) := by omega
  simp [latch, this]

theorem latch_range {a : Word} (h : a.toInt < 0 ∨ (s.memorySize : Int) < a.toInt) :
    latch a s = .error (.fault .addressOutOfRange a) s := by simp [latch, h]

/-- All that `latch` does when it answers. -/
theorem latch_eq_ok {a : Word} {u : Unit} (h : latch a s = .ok u t) :
    0 ≤ a.toInt ∧ a.toInt ≤ s.memorySize ∧ t = s.setMar a := by
  unfold latch at h; split at h
  · cases h
  · cases h; exact ⟨by omega, by omega, rfl⟩

/-- All that `latch` does when it stops. -/
theorem latch_eq_error {a : Word} {e : Stop} (h : latch a s = .error e t) :
    t = s ∧ (a.toInt < 0 ∨ (s.memorySize : Int) < a.toInt) ∧ e = .fault .addressOutOfRange a := by
  unfold latch at h; split at h
  · cases h; exact ⟨rfl, ‹_›, rfl⟩
  · cases h

/-- A latched address as a cell number. -/
theorem marCell_of_nonneg (h : 0 ≤ s.mar.toInt) : (s.marCell : Int) = s.mar.toInt := by
  unfold State.marCell
  have := BitVec.toInt_eq_toNat_cond s.mar
  split at this <;> omega

theorem memRead_data (h2 : 2 ≤ s.marCell) (h : s.marCell < 128) : memRead s = .ok (s.mem.word s.marCell) s := by
  have h1 : s.marCell ≠ 1 := by omega
  have h0 : s.marCell ≠ 0 := by omega
  simp [memRead, h1, h0, h]

theorem memRead_input {c : Word} {rest : List Word} (h : s.marCell = 0) (hq : s.inq = c :: rest) :
    memRead s = .ok c ((s.setInq rest).setMem (s.mem.setWord 0 c)) := by simp [memRead, h, hq]

theorem memRead_exhausted (h : s.marCell = 0) (hq : s.inq = []) : memRead s = .error .normal s := by
  simp [memRead, h, hq, exhausted]

theorem memRead_port (h : s.marCell = 1) : memRead s = .error (.fault .portDirection s.mar) s := by simp [memRead, h]

theorem memRead_program (h : 128 ≤ s.marCell) : memRead s = .error (.fault .programRegionAccess s.mar) s := by
  have h1 : s.marCell ≠ 1 := by omega
  have h0 : s.marCell ≠ 0 := by omega
  have h2 : ¬ s.marCell < 128 := by omega
  simp [memRead, h1, h0, h2]

/-- All that `memRead` does when it answers. -/
theorem memRead_eq_ok {v : Word} (h : memRead s = .ok v t) :
    (2 ≤ s.marCell ∧ s.marCell < 128 ∧ v = s.mem.word s.marCell ∧ t = s) ∨
      (s.marCell = 0 ∧ ∃ rest, s.inq = v :: rest ∧ t = (s.setInq rest).setMem (s.mem.setWord 0 v)) := by
  rcases Nat.lt_or_ge s.marCell 128 with h128 | h128
  · by_cases h0 : s.marCell = 0
    · cases hq : s.inq with
      | nil => rw [memRead_exhausted h0 hq] at h; cases h
      | cons c rest => rw [memRead_input h0 hq] at h; cases h; exact .inr ⟨h0, rest, rfl, rfl⟩
    · by_cases h1 : s.marCell = 1
      · rw [memRead_port h1] at h; cases h
      · rw [memRead_data (by omega) h128] at h; cases h; exact .inl ⟨by omega, h128, rfl, rfl⟩
  · rw [memRead_program h128] at h; cases h

/-- All that `memRead` does when it stops. -/
theorem memRead_eq_error {e : Stop} (h : memRead s = .error e t) :
    t = s ∧ ((s.marCell = 0 ∧ s.inq = [] ∧ e = .normal) ∨
      (s.marCell = 1 ∧ e = .fault .portDirection s.mar) ∨
      (128 ≤ s.marCell ∧ e = .fault .programRegionAccess s.mar)) := by
  rcases Nat.lt_or_ge s.marCell 128 with h128 | h128
  · by_cases h0 : s.marCell = 0
    · cases hq : s.inq with
      | nil => rw [memRead_exhausted h0 hq] at h; cases h; exact ⟨rfl, .inl ⟨h0, rfl, rfl⟩⟩
      | cons c rest => rw [memRead_input h0 hq] at h; cases h
    · by_cases h1 : s.marCell = 1
      · rw [memRead_port h1] at h; cases h; exact ⟨rfl, .inr (.inl ⟨h1, rfl⟩)⟩
      · rw [memRead_data (by omega) h128] at h; cases h
  · rw [memRead_program h128] at h; cases h; exact ⟨rfl, .inr (.inr ⟨h128, rfl⟩)⟩

theorem memWrite_data {v : Word} (h2 : 2 ≤ s.marCell) (h : s.marCell < 128) :
    memWrite v s = .ok () (s.setMem (s.mem.setWord s.marCell v)) := by
  have h1 : s.marCell ≠ 1 := by omega
  have h0 : s.marCell ≠ 0 := by omega
  simp [memWrite, h1, h0, h]

theorem memWrite_output {v : Word} (h : s.marCell = 1) :
    memWrite v s = .ok () ((s.setMem (s.mem.setWord 1 v)).emit (token v)) := by simp [memWrite, h]

theorem memWrite_port {v : Word} (h : s.marCell = 0) : memWrite v s = .error (.fault .portDirection s.mar) s := by
  simp [memWrite, h]

theorem memWrite_program {v : Word} (h : 128 ≤ s.marCell) :
    memWrite v s = .error (.fault .programRegionAccess s.mar) s := by
  have h1 : s.marCell ≠ 1 := by omega
  have h0 : s.marCell ≠ 0 := by omega
  have h2 : ¬ s.marCell < 128 := by omega
  simp [memWrite, h1, h0, h2]

/-- All that `memWrite` does when it answers. -/
theorem memWrite_eq_ok {v : Word} {u : Unit} (h : memWrite v s = .ok u t) :
    (2 ≤ s.marCell ∧ s.marCell < 128 ∧ t = s.setMem (s.mem.setWord s.marCell v)) ∨
      (s.marCell = 1 ∧ t = (s.setMem (s.mem.setWord 1 v)).emit (token v)) := by
  rcases Nat.lt_or_ge s.marCell 128 with h128 | h128
  · by_cases h0 : s.marCell = 0
    · rw [memWrite_port h0] at h; cases h
    · by_cases h1 : s.marCell = 1
      · rw [memWrite_output h1] at h; cases h; exact .inr ⟨h1, rfl⟩
      · rw [memWrite_data (by omega) h128] at h; cases h; exact .inl ⟨by omega, h128, rfl⟩
  · rw [memWrite_program h128] at h; cases h

/-- All that `memWrite` does when it stops. -/
theorem memWrite_eq_error {v : Word} {e : Stop} (h : memWrite v s = .error e t) :
    t = s ∧ ((s.marCell = 0 ∧ e = .fault .portDirection s.mar) ∨
      (128 ≤ s.marCell ∧ e = .fault .programRegionAccess s.mar)) := by
  rcases Nat.lt_or_ge s.marCell 128 with h128 | h128
  · by_cases h0 : s.marCell = 0
    · rw [memWrite_port h0] at h; cases h; exact ⟨rfl, .inl ⟨h0, rfl⟩⟩
    · by_cases h1 : s.marCell = 1
      · rw [memWrite_output h1] at h; cases h
      · rw [memWrite_data (by omega) h128] at h; cases h
  · rw [memWrite_program h128] at h; cases h; exact ⟨rfl, .inr ⟨h128, rfl⟩⟩

theorem advance_apply (s : State) : advance s = .ok () (s.setPc (s.pc + 1)) := rfl

theorem jump_apply (target : Word) (s : State) : jump target s = .ok () (s.setPc target) := rfl

/-! ## The ALU -/

theorem checkW_ok {v : Int} (h : fitsWord v) : checkW v = .ok (BitVec.ofInt 32 v) := if_pos h

theorem checkW_overflow {v : Int} (h : ¬ fitsWord v) : checkW v = .error (.fault .arithmeticOverflow 0) := if_neg h

/-- The value of a word always fits a word. -/
theorem fitsWord_toInt (w : Word) : fitsWord w.toInt := by
  have h1 := BitVec.le_toInt w
  have h2 := BitVec.toInt_lt (x := w)
  norm_num at h1 h2
  exact ⟨by show (-2147483648 : Int) ≤ _; omega, by show _ ≤ (2147483647 : Int); omega⟩

theorem toInt_ofInt_of_fits {v : Int} (h : fitsWord v) : (BitVec.ofInt 32 v).toInt = v := by
  have h1 : (-2147483648 : Int) ≤ v := h.1
  have h2 : v ≤ (2147483647 : Int) := h.2
  rw [BitVec.toInt_ofInt]
  apply Int.bmod_eq_of_le <;> norm_num <;> omega

theorem checkW_toInt (w : Word) : checkW w.toInt = .ok w := by
  rw [checkW_ok (fitsWord_toInt w), BitVec.ofInt_toInt]

theorem latchAcc_ok {r : Except Stop Int} {v : Int} {w : Word} (hr : r = .ok v) (hw : checkW v = .ok w) :
    latchAcc r s = .ok () (s.setAcc w) := by subst hr; simp [latchAcc, hw]

theorem latchAcc_fault {r : Except Stop Int} {e : Stop} (hr : r = .error e) : latchAcc r s = .error e s := by
  subst hr; rfl

theorem latchAcc_overflow {r : Except Stop Int} {v : Int} {e : Stop} (hr : r = .ok v) (hw : checkW v = .error e) :
    latchAcc r s = .error e s := by subst hr; simp [latchAcc, hw]

/-- All that `latchAcc` does when it answers. -/
theorem latchAcc_eq_ok {r : Except Stop Int} {u : Unit} (h : latchAcc r s = .ok u t) :
    ∃ v w, r = .ok v ∧ checkW v = .ok w ∧ t = s.setAcc w := by
  unfold latchAcc at h
  cases r with
  | error e => cases h
  | ok v =>
    cases hw : checkW v with
    | error e => simp [hw] at h
    | ok w => simp only [hw] at h; cases h; exact ⟨v, w, rfl, hw, rfl⟩

/-- All that `latchAcc` does when it stops. -/
theorem latchAcc_eq_error {r : Except Stop Int} {e : Stop} (h : latchAcc r s = .error e t) :
    t = s ∧ (r = .error e ∨ ∃ v, r = .ok v ∧ checkW v = .error e) := by
  unfold latchAcc at h
  cases r with
  | error e' => cases h; exact ⟨rfl, .inl rfl⟩
  | ok v =>
    cases hw : checkW v with
    | error e' => simp only [hw] at h; cases h; exact ⟨rfl, .inr ⟨v, rfl, hw⟩⟩
    | ok w => simp [hw] at h

theorem readAcc_apply (s : State) : readAcc s = .ok s.acc s := rfl

/-! ## Relations that hold from the start to the end of a piece of a micro-step

`Respects R m` says that `m` relates the state it starts in to the state it ends or stops in. For a relation that is
reflexive and transitive it passes through sequencing, ticks and whole micro-step sequences, so an invariant or a frame
is proved for each primitive once. -/

/-- `m` ends or stops in a state that `R` relates to the one it started in. -/
def Respects (R : State → State → Prop) (m : Micro α) : Prop :=
  ∀ s, (∀ a t, m s = .ok a t → R s t) ∧ (∀ e t, m s = .error e t → R s t)

theorem Respects.andThen {R : State → State → Prop} (htrans : ∀ a b c, R a b → R b c → R a c) {m : Micro α}
    {f : α → Micro β} (hm : Respects R m) (hf : ∀ a, Respects R (f a)) : Respects R (andThen m f) := by
  intro s
  constructor
  · intro b t h
    obtain ⟨a, u, h1, h2⟩ := andThen_eq_ok.1 h
    exact htrans _ _ _ ((hm s).1 a u h1) ((hf a u).1 b t h2)
  · intro e t h
    rcases andThen_eq_error.1 h with h1 | ⟨a, u, h1, h2⟩
    · exact (hm s).2 e t h1
    · exact htrans _ _ _ ((hm s).1 a u h1) ((hf a u).2 e t h2)

theorem Respects.runTicks {R : State → State → Prop} (hrefl : ∀ a, R a a) (htrans : ∀ a b c, R a b → R b c → R a c)
    (htick : ∀ a, R a a.tick) : ∀ {steps : List (Micro Unit)}, (∀ m ∈ steps, Respects R m) →
      Respects R (Machine.runTicks steps)
  | [], _ => fun s => ⟨by intro a t h; cases h; exact hrefl s, by intro e t h; cases h⟩
  | m :: rest, hall => by
    have hm := hall m (List.mem_cons_self ..)
    have hrest := Respects.runTicks hrefl htrans htick fun k hk => hall k (List.mem_cons_of_mem _ hk)
    intro s
    cases h : m s with
    | ok a u =>
      have h1 := htrans _ _ _ ((hm s).1 a u h) (htick u)
      refine ⟨fun b t hb => ?_, fun e t he => ?_⟩
      · rw [runTicks_ok h] at hb; exact htrans _ _ _ h1 ((hrest u.tick).1 b t hb)
      · rw [runTicks_ok h] at he; exact htrans _ _ _ h1 ((hrest u.tick).2 e t he)
    | error e u =>
      refine ⟨fun b t hb => ?_, fun e' t he => ?_⟩
      · rw [runTicks_error h] at hb; cases hb
      · rw [runTicks_error h] at he; cases he; exact (hm s).2 e u h

/-! Each primitive respects a relation that its own updates do. -/

theorem respects_top {R : State → State → Prop} (hrefl : ∀ a, R a a) (k : Fin 4) : Respects R (top k) := fun s =>
  ⟨fun _ _ h => (top_eq_ok h).1 ▸ hrefl s, fun _ _ h => (top_eq_error h).1 ▸ hrefl s⟩

theorem respects_readAcc {R : State → State → Prop} (hrefl : ∀ a, R a a) : Respects R readAcc := fun s =>
  ⟨fun _ _ h => by cases h; exact hrefl s, fun _ _ h => by cases h⟩

theorem respects_setTop {R : State → State → Prop} (hrefl : ∀ a, R a a) (k : Fin 4) (v : Word)
    (hslot : ∀ s, k.val < s.head → R s (s.setSlot (s.head - 1 - k.val) v)) : Respects R (setTop k v) := fun s =>
  ⟨fun _ _ h => by obtain ⟨h1, rfl⟩ := setTop_eq_ok h; exact hslot s h1,
   fun _ _ h => (setTop_eq_error h).1 ▸ hrefl s⟩

theorem respects_adjust {R : State → State → Prop} (hrefl : ∀ a, R a a) (d : HeadDelta)
    (hhead : ∀ s n, n < 256 → R s (s.setHead n)) : Respects R (adjust d) := fun s =>
  ⟨fun _ _ h => by obtain ⟨h1, h2, rfl⟩ := adjust_eq_ok h; exact hhead s _ (by omega),
   fun _ _ h => (adjust_eq_error h).1 ▸ hrefl s⟩

theorem respects_push {R : State → State → Prop} (v : Word)
    (hpush : ∀ s, s.head < 255 → R s ((s.setSlot s.head v).setHead (s.head + 1)))
    (hover : ∀ s, 255 ≤ s.head → R s (s.setSlot s.head v)) : Respects R (push v) := fun s =>
  ⟨fun _ _ h => by obtain ⟨h1, rfl⟩ := push_eq_ok h; exact hpush s h1,
   fun _ _ h => by obtain ⟨h1, -, rfl⟩ := push_eq_error h; exact hover s h1⟩

theorem respects_latch {R : State → State → Prop} (hrefl : ∀ a, R a a) (a : Word)
    (hmar : ∀ s, R s (s.setMar a)) : Respects R (latch a) := fun s =>
  ⟨fun _ _ h => by obtain ⟨-, -, rfl⟩ := latch_eq_ok h; exact hmar s,
   fun _ _ h => (latch_eq_error h).1 ▸ hrefl s⟩

theorem respects_latchAcc {R : State → State → Prop} (hrefl : ∀ a, R a a) (r : Except Stop Int)
    (hacc : ∀ s w, R s (s.setAcc w)) : Respects R (latchAcc r) := fun s =>
  ⟨fun _ _ h => by obtain ⟨_, w, -, -, rfl⟩ := latchAcc_eq_ok h; exact hacc s w,
   fun _ _ h => (latchAcc_eq_error h).1 ▸ hrefl s⟩

theorem respects_memRead {R : State → State → Prop} (hrefl : ∀ a, R a a)
    (hin : ∀ s c rest, s.inq = c :: rest → R s ((s.setInq rest).setMem (s.mem.setWord 0 c))) :
    Respects R memRead := fun s =>
  ⟨fun _ _ h => by
      rcases memRead_eq_ok h with ⟨-, -, -, rfl⟩ | ⟨-, rest, hq, rfl⟩
      · exact hrefl _
      · exact hin s _ rest hq,
   fun _ _ h => (memRead_eq_error h).1 ▸ hrefl s⟩

theorem respects_memWrite {R : State → State → Prop} (hrefl : ∀ a, R a a) (v : Word)
    (hdata : ∀ s a, 2 ≤ a → a < 128 → R s (s.setMem (s.mem.setWord a v)))
    (hout : ∀ s, R s ((s.setMem (s.mem.setWord 1 v)).emit (token v))) : Respects R (memWrite v) := fun s =>
  ⟨fun _ _ h => by
      rcases memWrite_eq_ok h with ⟨h1, h2, rfl⟩ | ⟨-, rfl⟩
      · exact hdata s _ h1 h2
      · exact hout s,
   fun _ _ h => (memWrite_eq_error h).1 ▸ hrefl s⟩

theorem respects_advance {R : State → State → Prop} (hpc : ∀ s p, R s (s.setPc p)) : Respects R advance := fun s =>
  ⟨fun _ _ h => by cases h; exact hpc s _, fun _ _ h => by cases h⟩

theorem respects_jump {R : State → State → Prop} (target : Word) (hpc : ∀ s p, R s (s.setPc p)) :
    Respects R (jump target) := fun s =>
  ⟨fun _ _ h => by cases h; exact hpc s _, fun _ _ h => by cases h⟩

end Sys2Proof.Machine
end

