-- ==== Sys2Proof/Laws/Alu.lean ====
section
/-! SUPPORT. The ALU: the clipped power, and the binary and unary sequences as whole macro-steps. -/

namespace Sys2Proof.Machine

theorem latchAcc_fits {s : State} {r : Except Stop Int} {v : Int} (hr : r = .ok v) (h : fitsWord v) :
    latchAcc r s = .ok () (s.setAcc (BitVec.ofInt 32 v)) := latchAcc_ok hr (checkW_ok h)

theorem latchAcc_not_fits {s : State} {r : Except Stop Int} {v : Int} (hr : r = .ok v) (h : ¬ fitsWord v) :
    latchAcc r s = .error (.fault .arithmeticOverflow 0) s := latchAcc_overflow hr (checkW_overflow h)

/-! ## The clipped exponent -/

theorem clipExponent_of_lt {n : Nat} (h : n < 32) : clipExponent n = n := if_pos h

theorem clipExponent_of_ge {n : Nat} (h : 32 ≤ n) : clipExponent n = 32 + n % 2 := if_neg (by omega)

/-- A base of magnitude 2 or more leaves the word range at every exponent of 32 or more. -/
theorem not_fits_pow {a : Int} (ha : 2 ≤ a.natAbs) {n : Nat} (hn : 32 ≤ n) : ¬ fitsWord (a ^ n) := by
  rintro ⟨h1, h2⟩
  have h1' : (-2147483648 : Int) ≤ a ^ n := h1
  have h2' : a ^ n ≤ (2147483647 : Int) := h2
  have h3 : 4294967296 ≤ (a ^ n).natAbs := by
    rw [Int.natAbs_pow]
    calc 4294967296 = 2 ^ 32 := by norm_num
      _ ≤ 2 ^ n := Nat.pow_le_pow_right (by norm_num) hn
      _ ≤ a.natAbs ^ n := Nat.pow_le_pow_left ha n
  generalize a ^ n = x at h1' h2' h3
  omega

/-- Clipping the exponent changes nothing that `checkW` lets through or stops. -/
theorem checkW_pow_clipExponent (a : Int) (n : Nat) : checkW (a ^ clipExponent n) = checkW (a ^ n) := by
  rcases Nat.lt_or_ge n 32 with h | h
  · rw [clipExponent_of_lt h]
  rw [clipExponent_of_ge h]
  rcases Nat.lt_or_ge a.natAbs 2 with ha | ha
  · have : a = -1 ∨ a = 0 ∨ a = 1 := by omega
    rcases this with rfl | rfl | rfl
    · congr 1
      rw [pow_add, ← Nat.mod_add_div n 2, pow_add, pow_mul]
      norm_num
    · rw [zero_pow (by omega), zero_pow (by omega)]
    · simp
  · rw [checkW_overflow (not_fits_pow ha (by omega)), checkW_overflow (not_fits_pow ha h)]

/-! ## The binary and unary sequences (42_arith_logic.md R200, R201) -/

/-- A binary instruction whose ALU result fits completes. -/
theorem binarySequence_completes {f : Word → Word → Except Stop Int} {s : State} {i : Instr} {w : Word} {v : Int}
    (h2 : 2 ≤ s.head) (h : s.head < 256) (hf : f (s.slot (s.head - 2)) (s.slot (s.head - 1)) = .ok v)
    (hw : checkW v = .ok w) :
    runMicrocode i (binarySequence f) s = .next { s with
      ir := some i, ticks := s.ticks + 2, retired := s.retired + 1, pc := s.pc + 1, phase := .check, upc := 0
      head := s.head - 1, acc := w, stack := Cells.write s.stack (s.head - 2) w } := by
  unfold runMicrocode binarySequence
  have e1 : s.head - 1 - 1 = s.head - 2 := by omega
  simp only [slot_eq] at hf
  rw [runTicks_ok (t := (s.issue i).setAcc w) (u := ())]
  · rw [runTicks_ok (u := ()) (t := (((((s.issue i).setAcc w).tick.setHead (s.head - 2)).setSlot (s.head - 2)
      w).setHead (s.head - 1)).setPc (s.pc + 1))]
    · simp [runTicks, State.tick, State.setHead, State.setSlot, State.setPc, State.setAcc, State.issue, State.retire]
    · rw [andThen_ok (adjust_dec2_ok (by simpa using h2) (by simp; omega)), andThen_ok (readAcc_apply _),
        andThen_ok (push_ok (by simp; omega))]
      simp only [advance_apply, setHead_head, tick_head, setAcc_head, issue_head, setHead_acc, tick_acc, setAcc_acc]
      congr 3
      omega
  · rw [andThen_ok (top_ok (by simp; omega)), andThen_ok (top_ok (by simp; omega))]
    simp [e1, hf, latchAcc_ok rfl hw]

/-- A binary instruction whose ALU function faults stops in its first micro-step. -/
theorem binarySequence_aluFault {f : Word → Word → Except Stop Int} {s : State} {i : Instr} {e : Stop}
    (h2 : 2 ≤ s.head)
    (hf : f (s.slot (s.head - 2)) (s.slot (s.head - 1)) = .error e ∨
      ∃ v, f (s.slot (s.head - 2)) (s.slot (s.head - 1)) = .ok v ∧ checkW v = .error e) :
    runMicrocode i (binarySequence f) s = .next ((s.issue i).stop i.opcode.number e) := by
  unfold runMicrocode binarySequence
  have e1 : s.head - 1 - 1 = s.head - 2 := by omega
  simp only [slot_eq] at hf
  rw [runTicks_error (t := s.issue i) (e := e)]
  rw [andThen_ok (top_ok (by simp; omega)), andThen_ok (top_ok (by simp; omega))]
  rcases hf with hf | ⟨v, hf, hv⟩
  · simp [e1, hf, latchAcc_fault rfl]
  · simp [e1, hf, latchAcc_overflow rfl hv]

/-- A binary instruction with fewer than two operands stops in its first micro-step. -/
theorem binarySequence_underflow {f : Word → Word → Except Stop Int} {s : State} {i : Instr} (h : s.head < 2) :
    runMicrocode i (binarySequence f) s =
      .next ((s.issue i).stop i.opcode.number (.fault .stackUnderflow (BitVec.ofNat 32 s.head))) := by
  unfold runMicrocode binarySequence
  rw [runTicks_error (t := s.issue i) (e := .fault .stackUnderflow (BitVec.ofNat 32 s.head))]
  rcases Nat.lt_or_ge s.head 1 with h0 | h0
  · rw [andThen_error (top_underflow (by simp; omega))]
    have : s.head = 0 := by omega
    simp [this]
  · rw [andThen_ok (top_ok (by simp; omega)), andThen_error (top_underflow (by simp; omega))]
    have : s.head = 1 := by omega
    simp [this]

/-- A unary instruction whose ALU result fits completes. -/
theorem unarySequence_completes {g : Word → Except Stop Int} {s : State} {i : Instr} {w : Word} {v : Int}
    (h1 : 1 ≤ s.head) (h : s.head < 256) (hg : g (s.slot (s.head - 1)) = .ok v) (hw : checkW v = .ok w) :
    runMicrocode i (unarySequence g) s = .next { s with
      ir := some i, ticks := s.ticks + 2, retired := s.retired + 1, pc := s.pc + 1, phase := .check, upc := 0
      acc := w, stack := Cells.write s.stack (s.head - 1) w } := by
  unfold runMicrocode unarySequence
  simp only [slot_eq] at hg
  have e1 : s.head - 1 + 1 = s.head := by omega
  rw [runTicks_ok (t := (s.issue i).setAcc w) (u := ())]
  · rw [runTicks_ok (u := ()) (t := (((((s.issue i).setAcc w).tick.setHead (s.head - 1)).setSlot (s.head - 1)
      w).setHead s.head).setPc (s.pc + 1))]
    · simp [runTicks, State.tick, State.setHead, State.setSlot, State.setPc, State.setAcc, State.issue, State.retire]
    · rw [andThen_ok (adjust_dec1_ok (by simpa using h1) (by simp; omega)), andThen_ok (readAcc_apply _),
        andThen_ok (push_ok (by simp; omega))]
      simp only [advance_apply, setHead_head, tick_head, setAcc_head, issue_head, setHead_acc, tick_acc, setAcc_acc, e1]
      rfl
  · rw [andThen_ok (top_ok (by simp; omega))]
    simp [hg, latchAcc_ok rfl hw]

/-- A unary instruction whose ALU result does not fit stops in its first micro-step. -/
theorem unarySequence_aluFault {g : Word → Except Stop Int} {s : State} {i : Instr} {e : Stop} (h1 : 1 ≤ s.head)
    (hg : g (s.slot (s.head - 1)) = .error e ∨ ∃ v, g (s.slot (s.head - 1)) = .ok v ∧ checkW v = .error e) :
    runMicrocode i (unarySequence g) s = .next ((s.issue i).stop i.opcode.number e) := by
  unfold runMicrocode unarySequence
  simp only [slot_eq] at hg
  rw [runTicks_error (t := s.issue i) (e := e)]
  rw [andThen_ok (top_ok (by simp; omega))]
  rcases hg with hg | ⟨v, hg, hv⟩
  · simp [hg, latchAcc_fault rfl]
  · simp [hg, latchAcc_overflow rfl hv]

/-- A unary instruction on an empty stack stops in its first micro-step. -/
theorem unarySequence_underflow {g : Word → Except Stop Int} {s : State} {i : Instr} (h : s.head = 0) :
    runMicrocode i (unarySequence g) s =
      .next ((s.issue i).stop i.opcode.number (.fault .stackUnderflow 0)) := by
  unfold runMicrocode unarySequence
  rw [runTicks_error (t := s.issue i) (e := .fault .stackUnderflow 0)]
  rw [andThen_error (top_underflow (by simp; omega))]
  rfl

end Sys2Proof.Machine
end

