-- ==== Sys2Proof/Laws/Access.lean ====
section
/-! SUPPORT. The parts of the indirect instructions: a read that `ReadGives` describes, and the pointer's increment. -/

namespace Sys2Proof.Machine

/-- A read of the latched address gives what `ReadGives` says. -/
theorem memRead_gives {s : State} {a v : Word} {mem : Memory} {inq : List Word} (h : ReadGives s a v mem inq)
    (hm : s.mar = a) : memRead s = .ok v ((s.setInq inq).setMem mem) := by
  subst hm
  rcases h with ⟨h2, h3, rfl, rfl, rfl⟩ | ⟨h0, hq, rfl⟩
  · have := marCell_of_nonneg (s := s) (by omega)
    rw [memRead_data (by omega) (by omega)]; rfl
  · exact memRead_input (by simp [State.marCell, h0]) hq

/-- Under the bound on MEMORY_SIZE the increment of a latched pointer never overflows (20_memory.md R88). -/
theorem checkW_increment {s : State} {p : Word} (hl : s.latchable p) (hm : s.memorySize ≤ Config.maxMemorySize) :
    checkW (p.toInt + 1) = .ok (p + 1) := by
  obtain ⟨h1, h2⟩ := hl
  have h3 : s.memorySize ≤ 2147483646 := hm
  have hf : fitsWord (p.toInt + 1) := by
    constructor
    · show (-2147483648 : Int) ≤ _; omega
    · show _ ≤ (2147483647 : Int); omega
  rw [checkW_ok hf]
  congr 1
  apply BitVec.eq_of_toInt_eq
  rw [toInt_ofInt_of_fits hf, BitVec.toInt_add, Int.bmod_eq_of_le] <;> simp <;> omega

end Sys2Proof.Machine
end

