-- ==== Sys2Proof/Laws/Control.lean ====
section
/-! SUPPORT. Whole instructions and the control FSM: what every instruction's micro-steps respect, the three shapes of
`exec`, and the equations of `fetch` and of the step. -/

namespace Sys2Proof.Machine

/-! ## One micro-step -/

theorem runMicrocode_one_ok {i : Instr} {m : Micro Unit} {s t : State} {u : Unit} (h : m (s.issue i) = .ok u t) :
    runMicrocode i [m] s = .next t.tick.retire := by
  simp [runMicrocode, runTicks, h]

theorem runMicrocode_one_error {i : Instr} {m : Micro Unit} {s t : State} {e : Stop}
    (h : m (s.issue i) = .error e t) : runMicrocode i [m] s = .next (t.stop i.opcode.number e) := by
  simp [runMicrocode, runTicks, h]

/-! ## Relations closed under the updates of micro-steps -/

/-- A relation from earlier to later states that every update a micro-step makes respects, but for the program
counter's latch and the tick. -/
structure Closed (R : State → State → Prop) : Prop where
  refl : ∀ s, R s s
  trans : ∀ s t u, R s t → R t u → R s u
  slot : ∀ s i v, i ≤ s.head → R s (s.setSlot i v)
  head : ∀ s n, n < 256 → R s (s.setHead n)
  mar : ∀ s a, R s (s.setMar a)
  acc : ∀ s v, R s (s.setAcc v)
  input : ∀ s c rest, s.inq = c :: rest → R s ((s.setInq rest).setMem (s.mem.setWord 0 c))
  data : ∀ s a v, 2 ≤ a → a < 128 → R s (s.setMem (s.mem.setWord a v))
  output : ∀ s v, R s ((s.setMem (s.mem.setWord 1 v)).emit (token v))

variable {R : State → State → Prop}

namespace Closed

theorem top (h : Closed R) (k : Fin 4) : Respects R (top k) := respects_top h.refl k

theorem readAcc (h : Closed R) : Respects R readAcc := respects_readAcc h.refl

theorem setTop (h : Closed R) (k : Fin 4) (v : Word) : Respects R (setTop k v) :=
  respects_setTop h.refl k v fun s _ => h.slot s _ v (by omega)

theorem adjust (h : Closed R) (d : HeadDelta) : Respects R (adjust d) := respects_adjust h.refl d h.head

theorem push (h : Closed R) (v : Word) : Respects R (push v) :=
  respects_push v (fun s hs => h.trans _ _ _ (h.slot s s.head v le_rfl) (h.head _ _ (by omega)))
    fun s _ => h.slot s s.head v le_rfl

theorem latch (h : Closed R) (a : Word) : Respects R (latch a) := respects_latch h.refl a fun s => h.mar s a

theorem latchAcc (h : Closed R) (r : Except Stop Int) : Respects R (latchAcc r) := respects_latchAcc h.refl r h.acc

theorem memRead (h : Closed R) : Respects R memRead := respects_memRead h.refl h.input

theorem memWrite (h : Closed R) (v : Word) : Respects R (memWrite v) :=
  respects_memWrite h.refl v (fun s a h1 h2 => h.data s a v h1 h2) fun s => h.output s v

theorem andThen (h : Closed R) {α β : Type} {m : Micro α} {f : α → Micro β} (hm : Respects R m)
    (hf : ∀ a, Respects R (f a)) : Respects R (andThen m f) := Respects.andThen h.trans hm hf

end Closed

/-! ## Stops: a relation the program counter's latch need not respect -/

/-- `m` stops, if it stops, in a state that `R` relates to the one it started in. -/
def StopRespects {α : Type} (R : State → State → Prop) (m : Micro α) : Prop := ∀ s e t, m s = .error e t → R s t

theorem stopRespects_advance : StopRespects R advance := fun _ _ _ h => by cases h

theorem stopRespects_jump (target : Word) : StopRespects R (jump target) := fun _ _ _ h => by cases h

theorem Respects.stop {α : Type} {m : Micro α} (h : Respects R m) : StopRespects R m := fun s => (h s).2

theorem Closed.andThenStop (h : Closed R) {α β : Type} {m : Micro α} {f : α → Micro β} (hm : Respects R m)
    (hf : ∀ a, StopRespects R (f a)) : StopRespects R (Machine.andThen m f) := by
  intro s e t he
  rcases andThen_eq_error.1 he with h1 | ⟨a, u, h1, h2⟩
  · exact (hm s).2 e t h1
  · exact h.trans _ _ _ ((hm s).1 a u h1) (hf a u e t h2)

/-- Micro-steps that respect `R`, but for the completion of the last one, stop in a state that `R` relates to the one
they started in. -/
theorem Closed.runTicksStop (h : Closed R) (htick : ∀ s, R s s.tick) : ∀ {steps : List (Micro Unit)},
    (∀ m ∈ steps.dropLast, Respects R m) → (∀ m ∈ steps, StopRespects R m) → StopRespects R (runTicks steps)
  | [], _, _ => fun _ _ _ he => by cases he
  | [m], _, hs => by
    intro s e t he
    cases hm : m s with
    | ok a u => rw [runTicks_ok hm, runTicks_nil] at he; cases he
    | error e' u => rw [runTicks_error hm] at he; cases he; exact hs m (by simp) _ _ _ hm
  | m :: k :: rest, hr, hs => by
    intro s e t he
    have ih := Closed.runTicksStop h htick (steps := k :: rest) (fun x hx => hr x (by simp [hx]))
      fun x hx => hs x (List.mem_cons_of_mem _ hx)
    cases hm : m s with
    | ok a u =>
      rw [runTicks_ok hm] at he
      exact h.trans _ _ _ (h.trans _ _ _ ((hr m (by simp) s).1 a u hm) (htick u)) (ih u.tick e t he)
    | error e' u => rw [runTicks_error hm] at he; cases he; exact hs m (by simp) _ _ _ hm

/-! ## Every instruction's micro-steps -/

/-- Every micro-step of every instruction respects a closed relation that the program counter's latch respects. -/
theorem microcode_respects (h : Closed R) (hpc : ∀ s p, R s (s.setPc p)) (i : Instr) :
    ∀ m ∈ microcode i, Respects R m := by
  have hadv : Respects R advance := respects_advance hpc
  have hjmp : ∀ target, Respects R (jump target) := fun target => respects_jump target hpc
  have hbin : ∀ f, ∀ m ∈ binarySequence f, Respects R m := by
    intro f m hm
    simp only [binarySequence, List.mem_cons, List.not_mem_nil, or_false] at hm
    rcases hm with rfl | rfl
    · exact h.andThen (h.top _) fun _ => h.andThen (h.top _) fun _ => h.latchAcc _
    · exact h.andThen (h.adjust _) fun _ => h.andThen h.readAcc fun _ => h.andThen (h.push _) fun _ => hadv
  have hun : ∀ g, ∀ m ∈ unarySequence g, Respects R m := by
    intro g m hm
    simp only [unarySequence, List.mem_cons, List.not_mem_nil, or_false] at hm
    rcases hm with rfl | rfl
    · exact h.andThen (h.top _) fun _ => h.latchAcc _
    · exact h.andThen (h.adjust _) fun _ => h.andThen h.readAcc fun _ => h.andThen (h.push _) fun _ => hadv
  cases i with
  | wrDir a =>
    intro m hm
    simp only [microcode, microWrDir, List.mem_cons, List.not_mem_nil, or_false] at hm
    rcases hm with rfl | rfl
    · exact h.andThen (h.top _) fun _ => h.latch _
    · exact h.andThen (h.top _) fun _ => h.andThen (h.memWrite _) fun _ => h.andThen (h.adjust _) fun _ => hadv
  | wrNdr a =>
    intro m hm
    simp only [microcode, microWrNdr, List.mem_cons, List.not_mem_nil, or_false] at hm
    rcases hm with rfl | rfl | rfl | rfl | rfl
    · exact h.andThen (h.top _) fun _ => h.andThen (h.top _) fun _ => h.latch _
    · exact h.andThen h.memRead fun _ => h.push _
    · exact h.andThen (h.top _) fun _ => h.andThen (h.latch _) fun _ => h.latchAcc _
    · exact h.andThen (h.top _) fun _ => h.andThen (h.memWrite _) fun _ => h.andThen (h.top _) fun _ => h.latch _
    · exact h.andThen h.readAcc fun _ => h.andThen (h.memWrite _) fun _ => h.andThen (h.adjust _) fun _ => hadv
  | readDir a =>
    intro m hm
    simp only [microcode, microReadDir, List.mem_cons, List.not_mem_nil, or_false] at hm
    rcases hm with rfl | rfl
    · exact h.andThen (h.top _) fun _ => h.latch _
    · exact h.andThen h.memRead fun _ => h.andThen (h.setTop _ _) fun _ => hadv
  | readNdr a =>
    intro m hm
    simp only [microcode, microReadNdr, List.mem_cons, List.not_mem_nil, or_false] at hm
    rcases hm with rfl | rfl | rfl | rfl | rfl
    · exact h.andThen (h.top _) fun _ => h.latch _
    · exact h.andThen h.memRead fun _ => h.push _
    · exact h.andThen (h.top _) fun _ => h.latch _
    · exact h.andThen h.memRead fun _ => h.push _
    · exact h.andThen (h.top _) fun _ => h.andThen (h.latchAcc _) fun _ => h.andThen (h.top _) fun _ =>
        h.andThen (h.latch _) fun _ => h.andThen h.readAcc fun _ => h.andThen (h.memWrite _) fun _ =>
        h.andThen (h.top _) fun _ => h.andThen (h.setTop _ _) fun _ => h.andThen (h.adjust _) fun _ => hadv
  | jmp t => intro m hm; obtain rfl := List.mem_singleton.1 hm; exact hjmp t
  | jnt t =>
    intro m hm; obtain rfl := List.mem_singleton.1 hm
    refine h.andThen (h.top _) fun _ => h.andThen (h.latchAcc _) fun _ => h.andThen (h.adjust _) fun _ =>
      h.andThen h.readAcc fun _ => ?_
    split
    · exact hjmp t
    · exact hadv
  | halt a => exact nofun
  | beginMark a => intro m hm; obtain rfl := List.mem_singleton.1 hm; exact hadv
  | nop a => intro m hm; obtain rfl := List.mem_singleton.1 hm; exact hadv
  | mod a => exact hbin _
  | plus a => exact hbin _
  | minus a => exact nofun
  | mult a => exact hbin _
  | div a => exact nofun
  | pow a => exact hbin _
  | lt a => exact hbin _
  | neg a => exact hun _
  | invert a => exact hun _
  | dup a =>
    intro m hm; obtain rfl := List.mem_singleton.1 hm
    exact h.andThen (h.top _) fun _ => h.andThen (h.push _) fun _ => hadv
  | overWord a =>
    intro m hm; obtain rfl := List.mem_singleton.1 hm
    exact h.andThen (h.top _) fun _ => h.andThen (h.push _) fun _ => hadv
  | rot a =>
    intro m hm; obtain rfl := List.mem_singleton.1 hm
    exact h.andThen (h.top _) fun _ => h.andThen (h.top _) fun _ => h.andThen (h.top _) fun _ =>
      h.andThen (h.setTop _ _) fun _ => h.andThen (h.setTop _ _) fun _ => hadv
  | swap a =>
    intro m hm; obtain rfl := List.mem_singleton.1 hm
    exact h.andThen (h.top _) fun _ => h.andThen (h.top _) fun _ => h.andThen (h.setTop _ _) fun _ =>
      h.andThen (h.setTop _ _) fun _ => hadv
  | push l => intro m hm; obtain rfl := List.mem_singleton.1 hm; exact h.andThen (h.push _) fun _ => hadv
  | drop a => intro m hm; obtain rfl := List.mem_singleton.1 hm; exact h.andThen (h.adjust _) fun _ => hadv
  | print a => exact nofun

/-- An instruction that stops the run stops in a state that a closed relation relates to the one it started in: no
micro-step latches the program counter before its last statement that can stop. -/
theorem microcode_stops (h : Closed R) (htick : ∀ s, R s s.tick) (i : Instr) : StopRespects R (runTicks (microcode i)) := by
  have hadv : StopRespects R advance := stopRespects_advance
  have hbin : ∀ f, StopRespects R (runTicks (binarySequence f)) := by
    intro f
    have h1 : Respects R (andThen (top 0) fun a => andThen (top 1) fun b => latchAcc (f b a)) :=
      h.andThen (h.top _) fun _ => h.andThen (h.top _) fun _ => h.latchAcc _
    refine h.runTicksStop htick ?_ ?_
    · simpa [binarySequence] using h1
    · simp only [binarySequence, List.mem_cons, List.not_mem_nil, or_false]
      rintro m (rfl | rfl)
      · exact h1.stop
      · exact h.andThenStop (h.adjust _) fun _ => h.andThenStop h.readAcc fun _ => h.andThenStop (h.push _) fun _ => hadv
  have hun : ∀ g, StopRespects R (runTicks (unarySequence g)) := by
    intro g
    have h1 : Respects R (andThen (top 0) fun a => latchAcc (g a)) := h.andThen (h.top _) fun _ => h.latchAcc _
    refine h.runTicksStop htick ?_ ?_
    · simpa [unarySequence] using h1
    · simp only [unarySequence, List.mem_cons, List.not_mem_nil, or_false]
      rintro m (rfl | rfl)
      · exact h1.stop
      · exact h.andThenStop (h.adjust _) fun _ => h.andThenStop h.readAcc fun _ => h.andThenStop (h.push _) fun _ => hadv
  have hone : ∀ {m : Micro Unit}, StopRespects R m → StopRespects R (runTicks [m]) := fun hm =>
    h.runTicksStop htick (by simp) (by simpa using hm)
  have hnil : StopRespects R (runTicks []) := fun _ _ _ he => by cases he
  cases i with
  | wrDir a =>
    have h1 : Respects R (andThen (top 0) fun a => latch a) := h.andThen (h.top _) fun _ => h.latch _
    refine h.runTicksStop htick ?_ ?_
    · simpa [microcode, microWrDir] using h1
    · simp only [microcode, microWrDir, List.mem_cons, List.not_mem_nil, or_false]
      rintro m (rfl | rfl)
      · exact h1.stop
      · exact h.andThenStop (h.top _) fun _ => h.andThenStop (h.memWrite _) fun _ =>
          h.andThenStop (h.adjust _) fun _ => hadv
  | wrNdr a =>
    have hinit : ∀ m ∈ microWrNdr.dropLast, Respects R m := by
      simp only [microWrNdr, List.dropLast, List.mem_cons, List.not_mem_nil, or_false]
      rintro m (rfl | rfl | rfl | rfl)
      · exact h.andThen (h.top _) fun _ => h.andThen (h.top _) fun _ => h.latch _
      · exact h.andThen h.memRead fun _ => h.push _
      · exact h.andThen (h.top _) fun _ => h.andThen (h.latch _) fun _ => h.latchAcc _
      · exact h.andThen (h.top _) fun _ => h.andThen (h.memWrite _) fun _ => h.andThen (h.top _) fun _ => h.latch _
    refine h.runTicksStop htick hinit fun m hm => ?_
    simp only [microcode, microWrNdr, List.mem_cons, List.not_mem_nil, or_false] at hm
    simp only [microWrNdr, List.dropLast, List.mem_cons, List.not_mem_nil, or_false] at hinit
    rcases hm with hm | hm | hm | hm | rfl
    · exact (hinit m (by simp [hm])).stop
    · exact (hinit m (by simp [hm])).stop
    · exact (hinit m (by simp [hm])).stop
    · exact (hinit m (by simp [hm])).stop
    · exact h.andThenStop h.readAcc fun _ => h.andThenStop (h.memWrite _) fun _ =>
        h.andThenStop (h.adjust _) fun _ => hadv
  | readDir a =>
    have h1 : Respects R (andThen (top 0) fun a => latch a) := h.andThen (h.top _) fun _ => h.latch _
    refine h.runTicksStop htick ?_ ?_
    · simpa [microcode, microReadDir] using h1
    · simp only [microcode, microReadDir, List.mem_cons, List.not_mem_nil, or_false]
      rintro m (rfl | rfl)
      · exact h1.stop
      · exact h.andThenStop h.memRead fun _ => h.andThenStop (h.setTop _ _) fun _ => hadv
  | readNdr a =>
    have hinit : ∀ m ∈ microReadNdr.dropLast, Respects R m := by
      simp only [microReadNdr, List.dropLast, List.mem_cons, List.not_mem_nil, or_false]
      rintro m (rfl | rfl | rfl | rfl)
      · exact h.andThen (h.top _) fun _ => h.latch _
      · exact h.andThen h.memRead fun _ => h.push _
      · exact h.andThen (h.top _) fun _ => h.latch _
      · exact h.andThen h.memRead fun _ => h.push _
    refine h.runTicksStop htick hinit fun m hm => ?_
    simp only [microcode, microReadNdr, List.mem_cons, List.not_mem_nil, or_false] at hm
    simp only [microReadNdr, List.dropLast, List.mem_cons, List.not_mem_nil, or_false] at hinit
    rcases hm with hm | hm | hm | hm | rfl
    · exact (hinit m (by simp [hm])).stop
    · exact (hinit m (by simp [hm])).stop
    · exact (hinit m (by simp [hm])).stop
    · exact (hinit m (by simp [hm])).stop
    · exact h.andThenStop (h.top _) fun _ => h.andThenStop (h.latchAcc _) fun _ => h.andThenStop (h.top _) fun _ =>
        h.andThenStop (h.latch _) fun _ => h.andThenStop h.readAcc fun _ => h.andThenStop (h.memWrite _) fun _ =>
        h.andThenStop (h.top _) fun _ => h.andThenStop (h.setTop _ _) fun _ => h.andThenStop (h.adjust _) fun _ => hadv
  | jmp t => exact hone (stopRespects_jump t)
  | jnt t =>
    refine hone (h.andThenStop (h.top _) fun _ => h.andThenStop (h.latchAcc _) fun _ =>
      h.andThenStop (h.adjust _) fun _ => h.andThenStop h.readAcc fun _ => ?_)
    split
    · exact stopRespects_jump t
    · exact hadv
  | halt a => exact hnil
  | beginMark a => exact hone hadv
  | nop a => exact hone hadv
  | mod a => exact hbin _
  | plus a => exact hbin _
  | minus a => exact hnil
  | mult a => exact hbin _
  | div a => exact hnil
  | pow a => exact hbin _
  | lt a => exact hbin _
  | neg a => exact hun _
  | invert a => exact hun _
  | dup a => exact hone (h.andThenStop (h.top _) fun _ => h.andThenStop (h.push _) fun _ => hadv)
  | overWord a => exact hone (h.andThenStop (h.top _) fun _ => h.andThenStop (h.push _) fun _ => hadv)
  | rot a =>
    exact hone (h.andThenStop (h.top _) fun _ => h.andThenStop (h.top _) fun _ => h.andThenStop (h.top _) fun _ =>
      h.andThenStop (h.setTop _ _) fun _ => h.andThenStop (h.setTop _ _) fun _ => hadv)
  | swap a =>
    exact hone (h.andThenStop (h.top _) fun _ => h.andThenStop (h.top _) fun _ => h.andThenStop (h.setTop _ _) fun _ =>
      h.andThenStop (h.setTop _ _) fun _ => hadv)
  | push l => exact hone (h.andThenStop (h.push _) fun _ => hadv)
  | drop a => exact hone (h.andThenStop (h.adjust _) fun _ => hadv)
  | print a => exact hnil

/-! ## Why instructions stop -/

/-- Every stop of `m`, with the state it leaves, is in `Q`. -/
def StopIs {α : Type} (Q : Stop → State → Prop) (m : Micro α) : Prop := ∀ s e t, m s = .error e t → Q e t

variable {Q : Stop → State → Prop}

theorem StopIs.andThen {α β : Type} {m : Micro α} {f : α → Micro β} (hm : StopIs Q m) (hf : ∀ a, StopIs Q (f a)) :
    StopIs Q (Machine.andThen m f) := by
  intro s e t h
  rcases andThen_eq_error.1 h with h1 | ⟨a, u, -, h2⟩
  · exact hm s e t h1
  · exact hf a u e t h2

theorem StopIs.runTicks : ∀ {steps : List (Micro Unit)}, (∀ m ∈ steps, StopIs Q m) → StopIs Q (runTicks steps)
  | [], _ => fun _ _ _ h => by cases h
  | m :: rest, hall => by
    intro s e t h
    cases hm : m s with
    | ok a u =>
      rw [runTicks_ok hm] at h
      exact StopIs.runTicks (fun k hk => hall k (List.mem_cons_of_mem _ hk)) u.tick e t h
    | error e' u => rw [runTicks_error hm] at h; cases h; exact hall m (List.mem_cons_self ..) _ _ _ hm

/-- An instruction's micro-steps stop with a fault, or, in an instruction that reads memory, by input exhaustion: MAR
is the input port and nothing is left to read. -/
theorem microcode_stopIs (hf : ∀ cause info t, Q (.fault cause info) t) (i : Instr)
    (hn : (∃ arg, i = .readDir arg ∨ i = .readNdr arg ∨ i = .wrNdr arg) → ∀ t, t.marCell = 0 → t.inq = [] → Q .normal t) :
    StopIs Q (runTicks (microcode i)) := by
  have htop : ∀ k, StopIs Q (top k) := fun k s e t h => by obtain ⟨-, -, rfl⟩ := top_eq_error h; exact hf ..
  have hset : ∀ k v, StopIs Q (setTop k v) := fun k v s e t h => by obtain ⟨-, -, rfl⟩ := setTop_eq_error h; exact hf ..
  have hadj : ∀ d, StopIs Q (adjust d) := fun d s e t h => by
    obtain ⟨-, ⟨-, rfl⟩ | ⟨-, rfl⟩⟩ := adjust_eq_error h <;> exact hf ..
  have hpush : ∀ v, StopIs Q (push v) := fun v s e t h => by obtain ⟨-, rfl, -⟩ := push_eq_error h; exact hf ..
  have hlatch : ∀ a, StopIs Q (latch a) := fun a s e t h => by obtain ⟨-, -, rfl⟩ := latch_eq_error h; exact hf ..
  have hacc : ∀ {r : Except Stop Int}, (∀ e, r = .error e → ∃ c x, e = .fault c x) → StopIs Q (latchAcc r) :=
    fun hr s e t h => by
      rcases (latchAcc_eq_error h).2 with h1 | ⟨v, -, h2⟩
      · obtain ⟨c, x, rfl⟩ := hr e h1; exact hf ..
      · unfold checkW at h2
        split at h2
        · cases h2
        · cases h2; exact hf ..
  have hwrite : ∀ v, StopIs Q (memWrite v) := fun v s e t h => by
    obtain ⟨-, ⟨-, rfl⟩ | ⟨-, rfl⟩⟩ := memWrite_eq_error h <;> exact hf ..
  have hmem : (∃ arg, i = .readDir arg ∨ i = .readNdr arg ∨ i = .wrNdr arg) → StopIs Q memRead := fun hi s e t h => by
    obtain ⟨rfl, ⟨h0, hq, rfl⟩ | ⟨-, rfl⟩ | ⟨-, rfl⟩⟩ := memRead_eq_error h
    · exact hn hi _ h0 hq
    · exact hf ..
    · exact hf ..
  have hadv : StopIs Q advance := fun _ _ _ h => by cases h
  have hjmp : ∀ target, StopIs Q (jump target) := fun _ _ _ _ h => by cases h
  have hra : StopIs Q readAcc := fun _ _ _ h => by cases h
  have hbin : ∀ f : Word → Word → Except Stop Int, (∀ b a e, f b a = .error e → ∃ c x, e = .fault c x) →
      StopIs Q (runTicks (binarySequence f)) := by
    intro f hfault
    refine StopIs.runTicks fun m hm => ?_
    simp only [binarySequence, List.mem_cons, List.not_mem_nil, or_false] at hm
    rcases hm with rfl | rfl
    · exact (htop _).andThen fun a => (htop _).andThen fun b => hacc (hfault b a)
    · exact (hadj _).andThen fun _ => hra.andThen fun _ => (hpush _).andThen fun _ => hadv
  have hun : ∀ g : Word → Except Stop Int, (∀ a e, g a = .error e → ∃ c x, e = .fault c x) →
      StopIs Q (runTicks (unarySequence g)) := by
    intro g hfault
    refine StopIs.runTicks fun m hm => ?_
    simp only [unarySequence, List.mem_cons, List.not_mem_nil, or_false] at hm
    rcases hm with rfl | rfl
    · exact (htop _).andThen fun a => hacc (hfault a)
    · exact (hadj _).andThen fun _ => hra.andThen fun _ => (hpush _).andThen fun _ => hadv
  have hone : ∀ {m : Micro Unit}, StopIs Q m → StopIs Q (runTicks [m]) := fun hm =>
    StopIs.runTicks (by simpa using hm)
  have hnil : StopIs Q (runTicks []) := fun _ _ _ h => by cases h
  have hmod : ∀ b a e, aluMod b a = .error e → ∃ c x, e = .fault c x := by
    intro b a e h
    unfold aluMod at h; split at h
    · cases h; exact ⟨_, _, rfl⟩
    · cases h
  have hpow : ∀ b a e, aluPow b a = .error e → ∃ c x, e = .fault c x := by
    intro b a e h
    unfold aluPow at h; split at h
    · cases h; exact ⟨_, _, rfl⟩
    · cases h
  cases i with
  | wrDir arg =>
    refine StopIs.runTicks fun m hm => ?_
    simp only [microcode, microWrDir, List.mem_cons, List.not_mem_nil, or_false] at hm
    rcases hm with rfl | rfl
    · exact (htop _).andThen fun _ => hlatch _
    · exact (htop _).andThen fun _ => (hwrite _).andThen fun _ => (hadj _).andThen fun _ => hadv
  | wrNdr arg =>
    have hm' := hmem ⟨arg, .inr (.inr rfl)⟩
    refine StopIs.runTicks fun m hm => ?_
    simp only [microcode, microWrNdr, List.mem_cons, List.not_mem_nil, or_false] at hm
    rcases hm with rfl | rfl | rfl | rfl | rfl
    · exact (htop _).andThen fun _ => (htop _).andThen fun _ => hlatch _
    · exact hm'.andThen fun _ => hpush _
    · exact (htop _).andThen fun _ => (hlatch _).andThen fun _ => hacc nofun
    · exact (htop _).andThen fun _ => (hwrite _).andThen fun _ => (htop _).andThen fun _ => hlatch _
    · exact hra.andThen fun _ => (hwrite _).andThen fun _ => (hadj _).andThen fun _ => hadv
  | readDir arg =>
    have hm' := hmem ⟨arg, .inl rfl⟩
    refine StopIs.runTicks fun m hm => ?_
    simp only [microcode, microReadDir, List.mem_cons, List.not_mem_nil, or_false] at hm
    rcases hm with rfl | rfl
    · exact (htop _).andThen fun _ => hlatch _
    · exact hm'.andThen fun _ => (hset _ _).andThen fun _ => hadv
  | readNdr arg =>
    have hm' := hmem ⟨arg, .inr (.inl rfl)⟩
    refine StopIs.runTicks fun m hm => ?_
    simp only [microcode, microReadNdr, List.mem_cons, List.not_mem_nil, or_false] at hm
    rcases hm with rfl | rfl | rfl | rfl | rfl
    · exact (htop _).andThen fun _ => hlatch _
    · exact hm'.andThen fun _ => hpush _
    · exact (htop _).andThen fun _ => hlatch _
    · exact hm'.andThen fun _ => hpush _
    · exact (htop _).andThen fun p => (hacc (r := aluIncrement p) nofun).andThen fun _ => (htop _).andThen fun _ =>
        (hlatch _).andThen fun _ => hra.andThen fun _ => (hwrite _).andThen fun _ => (htop _).andThen fun _ =>
        (hset _ _).andThen fun _ => (hadj _).andThen fun _ => hadv
  | jmp target => exact hone (hjmp target)
  | jnt target =>
    refine hone ((htop _).andThen fun f => (hacc (r := aluNotTrue f) nofun).andThen fun _ =>
      (hadj _).andThen fun _ => hra.andThen fun _ => ?_)
    split
    · exact hjmp target
    · exact hadv
  | halt arg => exact hnil
  | beginMark arg => exact hone hadv
  | nop arg => exact hone hadv
  | mod arg => exact hbin _ hmod
  | plus arg => exact hbin _ nofun
  | minus arg => exact hnil
  | mult arg => exact hbin _ nofun
  | div arg => exact hnil
  | pow arg => exact hbin _ hpow
  | lt arg => exact hbin _ nofun
  | neg arg => exact hun _ nofun
  | invert arg => exact hun _ nofun
  | dup arg => exact hone ((htop _).andThen fun _ => (hpush _).andThen fun _ => hadv)
  | overWord arg => exact hone ((htop _).andThen fun _ => (hpush _).andThen fun _ => hadv)
  | rot arg =>
    exact hone ((htop _).andThen fun _ => (htop _).andThen fun _ => (htop _).andThen fun _ =>
      (hset _ _).andThen fun _ => (hset _ _).andThen fun _ => hadv)
  | swap arg =>
    exact hone ((htop _).andThen fun _ => (htop _).andThen fun _ => (hset _ _).andThen fun _ =>
      (hset _ _).andThen fun _ => hadv)
  | push lit => exact hone ((hpush _).andThen fun _ => hadv)
  | drop arg => exact hone ((hadj _).andThen fun _ => hadv)
  | print arg => exact hnil

/-! ## The shapes of exec -/

/-- An instruction does one of three things: HALT stops NORMAL, an unimplemented opcode faults, and every other one
runs its micro-steps. -/
theorem exec_cases (i : Instr) (s : State) :
    (∃ arg, i = .halt arg ∧ exec i s = .next ((s.issue i).halted .normal 0)) ∨
    (((∃ arg, i = .minus arg) ∨ (∃ arg, i = .div arg) ∨ ∃ arg, i = .print arg) ∧
      exec i s = unimplemented i.opcode s) ∨
    (((∀ arg, i ≠ .halt arg) ∧ (∀ arg, i ≠ .minus arg) ∧ (∀ arg, i ≠ .div arg) ∧ ∀ arg, i ≠ .print arg) ∧
      exec i s = runMicrocode i (microcode i) s ∧ enterExec i s = .next (s.issue i)) := by
  cases i with
  | halt arg => exact .inl ⟨arg, rfl, rfl⟩
  | minus arg => exact .inr (.inl ⟨.inl ⟨arg, rfl⟩, rfl⟩)
  | div arg => exact .inr (.inl ⟨.inr (.inl ⟨arg, rfl⟩), rfl⟩)
  | print arg => exact .inr (.inl ⟨.inr (.inr ⟨arg, rfl⟩), rfl⟩)
  | _ => exact .inr (.inr ⟨⟨nofun, nofun, nofun, nofun⟩, rfl, rfl⟩)

/-- A running instruction retires, or stops in the state its micro-steps left. -/
theorem runMicrocode_cases (i : Instr) (steps : List (Micro Unit)) (s : State) :
    (∃ u t, runTicks steps (s.issue i) = .ok u t ∧ runMicrocode i steps s = .next t.retire) ∨
    ∃ e t, runTicks steps (s.issue i) = .error e t ∧ runMicrocode i steps s = .next (t.stop i.opcode.number e) := by
  unfold runMicrocode
  cases h : runTicks steps (s.issue i) with
  | ok u t => exact .inl ⟨u, t, rfl, rfl⟩
  | error e t => exact .inr ⟨e, t, rfl, rfl⟩

/-- The number of micro-steps of an instruction is its tick count. -/
theorem microcode_length (i : Instr) : (microcode i).length = tickCount i := by cases i <;> rfl

/-- Micro-steps that leave the tick counter alone count one tick each when they all complete. -/
theorem runTicks_ticks : ∀ {steps : List (Micro Unit)}, (∀ m ∈ steps, Respects (fun s t => t.ticks = s.ticks) m) →
    ∀ s, (∀ u t, runTicks steps s = .ok u t → t.ticks = s.ticks + steps.length) ∧
      ∀ e t, runTicks steps s = .error e t → s.ticks ≤ t.ticks ∧ t.ticks < s.ticks + steps.length
  | [], _, s => ⟨fun _ _ h => by cases h; rfl, fun _ _ h => by cases h⟩
  | m :: rest, hall, s => by
    have hm := hall m (List.mem_cons_self ..) s
    cases h : m s with
    | ok a u =>
      have h1 : u.ticks = s.ticks := hm.1 a u h
      have ih := runTicks_ticks (fun k hk => hall k (List.mem_cons_of_mem _ hk)) u.tick
      rw [runTicks_ok h]
      refine ⟨fun v t hv => ?_, fun e t he => ?_⟩
      · have := ih.1 v t hv
        simp only [tick_ticks, List.length_cons] at this ⊢
        omega
      · have := ih.2 e t he
        simp only [tick_ticks, List.length_cons] at this ⊢
        omega
    | error e' u =>
      have h1 : u.ticks = s.ticks := hm.2 e' u h
      rw [runTicks_error h]
      refine ⟨nofun, fun e t he => ?_⟩
      cases he
      simp only [List.length_cons]
      omega

/-- An instruction's micro-steps count its ticks when they all complete, and fewer when one of them stops. -/
theorem microcode_ticks (i : Instr) (s : State) :
    (∀ u t, runTicks (microcode i) s = .ok u t → t.ticks = s.ticks + tickCount i) ∧
      ∀ e t, runTicks (microcode i) s = .error e t → s.ticks ≤ t.ticks ∧ t.ticks < s.ticks + tickCount i := by
  rw [← microcode_length]
  refine runTicks_ticks (microcode_respects ?_ ?_ i) s
  · constructor <;> intros <;> first | rfl | simp_all
  · intros; rfl

/-- Where micro-steps stop: some of them completed, the next one met the stop, and the completed ones are what the tick
counter counts. -/
theorem runTicks_stop : ∀ {steps : List (Micro Unit)}, (∀ m ∈ steps, Respects (fun s t => t.ticks = s.ticks) m) →
    ∀ {s : State} {e : Stop} {t : State}, runTicks steps s = .error e t →
      ∃ (n : Nat) (m : Micro Unit) (u : State), n < steps.length ∧ runTicks (steps.take n) s = .ok () u ∧
        steps[n]? = some m ∧ m u = .error e t ∧ t.ticks = s.ticks + n
  | [], _, _, _, _, h => by cases h
  | m :: rest, hall, s, e, t, h => by
    have hm := hall m (List.mem_cons_self ..) s
    cases hms : m s with
    | error e' u =>
      rw [runTicks_error hms] at h
      cases h
      exact ⟨0, m, s, by simp, by rw [List.take_zero, runTicks_nil], by simp, hms, hm.2 _ _ hms⟩
    | ok a u =>
      have h1 : u.ticks = s.ticks := hm.1 a u hms
      rw [runTicks_ok hms] at h
      obtain ⟨n, m', u', hn, h2, h3, h4, h5⟩ := runTicks_stop (fun k hk => hall k (List.mem_cons_of_mem _ hk)) h
      refine ⟨n + 1, m', u', by simpa using hn, ?_, by simpa using h3, h4, ?_⟩
      · rw [List.take_succ_cons, runTicks_ok hms, h2]
      · rw [tick_ticks] at h5
        omega

/-- Where the micro-steps of an instruction stop. -/
theorem microcode_stop {i : Instr} {s t : State} {e : Stop} (h : runTicks (microcode i) s = .error e t) :
    ∃ (n : Nat) (m : Micro Unit) (u : State), n < tickCount i ∧ runTicks ((microcode i).take n) s = .ok () u ∧
      (microcode i)[n]? = some m ∧ m u = .error e t ∧ t.ticks = s.ticks + n := by
  rw [← microcode_length]
  refine runTicks_stop (microcode_respects ?_ ?_ i) h
  · constructor <;> intros <;> first | rfl | simp_all
  · intros; rfl

/-! ## The two ends of an instruction -/

/-- What no micro-step writes is the same in two states: the counters of the run, STATUS and the fault record, IR, PHASE
and the parameters. -/
structure SameRun (s t : State) : Prop where
  retired : t.retired = s.retired
  ir : t.ir = s.ir
  status : t.status = s.status
  faultPc : t.faultPc = s.faultPc
  faultOpc : t.faultOpc = s.faultOpc
  faultTick : t.faultTick = s.faultTick
  faultInfo : t.faultInfo = s.faultInfo
  phase : t.phase = s.phase
  dbg : t.dbg = s.dbg
  memorySize : t.memorySize = s.memorySize
  ceiling : t.ceiling = s.ceiling
  programLength : t.programLength = s.programLength

theorem closed_sameRun : Closed SameRun := by
  constructor
  case trans =>
    intro s t u h k
    exact ⟨k.1.trans h.1, k.2.trans h.2, k.3.trans h.3, k.4.trans h.4, k.5.trans h.5, k.6.trans h.6, k.7.trans h.7,
      k.8.trans h.8, k.9.trans h.9, k.10.trans h.10, k.11.trans h.11, k.12.trans h.12⟩
  all_goals (intros; constructor <;> rfl)

theorem microcode_sameRun (i : Instr) (s : State) :
    (∀ u t, runTicks (microcode i) s = .ok u t → SameRun s t) ∧
      ∀ e t, runTicks (microcode i) s = .error e t → SameRun s t :=
  Respects.runTicks closed_sameRun.refl closed_sameRun.trans (by intros; constructor <;> rfl)
    (microcode_respects closed_sameRun (by intros; constructor <;> rfl) i) s

/-- All that an instruction can come to. Either all its micro-steps complete and it retires with its ticks, or the run
stops: by a fault or NORMAL, with the program counter and the retired count it started with and with fewer ticks than
the instruction takes, or none. -/
theorem exec_ends {i : Instr} {s t : State} (h : exec i s = .next t) :
    (∃ u, runTicks (microcode i) (s.issue i) = .ok () u ∧ t = u.retire ∧ SameRun (s.issue i) u ∧
      u.ticks = s.ticks + tickCount i) ∨
    ∃ e u, t = u.stop i.opcode.number e ∧ e ≠ .ceiling ∧ SameRun { s with ir := u.ir, phase := u.phase } u ∧
      u.pc = s.pc ∧ s.ticks ≤ u.ticks ∧ (u.ticks = s.ticks ∨ u.ticks < s.ticks + tickCount i) := by
  rcases exec_cases i s with ⟨arg, rfl, h1⟩ | ⟨-, h1⟩ | ⟨-, h1, -⟩
  · rw [h1] at h; cases h
    exact .inr ⟨.normal, s.issue (.halt arg), rfl, nofun, by constructor <;> rfl, rfl, le_rfl, .inl rfl⟩
  · rw [h1] at h; cases h
    exact .inr ⟨.fault .unimplementedOpcode _, s, rfl, nofun, by constructor <;> rfl, rfl, le_rfl, .inl rfl⟩
  · rw [h1] at h
    rcases runMicrocode_cases i (microcode i) s with ⟨u, t', h2, h3⟩ | ⟨e, t', h2, h3⟩
    · rw [h3] at h; cases h
      exact .inl ⟨t', h2, rfl, (microcode_sameRun i _).1 _ _ h2, (microcode_ticks i (s.issue i)).1 _ _ h2⟩
    · rw [h3] at h; cases h
      have hr := (microcode_sameRun i _).2 _ _ h2
      have ht := (microcode_ticks i (s.issue i)).2 _ _ h2
      have hpc : StopRespects (fun s t => t.pc = s.pc) (runTicks (microcode i)) :=
        microcode_stops (by constructor <;> intros <;> simp_all) (by intros; rfl) i
      refine .inr ⟨e, t', rfl, ?_, ?_, hpc (s.issue i) _ _ h2, ht.1, .inr ht.2⟩
      · rintro rfl
        exact microcode_stopIs (Q := fun e _ => e ≠ .ceiling) (fun _ _ _ => nofun) i (fun _ _ _ _ => nofun) _ _ _ h2 rfl
      · exact ⟨hr.retired, rfl, hr.status, hr.faultPc, hr.faultOpc, hr.faultTick, hr.faultInfo, rfl, hr.dbg,
          hr.memorySize, hr.ceiling, hr.programLength⟩

/-! ## Fetch and the step -/

theorem fetch_ok {s : State} (h0 : 0 ≤ s.pc.toInt) (h1 : s.pc.toInt < s.programLength)
    (h2 : 128 + s.pc.toInt < s.memorySize) : fetch s = .ok (s.mem.instrWord (128 + s.pc.toInt.toNat)) := by
  unfold fetch
  rw [if_neg (by omega), if_neg (by simp only [Config.programBase]; omega)]

theorem fetch_outOfRange {s : State} (h : s.pc.toInt < 0 ∨ (s.programLength : Int) ≤ s.pc.toInt) :
    fetch s = .error (.fault .fetchOutOfRange s.pc) := by unfold fetch; rw [if_pos h]

/-- All that `fetch` says when it faults. -/
theorem fetch_eq_error {s : State} {e : Stop} (h : fetch s = .error e) : e = .fault .fetchOutOfRange s.pc := by
  unfold fetch at h
  split at h
  · cases h; rfl
  · split at h
    · cases h; rfl
    · cases h

/-- All that `fetch` says when it answers. -/
theorem fetch_eq_ok {s : State} {w : InstrWord} (h : fetch s = .ok w) :
    0 ≤ s.pc.toInt ∧ s.pc.toInt < s.programLength ∧ 128 + s.pc.toInt < s.memorySize ∧
      w = s.mem.instrWord (128 + s.pc.toInt.toNat) := by
  unfold fetch at h
  split at h
  · cases h
  · split at h
    · cases h
    · cases h
      have h2 : ¬ ((128 : Int) + s.pc.toInt < 128 ∨ (s.memorySize : Int) ≤ 128 + s.pc.toInt) := ‹_›
      exact ⟨by omega, by omega, by omega, rfl⟩

theorem step_check {s : State} (h : s.phase = .check) : step s = macroStep s := by simp [step, controlStep, h]

theorem step_ready {s : State} (h : s.phase = .ready) : step s = .next s.start := by
  simp [step, controlStep, fsm, h]

theorem step_stopped {s : State} (h : s.phase = .stopped) : step s = .next s := by
  simp [step, controlStep, fsm, h]

/-- What a macro-step does: the ceiling, the fetch fault, the illegal instruction, or the instruction. -/
theorem macroStep_cases (s : State) :
    (s.ceiling ≤ s.retired ∧ macroStep s = .next (s.halted .ceiling 0)) ∨
    (s.retired < s.ceiling ∧
      ((fetch s = .error (.fault .fetchOutOfRange s.pc) ∧ macroStep s = .next (s.takeFault .fetchOutOfRange s.pc 0)) ∨
       (∃ w e, fetch s = .ok w ∧ decode w = .error e ∧ macroStep s = .next (s.takeIllegal w)) ∨
       ∃ w i, fetch s = .ok w ∧ decode w = .ok i ∧ macroStep s = exec i s)) := by
  unfold macroStep
  by_cases hc : s.ceiling ≤ s.retired
  · exact .inl ⟨hc, by rw [if_pos hc]; rfl⟩
  · refine .inr ⟨by omega, ?_⟩
    rw [if_neg hc]
    cases hf : fetch s with
    | error e => rw [fetch_eq_error hf]; exact .inl ⟨rfl, rfl⟩
    | ok w =>
      cases hd : decode w with
      | error e => exact .inr (.inl ⟨w, e, rfl, hd, by simp only [hd]⟩)
      | ok i => exact .inr (.inr ⟨w, i, rfl, hd, by simp only [hd]⟩)

/-! ## Whole instructions and steps -/

theorem start_eq (s : State) : s.start = s ∨ s.start = { s with phase := .check, status := setStatusRun s.status .running } := by
  unfold State.start; split <;> simp

/-- A whole instruction respects a closed relation that the latch of the program counter, the issue, RETIRE and the
stops respect. -/
theorem exec_respects (h : Closed R) (htick : ∀ s, R s s.tick) (hpc : ∀ s p, R s (s.setPc p))
    (hissue : ∀ s i, R s (s.issue i)) (hretire : ∀ s, R s s.retire) (hstop : ∀ s o e, R s (s.stop o e))
    {i : Instr} {s t : State} (he : exec i s = .next t) : R s t := by
  rcases exec_cases i s with ⟨arg, rfl, h1⟩ | ⟨-, h1⟩ | ⟨-, h1, -⟩
  · rw [h1] at he; cases he; exact h.trans _ _ _ (hissue s _) (hstop _ 0 .normal)
  · rw [h1] at he; cases he; exact hstop _ _ (.fault _ _)
  · rw [h1] at he
    have hr := Respects.runTicks h.refl h.trans htick (microcode_respects h hpc i) (s.issue i)
    rcases runMicrocode_cases i (microcode i) s with ⟨u, t', h2, h3⟩ | ⟨e, t', h2, h3⟩
    · rw [h3] at he; cases he; exact h.trans _ _ _ (hissue s i) (h.trans _ _ _ (hr.1 u t' h2) (hretire _))
    · rw [h3] at he; cases he; exact h.trans _ _ _ (hissue s i) (h.trans _ _ _ (hr.2 e t' h2) (hstop _ _ _))

/-- So does every step, in every phase. -/
theorem step_respects (h : Closed R) (htick : ∀ s, R s s.tick) (hpc : ∀ s p, R s (s.setPc p))
    (hissue : ∀ s i, R s (s.issue i)) (hretire : ∀ s, R s s.retire) (hstop : ∀ s o e, R s (s.stop o e))
    (hphase : ∀ s p u, R s { s with phase := p, upc := u }) (hstart : ∀ s, R s s.start)
    {s t : State} (he : step s = .next t) : R s t := by
  have hphase' : ∀ s p , R s { s with phase := p } := fun s p => hphase s p s.upc
  by_cases hc : s.phase = .check
  · rw [step_check hc] at he
    rcases macroStep_cases s with ⟨-, h1⟩ | ⟨-, (⟨-, h1⟩ | ⟨w, e, -, -, h1⟩ | ⟨w, i, -, -, h1⟩)⟩
    · rw [h1] at he; cases he; exact hstop s 0 .ceiling
    · rw [h1] at he; cases he; exact hstop s _ (.fault _ _)
    · rw [h1] at he; cases he; exact hstop s _ (.fault _ _)
    · rw [h1] at he; exact exec_respects h htick hpc hissue hretire hstop he
  · simp only [step, controlStep, hc, if_false] at he
    unfold fsm at he
    split at he
    · cases he; exact hstart s
    · contradiction
    · split at he
      · cases he; exact hstop _ _ _
      · cases he; exact hphase' _ _
    · split at he
      · cases he; exact hstop _ _ _
      · split at he
        · cases he; exact hstop s _ (.fault _ _)
        · unfold enterExec at he
          split at he
          · cases he; exact h.trans _ _ _ (hissue s _) (hstop _ 0 .normal)
          · cases he; exact hstop s _ (.fault _ _)
          · cases he; exact hstop s _ (.fault _ _)
          · cases he; exact hstop s _ (.fault _ _)
          · cases he; exact hissue s _
    · unfold execMicroStep at he
      split at he
      · cases he
      · split at he
        · cases he
        · split at he
          · cases he
          · rename_i i _ _ _ m hm
            have hr := microcode_respects h hpc i m (List.mem_of_getElem? hm) s
            split at he
            · cases he; exact h.trans _ _ _ (hr.2 _ _ ‹_›) (hstop _ _ _)
            · split at he
              · cases he; exact h.trans _ _ _ (hr.1 _ _ ‹_›) (htick _)
              · cases he; exact h.trans _ _ _ (hr.1 _ _ ‹_›) (h.trans _ _ _ (htick _) (hphase _ _ _))
    · cases he; exact hretire s
    · cases he; exact h.refl _

end Sys2Proof.Machine
end

