-- ==== Sys2Proof/Laws/Encode.lean ====
section
/-! SUPPORT. The fields of a packed instruction word, and the opcode numbers. -/

namespace Sys2Proof

/-! ## Fields -/

section
variable (opc : OpcodeNumber) (present isChar : Bool) (argf : Word)

/-- A packed word bit by bit. -/
theorem getLsbD_packFields (k : Nat) : (packFields opc present isChar argf).getLsbD k =
    if k < 8 then opc.getLsbD k else if k = 8 then present else if k = 9 then isChar
    else if k < 16 then false else argf.getLsbD (k - 16) := by
  unfold packFields
  rw [BitVec.getLsbD_append, BitVec.getLsbD_append, BitVec.getLsbD_append, BitVec.getLsbD_append]
  rw [BitVec.getLsbD_ofBool, BitVec.getLsbD_ofBool]
  simp only [BitVec.getLsbD_zero]
  have e : k - (6 + (1 + (1 + 8))) = k - 16 := rfl
  rw [e]
  by_cases h8 : k < 8
  · simp [h8, show k < 16 by omega, show k < 10 by omega, show k < 9 by omega]
  by_cases h9 : k = 8
  · simp [h9]
  by_cases h10 : k = 9
  · simp [h10]
  by_cases h16 : k < 16
  · simp [h8, h9, h10, h16, show ¬ k < 10 by omega]
  · simp [h8, h9, h10, h16]

@[simp] theorem opcField_packFields : opcField (packFields opc present isChar argf) = opc := by
  ext k hk
  rw [opcField, BitVec.getElem_extractLsb', getLsbD_packFields, if_pos (by omega), Nat.zero_add,
    BitVec.getLsbD_eq_getElem]

@[simp] theorem argPresent_packFields : argPresent (packFields opc present isChar argf) = present := by
  rw [argPresent, getLsbD_packFields]; simp

@[simp] theorem argIsChar_packFields : argIsChar (packFields opc present isChar argf) = isChar := by
  rw [argIsChar, getLsbD_packFields]; simp

@[simp] theorem resField_packFields : resField (packFields opc present isChar argf) = 0 := by
  ext k hk
  rw [resField, BitVec.getElem_extractLsb', getLsbD_packFields, if_neg (by omega), if_neg (by omega),
    if_neg (by omega), if_pos (by omega)]
  simp

@[simp] theorem argField_packFields : argField (packFields opc present isChar argf) = argf := by
  ext k hk
  rw [argField, BitVec.getElem_extractLsb', getLsbD_packFields, if_neg (by omega), if_neg (by omega),
    if_neg (by omega), if_neg (by omega), Nat.add_sub_cancel_left, BitVec.getLsbD_eq_getElem]

end

/-- A word with RES = 0 is the pack of its fields. -/
theorem packFields_fields {w : InstrWord} (h : resField w = 0) :
    packFields (opcField w) (argPresent w) (argIsChar w) (argField w) = w := by
  refine BitVec.eq_of_getLsbD_eq fun k hk => ?_
  rw [getLsbD_packFields]
  by_cases h8 : k < 8
  · rw [if_pos h8, opcField, BitVec.getLsbD_extractLsb']; simp [h8]
  rw [if_neg h8]
  by_cases h9 : k = 8
  · rw [if_pos h9, h9, argPresent]
  rw [if_neg h9]
  by_cases h10 : k = 9
  · rw [if_pos h10, h10, argIsChar]
  rw [if_neg h10]
  by_cases h16 : k < 16
  · have := congrArg (fun b : BitVec 6 => b.getLsbD (k - 10)) h
    simp only [resField, BitVec.getLsbD_extractLsb', show k - 10 < 6 by omega, decide_true, Bool.true_and,
      show 10 + (k - 10) = k by omega] at this
    rw [if_pos h16, this]
    simp
  · rw [if_neg h16, argField, BitVec.getLsbD_extractLsb', show 16 + (k - 16) = k by omega]
    simp [show k - 16 < 32 by omega]

/-! ## Opcode numbers -/

@[simp] theorem ofNumber_number (op : Opcode) : Opcode.ofNumber op.number = some op := by cases op <;> rfl

/-- An opcode's number determines it, and it is the number it was found by. -/
theorem number_of_ofNumber {n : OpcodeNumber} {op : Opcode} (h : Opcode.ofNumber n = some op) : op.number = n := by
  revert n op
  decide +kernel

/-- A number names no opcode exactly when it is 0x00 or above 0x19. -/
theorem ofNumber_eq_none {n : OpcodeNumber} : Opcode.ofNumber n = none ↔ n.toNat = 0 ∨ 0x1A ≤ n.toNat := by
  revert n
  decide +kernel

end Sys2Proof
end

