-- ==== Sys2Proof/Laws/Loader.lean ====
section
/-! SUPPORT. The loader: opcode names, reading the items of a container, and the memory a load leaves. -/

namespace Sys2Proof.Machine

/-! ## Reading items -/

@[simp] theorem ofName_name (op : Opcode) : Opcode.ofName (Opcode.name op) = some op := by cases op <;> decide

/-- Looking a member up in an object without repeated names finds it wherever it stands. -/
theorem member_of_mem {ms : List (String × Json)} {name : String} {v : Json} (hn : (ms.map Prod.fst).Nodup)
    (h : (name, v) ∈ ms) : (Json.obj ms).member name = some v := by
  induction ms with
  | nil => cases h
  | cons m rest ih =>
    rw [List.map_cons, List.nodup_cons] at hn
    by_cases hm : m.1 = name
    · rcases List.mem_cons.1 h with rfl | h1
      · simp [Json.member]
      · exact absurd (List.mem_map.2 ⟨_, h1, hm.symm⟩) hn.1
    · rcases List.mem_cons.1 h with rfl | h1
      · exact absurd rfl hm
      · simpa [Json.member, hm] using ih hn.2 h1

/-- Looking up a name that no member has finds nothing. -/
theorem member_of_not_mem {ms : List (String × Json)} {name : String} (h : name ∉ ms.map Prod.fst) :
    (Json.obj ms).member name = none := by
  have : ms.find? (fun m => m.1 == name) = none := by
    rw [List.find?_eq_none]
    intro m hm he
    exact h (List.mem_map.2 ⟨m, hm, by simpa using he⟩)
  simp [Json.member, this]

@[simp] theorem readDatum_toInt (v : Word) : readDatum (.int v.toInt) = .ok v := by
  have : fitsWord v.toInt := fitsWord_toInt v
  simp [readDatum, this]

/-- A datum is refused exactly where it is no integer of the word range. -/
theorem readDatum_eq_error {j : Json} {e : ConfigError} :
    readDatum j = .error e ↔ e = .badContainer ∧ ∀ n, j = .int n → ¬ fitsWord n := by
  cases j with
  | int n =>
    simp only [readDatum, Json.int.injEq, forall_eq']
    split <;> simp_all [eq_comm (a := e)]
  | _ => simp [readDatum, eq_comm (a := e)]

/-- An argument is refused exactly where it is present, not `null`, no integer of the word range and no string of one
character. -/
theorem readArg_eq_error {a : Option Json} {e : ConfigError} :
    readArg a = .error e ↔ e = .badArgument ∧ ∃ j, a = some j ∧ j ≠ .null ∧ (∀ n, j = .int n → ¬ fitsWord n) ∧
      ∀ text, j = .str text → text.length ≠ 1 := by
  rcases a with _ | j
  · simp [readArg]
  cases j with
  | int n =>
    simp only [readArg, Option.some.injEq, exists_eq_left', Json.int.injEq, forall_eq']
    split <;> simp_all [eq_comm (a := e)]
  | str text =>
    rcases h : text.toList with _ | ⟨c, _ | ⟨d, rest⟩⟩ <;>
      simp [readArg, h, eq_comm (a := e), ← String.length_toList]
  | _ => simp [readArg, eq_comm (a := e)]

/-- A Term is refused exactly where it is present, not `null` and without the three members of their types. -/
theorem readTerm_eq_error {t : Option Json} {e : ConfigError} :
    readTerm t = .error e ↔ e = .badContainer ∧ ∃ j, t = some j ∧ j ≠ .null ∧ ∀ line context text,
      ¬ (j.member "line" = some (.int line) ∧ j.member "context" = some (.str context) ∧
        j.member "text" = some (.str text)) := by
  rcases t with _ | j
  · simp [readTerm]
  · by_cases hn : j = .null
    · subst hn; simp [readTerm]
    · rw [readTerm.eq_def]
      split
      · simp_all
      · simp_all
      · rename_i j' _ h
        cases h
        split <;> simp_all [eq_comm (a := e)]

/-- An opcode is a malformed container where the string is missing, and an unknown one where it is no opcode name. -/
theorem readOpcode_eq_error {j : Json} {e : ConfigError} :
    readOpcode j = .error e ↔
      (e = .badContainer ∧ ∀ name, j.member "opcode" ≠ some (.str name)) ∨
      (e = .unknownOpcode ∧ ∃ name, j.member "opcode" = some (.str name) ∧ Opcode.ofName name = none) := by
  unfold readOpcode
  split
  · rename_i name h
    cases ho : Opcode.ofName name <;> simp [h, ho, eq_comm]
  · rename_i h
    constructor
    · rintro ⟨⟩; exact .inl ⟨rfl, h⟩
    · rintro (⟨rfl, -⟩ | ⟨-, name, h1, -⟩)
      · rfl
      · exact absurd h1 (h name)

/-- An instruction object is read exactly where it has no error. -/
theorem readInstr_eq_none_iff (j : Json) : readInstr j = none ↔ instrErrors j ≠ [] := by
  unfold readInstr instrErrors
  cases readOpcode j <;> cases readArg (j.member "arg") <;> cases readTerm (j.member "term") <;> simp [readErrors]

theorem mem_readErrors {α : Type} {r : Except ConfigError α} {e : ConfigError} :
    e ∈ readErrors r ↔ r = .error e := by
  cases r <;> simp [readErrors, eq_comm]

theorem mem_instrErrors {j : Json} {e : ConfigError} : e ∈ instrErrors j ↔ readOpcode j = .error e ∨
    readArg (j.member "arg") = .error e ∨ readTerm (j.member "term") = .error e := by
  simp only [instrErrors, List.mem_append, mem_readErrors, or_assoc]

/-- Every configuration error is in the order of codes. -/
theorem mem_inOrder (e : ConfigError) : e ∈ ConfigError.inOrder := by cases e <;> decide

/-! ## The memory after a load -/

/-- Data word `k + j` of a load from `k` on lies at its address, and no other cell changes. -/
theorem word_loadDataFrom : ∀ (data : List Word) (m : Memory) (k a : Nat),
    (m.loadDataFrom k data).word a = if 2 + k ≤ a then data.getD (a - (2 + k)) (m.word a) else m.word a
  | [], m, k, a => by simp [Memory.loadDataFrom]
  | v :: rest, m, k, a => by
    rw [Memory.loadDataFrom, word_loadDataFrom rest, Memory.loadData, word_setWord]
    by_cases h1 : 2 + (k + 1) ≤ a
    · have h2 : a ≠ Config.dataBase + k := by simp only [Config.dataBase]; omega
      have h3 : a - (2 + k) = a - (2 + (k + 1)) + 1 := by omega
      rw [if_neg h2, if_pos h1, if_pos (by omega), h3, List.getD_cons_succ]
    · by_cases h2 : a = 2 + k
      · subst h2; rw [if_neg h1, if_pos rfl, if_pos le_rfl]; simp
      · rw [if_neg h1, if_neg h2, if_neg (by omega)]

@[simp] theorem instrWord_loadDataFrom : ∀ (data : List Word) (m : Memory) (k a : Nat),
    (m.loadDataFrom k data).instrWord a = m.instrWord a
  | [], _, _, _ => rfl
  | v :: rest, m, k, a => by
    rw [Memory.loadDataFrom, instrWord_loadDataFrom rest, Memory.loadData, instrWord_setWord]

@[simp] theorem word_loadProgramFrom : ∀ (program : List ContainerInstr) (m : Memory) (i a : Nat),
    (m.loadProgramFrom i program).word a = m.word a
  | [], _, _, _ => rfl
  | x :: rest, m, i, a => by
    rw [Memory.loadProgramFrom, word_loadProgramFrom rest, Memory.loadProgram, word_setInstrWord]

/-- Instruction `i + j` of a load from `i` on lies encoded at its address. -/
theorem instrWord_loadProgramFrom : ∀ (program : List ContainerInstr) (m : Memory) (i a : Nat),
    (m.loadProgramFrom i program).instrWord a = if 128 + i ≤ a then
      (program.map fun x => encodeParts x.op x.arg).getD (a - (128 + i)) (m.instrWord a) else m.instrWord a
  | [], m, i, a => by simp [Memory.loadProgramFrom]
  | x :: rest, m, i, a => by
    rw [Memory.loadProgramFrom, instrWord_loadProgramFrom rest, Memory.loadProgram, instrWord_setInstrWord]
    by_cases h1 : 128 + (i + 1) ≤ a
    · have h2 : a ≠ Config.programBase + i := by simp only [Config.programBase]; omega
      have h3 : a - (128 + i) = a - (128 + (i + 1)) + 1 := by omega
      rw [if_neg h2, if_pos h1, if_pos (by omega), h3, List.map_cons, List.getD_cons_succ]
    · by_cases h2 : a = 128 + i
      · subst h2; rw [if_neg h1, if_pos rfl, if_pos le_rfl]; simp
      · rw [if_neg h1, if_neg h2, if_neg (by omega)]

/-- A load of at most 126 data words keeps the canonical form. -/
theorem wf_loadDataFrom {size : Nat} : ∀ {data : List Word} {m : Memory} {k : Nat}, k + data.length ≤ 126 →
    m.wf size = true → (m.loadDataFrom k data).wf size = true
  | [], _, _, _, h => h
  | v :: rest, m, k, hk, h => by
    simp only [List.length_cons] at hk
    exact wf_loadDataFrom (m := m.loadData k v) (by omega) (wf_loadData v (show k < 126 by omega) h)

/-- A load of a program that fits keeps the canonical form. -/
theorem wf_loadProgramFrom {size : Nat} : ∀ {program : List ContainerInstr} {m : Memory} {i : Nat},
    128 + i + program.length ≤ size → m.wf size = true → (m.loadProgramFrom i program).wf size = true
  | [], _, _, _, h => h
  | x :: rest, m, i, hi, h => by
    simp only [List.length_cons] at hi
    exact wf_loadProgramFrom (m := m.loadProgram i (encodeParts x.op x.arg)) (by omega)
      (wf_loadProgram _ (show 128 + i < size by omega) h)

end Sys2Proof.Machine
end

