-- ==== Sys2Proof/Laws/PerInstr.lean ====
section
/-! SUPPORT. The per-instruction family `EncodedFields`: the fields of an instruction's encoding. -/

namespace Sys2Proof.Laws

/-- The encoding of `i` holds its opcode number, a 0 reserved field, and the presence, kind and value of its
argument. -/
def EncodedFields.Statement (i : Instr) : Prop :=
  opcField (encode i) = i.opcode.number ∧ resField (encode i) = 0 ∧
    argPresent (encode i) = i.arg.isSome ∧
    argIsChar (encode i) = (match i.arg with | some (.chr _) => true | _ => false) ∧
    argField (encode i) = (match i.arg with | some l => l.value | none => 0)

theorem encodeParts_fields (op : Opcode) (arg : Arg) :
    opcField (encodeParts op arg) = op.number ∧ resField (encodeParts op arg) = 0 ∧
      argPresent (encodeParts op arg) = arg.isSome ∧
      argIsChar (encodeParts op arg) = (match arg with | some (.chr _) => true | _ => false) ∧
      argField (encodeParts op arg) = (match arg with | some l => l.value | none => 0) := by
  rcases arg with _ | (n | c) <;> simp [encodeParts]

theorem EncodedFields.wrDir (arg : Arg) : EncodedFields.Statement (.wrDir arg) := encodeParts_fields _ _

theorem EncodedFields.wrNdr (arg : Arg) : EncodedFields.Statement (.wrNdr arg) := encodeParts_fields _ _

theorem EncodedFields.readDir (arg : Arg) : EncodedFields.Statement (.readDir arg) := encodeParts_fields _ _

theorem EncodedFields.readNdr (arg : Arg) : EncodedFields.Statement (.readNdr arg) := encodeParts_fields _ _

theorem EncodedFields.jmp (target : Word) : EncodedFields.Statement (.jmp target) := encodeParts_fields _ _

theorem EncodedFields.jnt (target : Word) : EncodedFields.Statement (.jnt target) := encodeParts_fields _ _

theorem EncodedFields.halt (arg : Arg) : EncodedFields.Statement (.halt arg) := encodeParts_fields _ _

theorem EncodedFields.beginMark (arg : Arg) : EncodedFields.Statement (.beginMark arg) := encodeParts_fields _ _

theorem EncodedFields.nop (arg : Arg) : EncodedFields.Statement (.nop arg) := encodeParts_fields _ _

theorem EncodedFields.mod (arg : Arg) : EncodedFields.Statement (.mod arg) := encodeParts_fields _ _

theorem EncodedFields.plus (arg : Arg) : EncodedFields.Statement (.plus arg) := encodeParts_fields _ _

theorem EncodedFields.minus (arg : Arg) : EncodedFields.Statement (.minus arg) := encodeParts_fields _ _

theorem EncodedFields.mult (arg : Arg) : EncodedFields.Statement (.mult arg) := encodeParts_fields _ _

theorem EncodedFields.div (arg : Arg) : EncodedFields.Statement (.div arg) := encodeParts_fields _ _

theorem EncodedFields.pow (arg : Arg) : EncodedFields.Statement (.pow arg) := encodeParts_fields _ _

theorem EncodedFields.lt (arg : Arg) : EncodedFields.Statement (.lt arg) := encodeParts_fields _ _

theorem EncodedFields.neg (arg : Arg) : EncodedFields.Statement (.neg arg) := encodeParts_fields _ _

theorem EncodedFields.invert (arg : Arg) : EncodedFields.Statement (.invert arg) := encodeParts_fields _ _

theorem EncodedFields.dup (arg : Arg) : EncodedFields.Statement (.dup arg) := encodeParts_fields _ _

theorem EncodedFields.overWord (arg : Arg) : EncodedFields.Statement (.overWord arg) := encodeParts_fields _ _

theorem EncodedFields.rot (arg : Arg) : EncodedFields.Statement (.rot arg) := encodeParts_fields _ _

theorem EncodedFields.swap (arg : Arg) : EncodedFields.Statement (.swap arg) := encodeParts_fields _ _

theorem EncodedFields.push (lit : Literal) : EncodedFields.Statement (.push lit) := encodeParts_fields _ _

theorem EncodedFields.drop (arg : Arg) : EncodedFields.Statement (.drop arg) := encodeParts_fields _ _

theorem EncodedFields.print (arg : Arg) : EncodedFields.Statement (.print arg) := encodeParts_fields _ _

end Sys2Proof.Laws
end

