-- ==== Sys2Proof/Tests/Slice0.lean ====
section
/-! SUPPORT. Tests, each one step on a small state with its expectation from the spec (the vectors of
95_test_vectors.md unless said otherwise), and a witness for the hypotheses of every statement that has some: the
concrete values of each of its clauses, at the ends of their ranges. -/

namespace Sys2Proof.Tests

-- One theorem at a time: the small kernel evaluations below start no thread each.
set_option Elab.async false

open Sys2Proof Sys2Proof.Machine

/-! ## Small states -/

/-- A state at CHECK with 200 words of memory and the given stack, bottom first. -/
def stacked (xs : List Word) : State :=
  { State.reset with
    phase := .check, status := 0x0001, memorySize := 200, programLength := 2, head := xs.length
    stack := (xs.zipIdx).foldl (fun st x => Cells.write st x.2 x.1) [] }

/-- A state of depth `n` with `v` under the top word `a`. -/
def deep (n : Nat) (v a : Word) : State :=
  { stacked [] with head := n, stack := Cells.write (Cells.write [] (n - 2) v) (n - 1) a }

/-- The state with a cell written. -/
def cell (a : Nat) (v : Word) (s : State) : State := { s with mem := s.mem.setWord a v }

/-- The state with an input queue. -/
def input (q : List Word) (s : State) : State := { s with inq := q }

/-- The state with a program word at the program counter's cell. -/
def fetching (w : InstrWord) (s : State) : State := { s with mem := s.mem.setInstrWord 128 w }

/-- The occupied slots of a state, bottom first. -/
def operands (s : State) : List Int := (List.range s.head).map fun i => (s.slot i).toInt

/-- What an outcome that is a next state shows of it. -/
def seen {α : Type} (f : State → α) : Result → Option α
  | .next t => some (f t)
  | _       => none

/-- The operands, ticks and retired count of a state. -/
def counted (t : State) : List Int × Nat × Nat := (operands t, t.ticks, t.retired)

/-- The cause code, fault information, ticks and operands of a state. -/
def faulted (t : State) : Nat × Int × Nat × List Int :=
  ((statusCause t.status).toNat, t.faultInfo.toInt, t.ticks, operands t)

/-! ## Well-formedness: each check refuses an ill-formed term (30_encoding.md R129 test 4) -/

theorem test_wellFormed_refuses_bad_push : (Instr.push (.chr 0x110000)).wellFormed = false := by decide

theorem test_wellFormed_accepts_largest_char : (Instr.push (.chr 0x10FFFF)).wellFormed = true := by decide

theorem test_wellFormed_refuses_bad_ignored_argument :
    ∀ mk ∈ [Instr.wrDir, .wrNdr, .readDir, .readNdr, .halt, .beginMark, .nop, .mod, .plus, .minus, .mult, .div, .pow,
      .lt, .neg, .invert, .dup, .overWord, .rot, .swap, .drop, .print],
      (mk (some (.chr 0x110000))).wellFormed = false ∧ (mk (some (.int 0x110000))).wellFormed = true := by decide

/-! ## Decoding: words written out from 30_encoding.md R124 and R125, one constructor each -/

theorem test_decode_memory_access :
    decode 0x000000000001 = .ok (.wrDir none) ∧ decode 0x000000050102 = .ok (.wrNdr (some (.int 5))) ∧
      decode 0x000000410303 = .ok (.readDir (some (.chr 65))) ∧ decode 0x000000000004 = .ok (.readNdr none) := by decide

theorem test_decode_control_flow :
    decode 0x000000030105 = .ok (.jmp 3) ∧ decode 0x000000120106 = .ok (.jnt 18) ∧
      decode 0x000000000007 = .ok (.halt none) ∧ decode 0x000000000008 = .ok (.beginMark none) ∧
      decode 0x000000050109 = .ok (.nop (some (.int 5))) := by decide

theorem test_decode_arith_logic :
    decode 0x00000000000A = .ok (.mod none) ∧ decode 0x00000000000B = .ok (.plus none) ∧
      decode 0x00000000000C = .ok (.minus none) ∧ decode 0x00000000000D = .ok (.mult none) ∧
      decode 0x00000000000E = .ok (.div none) ∧ decode 0x00000000000F = .ok (.pow none) ∧
      decode 0x000000000010 = .ok (.lt none) ∧ decode 0x000000000011 = .ok (.neg none) ∧
      decode 0x000000000012 = .ok (.invert none) := by decide

theorem test_decode_stack_shuffle :
    decode 0x000000000013 = .ok (.dup none) ∧ decode 0x000000000014 = .ok (.overWord none) ∧
      decode 0x000000000015 = .ok (.rot none) ∧ decode 0x000000000016 = .ok (.swap none) ∧
      decode 0xFFFFFFFD0117 = .ok (.push (.int (-3))) ∧ decode 0x0010FFFF0317 = .ok (.push (.chr 0x10FFFF)) ∧
      decode 0x000000000018 = .ok (.drop none) := by decide

theorem test_decode_io : decode 0x000000000019 = .ok (.print none) := by decide

/-- The illegal words of 95_test_vectors.md 2.1, each rejected by the test the vector names. -/
theorem test_decode_refuses :
    decode 0x000000000000 = .error .unknownOpcode ∧ decode 0x00000000001A = .error .unknownOpcode ∧
      decode 0x000000000409 = .error .reservedBits ∧ decode 0x000000050409 = .error .reservedBits ∧
      decode 0x000000050009 = .error .strayArgument ∧ decode 0x001100000317 = .error .charCodeRange ∧
      decode 0x000000000017 = .error .missingArgument ∧ decode 0x000000000006 = .error .missingArgument ∧
      decode 0x000000410305 = .error .charTarget := by decide

/-- The host's table numbering: a row of 48 bits, and a number too large for the cell. -/
theorem test_decodeTableWord :
    decodeTableWord 48 0x000000030105 = some (.jmp 3) ∧ decodeTableWord 8 0x0B = some (.plus none) ∧
      decodeTableWord 64 0x1000000000007 = none := by decide

/-! ## One step of each instruction -/

theorem test_wrDir_writes : seen (fun t => (counted t, t.mem.word 5)) (exec (.wrDir none) (stacked [7, 42, 5])) =
    some (([7], 2, 1), 42) := by decide

theorem test_wrDir_top_of_latch : seen faulted (exec (.wrDir none) (stacked [9, 200])) =
    some (0x08, 200, 1, [9, 200]) := by decide

theorem test_wrNdr_pointer_is_its_own_cell :
    seen (fun t => (counted t, t.mem.word 2)) (exec (.wrNdr none) (cell 2 2 (stacked [9, 2]))) =
      some (([], 5, 1), 3) := by decide

theorem test_wrNdr_write_back_to_input_port :
    seen (fun t => (faulted t, t.mem.word 0, t.mem.word 5)) (exec (.wrNdr none) (input [5] (stacked [9, 0]))) =
      some ((0x07, 0, 4, [9, 0, 5]), 5, 9) := by decide

theorem test_readDir_input : seen (fun t => (counted t, t.mem.word 0, t.inq))
    (exec (.readDir none) (input [65] (stacked [0]))) = some (([65], 2, 1), 65, []) := by decide

theorem test_readDir_exhausted : seen (fun t => (counted t, t.status)) (exec (.readDir none) (stacked [0])) =
    some (([0], 1, 0), 0x0006) := by decide

theorem test_readNdr_reads_and_increments :
    seen (fun t => (counted t, t.mem.word 2)) (exec (.readNdr none) (cell 10 7 (cell 2 10 (stacked [2])))) =
      some (([7], 5, 1), 11) := by decide

theorem test_readNdr_needs_headroom :
    seen (fun t => (t.head, (statusCause t.status).toNat, t.faultInfo, t.ticks))
      (exec (.readNdr none) (cell 2 10 (deep 254 0 2))) = some (255, 0x05, 1, 3) := by decide

theorem test_jmp_out_of_range : seen (fun t => (t.pc, t.ticks, t.retired)) (exec (.jmp (-1)) (stacked [])) =
    some (-1, 1, 1) := by decide

theorem test_jnt_one_is_false : seen (fun t => (counted t, t.pc)) (exec (.jnt 7) (stacked [1])) =
    some (([], 1, 1), 7) := by decide

theorem test_jnt_minus_one_falls_through : seen (fun t => (counted t, t.pc)) (exec (.jnt 7) (stacked [-1])) =
    some (([], 1, 1), 1) := by decide

theorem test_halt : seen (fun t => (counted t, t.pc, t.status)) (exec (.halt none) (stacked [3])) =
    some (([3], 0, 0), 0, 0x0006) := by decide

theorem test_begin : seen (fun t => (counted t, t.pc)) (exec (.beginMark none) (stacked [])) =
    some (([], 1, 1), 1) := by decide

theorem test_nop : seen (fun t => (counted t, t.pc)) (exec (.nop none) (stacked [4])) = some (([4], 1, 1), 1) := by
  decide

theorem test_mod_negative_divisor : seen counted (exec (.mod none) (stacked [7, -3])) = some ([-2], 2, 1) := by decide

theorem test_mod_by_zero : seen faulted (exec (.mod none) (stacked [5, 0])) = some (0x09, 5, 0, [5, 0]) := by decide

theorem test_plus : seen counted (exec (.plus none) (stacked [3, 4])) = some ([7], 2, 1) := by decide

theorem test_plus_overflows : seen faulted (exec (.plus none) (stacked [2147483647, 1])) =
    some (0x0B, 0, 0, [2147483647, 1]) := by decide

theorem test_minus : seen faulted (exec (.minus none) (stacked [9, 4])) = some (0x03, 0x0C, 0, [9, 4]) := by decide

theorem test_mult : seen counted (exec (.mult none) (stacked [6, -7])) = some ([-42], 2, 1) := by decide

theorem test_mult_overflows : seen faulted (exec (.mult none) (stacked [46341, 46341])) =
    some (0x0B, 0, 0, [46341, 46341]) := by decide

theorem test_div : seen faulted (exec (.div none) (stacked [9, 4])) = some (0x03, 0x0E, 0, [9, 4]) := by decide

theorem test_pow_base_on_top : seen counted (exec (.pow none) (stacked [3, 2])) = some ([8], 2, 1) := by decide

theorem test_pow_smallest_word : seen counted (exec (.pow none) (stacked [31, -2])) =
    some ([-2147483648], 2, 1) := by decide

theorem test_lt_is_signed : seen counted (exec (.lt none) (stacked [-1, 0])) = some ([-1], 2, 1) := by decide

theorem test_lt_equal : seen counted (exec (.lt none) (stacked [4, 4])) = some ([0], 2, 1) := by decide

theorem test_neg : seen counted (exec (.neg none) (stacked [5])) = some ([-5], 2, 1) := by decide

theorem test_neg_smallest_word : seen faulted (exec (.neg none) (stacked [-2147483648])) =
    some (0x0B, 0, 0, [-2147483648]) := by decide

theorem test_invert : seen counted (exec (.invert none) (stacked [5])) = some ([-6], 2, 1) := by decide

theorem test_dup : seen counted (exec (.dup none) (stacked [4, 9])) = some ([4, 9, 9], 1, 1) := by decide

theorem test_over : seen counted (exec (.overWord none) (stacked [4, 9])) = some ([4, 9, 4], 1, 1) := by decide

theorem test_rot : seen counted (exec (.rot none) (stacked [5, 6, 7, 8])) = some ([5, 6, 8, 7], 1, 1) := by decide

theorem test_rot_needs_three : seen faulted (exec (.rot none) (stacked [2, 3])) = some (0x04, 2, 0, [2, 3]) := by decide

theorem test_swap : seen counted (exec (.swap none) (stacked [4, 9])) = some ([9, 4], 1, 1) := by decide

theorem test_push_char : seen counted (exec (.push (.chr 65)) (stacked [])) = some ([65], 1, 1) := by decide

theorem test_push_full_stack : seen (fun t => (t.head, t.slot 255, (statusCause t.status).toNat, t.faultInfo))
    (exec (.push (.int 1)) (deep 255 0 0)) = some (255, 1, 0x05, 1) := by decide

theorem test_drop : seen counted (exec (.drop none) (stacked [4, 9])) = some ([4], 1, 1) := by decide

theorem test_drop_underflows : seen faulted (exec (.drop none) (stacked [])) = some (0x04, -1, 0, []) := by decide

theorem test_print : seen (fun t => (faulted t, t.outq)) (exec (.print none) (stacked [65])) =
    some ((0x03, 0x19, 0, [65]), []) := by decide

/-! ## The step, output and launch -/

/-- The fault record of 95_test_vectors.md P7's MINUS, through the step. -/
theorem test_step_fault_record :
    seen (fun t => (t.status, t.faultPc, t.faultOpc, t.faultTick, t.faultInfo))
      (step (fetching 0x00000000000C (stacked [9, 4]))) = some (0x003E, 0, 0x0C, 0, 0x0C) := by decide

/-- From reset with nothing placed the first macro-step fetches outside the empty program. -/
theorem test_reset_without_program :
    seen (fun t => (t.status, t.ticks)) (Host.Core.run Sys2Proof.core 2 State.reset) = some (0x001E, 0) := by decide

/-- A word placed for the first step after reset runs in it. -/
theorem test_withFetchWord : seen counted (step (State.reset.withFetchWord 48 0xFFFFFFFF0117)) = some ([-1], 1, 1) := by
  decide

theorem test_output_text : outputText [token 65, token 200, token (-5), token 0, token (-2147483648)] =
    ['A', '2', '0', '0', '-', '5', Char.ofNat 0, '-', '2', '1', '4', '7', '4', '8', '3', '6', '4', '8'] := by
  decide +kernel

/-- The refusals of 95_test_vectors.md 2.2, by code. -/
theorem test_refusals :
    (refusal (containerJson [] [⟨.nop, none, none⟩, ⟨.halt, none, none⟩]) 130 5 = some .memoryTooSmall) ∧
      (refusal (containerJson [] [⟨.nop, none, none⟩, ⟨.halt, none, none⟩]) 131 5 = none) ∧
      (refusal (.obj [("data", .arr [.int 1])]) 131 5 = some .badContainer) ∧
      (refusal (.obj [("instructions", .arr [.obj [("opcode", .str "Plus")]])]) 131 5 = some .unknownOpcode) ∧
      (refusal (.obj [("instructions", .arr [.obj [("opcode", .str "PUSH"), ("arg", .str "ab")]])]) 131 5 =
        some .badArgument) ∧
      (refusal (.obj [("instructions", .arr [.obj [("opcode", .str "JMP")]])]) 131 5 = none) ∧
      (refusal (.obj [("instructions", .arr [.obj [("opcode", .str "JMP")]])]) 131 (2 ^ 61 + 1) =
        some .badParameter) := by decide +kernel

/-! ## Witnesses: concrete values that meet the hypotheses of each statement, clause by clause -/

/-- A property of each word of a list of values. -/
abbrev Each (l : List Int) (p : Word → Prop) : Prop := ∀ z ∈ l, p (BitVec.ofInt 32 z)

/-- A property of each pair of words. -/
abbrev EachPair (l : List (Int × Int)) (p : Word → Word → Prop) : Prop :=
  ∀ z ∈ l, p (BitVec.ofInt 32 z.1) (BitVec.ofInt 32 z.2)

/-- The state has the operands `v` and `a` on top, as a statement's premises read them. -/
abbrev Operands (s : State) (v a : Word) : Prop :=
  s.head < 256 ∧ s.slot (s.head - 1) = a ∧ s.slot (s.head - 2) = v

theorem witness_DecodeOfEncodeIsIdentity : (Instr.push (.chr 0x10FFFF)).wellFormed = true := by decide +kernel

theorem witness_EncodeOfDecodeIsIdentity : decode 0xFFFFFFFF0117 = .ok (.push (.int (-1))) := by decide +kernel

theorem witness_ContainerAndImageRoundTrip :
    ∀ x ∈ [ContainerInstr.mk .push (some (.chr 65)) none], ∀ c, x.arg = some (.chr c) → c.toNat.isValidChar := by
  simp only [List.mem_singleton]
  rintro x rfl c h
  cases h
  decide +kernel

theorem witness_StackPrimitivesFollowTheirRules :
    (stacked []).head < 256 ∧ (stacked []).head ≤ (0 : Fin 4).val ∧
      (stacked [1, 2, 3, 4]).head < 256 ∧ (3 : Fin 4).val < (stacked [1, 2, 3, 4]).head ∧
      ((stacked [1]).head : Int) + HeadDelta.dec2.toInt < 0 ∧ (deep 255 0 0).head < 256 ∧
      256 ≤ ((deep 255 0 0).head : Int) + HeadDelta.inc1.toInt ∧ (deep 255 0 0).head = 255 ∧
      0 ≤ ((deep 255 0 0).head : Int) + HeadDelta.dec3.toInt ∧
      ((deep 255 0 0).head : Int) + HeadDelta.dec3.toInt < 256 ∧ (deep 254 0 0).head < 255 := by decide +kernel

/-- MAR at each part of the partition, and addresses at the ends of the latch's range. -/
theorem witness_LatchAndReadFollowTheirRules :
    (Each [-1, 201] fun a => a.toInt < 0 ∨ ((stacked []).memorySize : Int) < a.toInt) ∧
      (Each [0, 200] fun a => 0 ≤ a.toInt ∧ a.toInt ≤ (stacked []).memorySize) ∧
      ((stacked []).setMar 1).mar = 1 ∧ ((input [5] (stacked [])).setMar 0).mar = 0 ∧
      ((input [5] (stacked [])).setMar 0).inq = [5] ∧ ((stacked []).setMar 0).inq = [] ∧
      (Each [2, 127] fun a => 2 ≤ ((stacked []).setMar a).mar.toInt ∧ ((stacked []).setMar a).mar.toInt ≤ 127) ∧
      Each [128, 200] fun a => 128 ≤ ((stacked []).setMar a).mar.toInt := by decide +kernel

theorem witness_WriteFollowsThePartition :
    ((stacked []).setMar 0).mar = 0 ∧ ((stacked []).setMar 1).mar = 1 ∧
      (Each [2, 127] fun a => 2 ≤ ((stacked []).setMar a).mar.toInt ∧ ((stacked []).setMar a).mar.toInt ≤ 127) ∧
      Each [128, 200] fun a => 128 ≤ ((stacked []).setMar a).mar.toInt := by decide +kernel

theorem witness_TokenAndItsTextFollowTheirRule :
    (Each [0, 127] fun v => 0 ≤ v.toInt ∧ v.toInt ≤ 127) ∧ (-1 : Word).toInt < 0 ∧ 127 < (128 : Word).toInt ∧
      (((stacked []).halted .normal 0).phase = .stopped ∧ statusWhy ((stacked []).halted .normal 0).status = 1) ∧
      (((stacked []).halted .ceiling 0).phase = .stopped ∧ statusWhy ((stacked []).halted .ceiling 0).status = 2) ∧
      (stacked []).phase ≠ .stopped ∧ statusWhy ((stacked []).takeFault .stackOverflow 1 0).status = 3 := by
  decide +kernel

theorem witness_WrDirRule :
    (Each [2, 127] fun a => Operands (stacked [7, a]) 7 a ∧ 2 ≤ (stacked [7, a]).head ∧ 2 ≤ a.toInt ∧
      a.toInt ≤ 127 ∧ (stacked [7, a]).latchable a) ∧
    (Operands (stacked [7, 1]) 7 1 ∧ (stacked [7, 1]).latchable 1) ∧
    (Operands (stacked []) 0 0 ∧ (stacked []).head = 0) := by decide +kernel

theorem witness_WrDirRule_stops :
    (Each [-1, 201] fun a => Operands (stacked [7, a]) 7 a ∧ 1 ≤ (stacked [7, a]).head ∧
      ¬ (stacked [7, a]).latchable a) ∧
    (Each [0, 200] fun a => Operands (stacked [a]) a a ∧ (stacked [a]).head = 1 ∧ (stacked [a]).latchable a) ∧
    (Operands (stacked [7, 0]) 7 0 ∧ 2 ≤ (stacked [7, 0]).head) ∧
    Each [128, 200] fun a => Operands (stacked [7, a]) 7 a ∧ 128 ≤ a.toInt ∧ (stacked [7, a]).latchable a := by
  decide +kernel

theorem witness_ReadDirRule :
    (Each [2, 127, 1, 128, 200] fun a => (stacked [a]).head < 256 ∧ (stacked [a]).slot ((stacked [a]).head - 1) = a ∧
      1 ≤ (stacked [a]).head ∧ (stacked [a]).latchable a) ∧
    (2 ≤ (2 : Word).toInt ∧ (127 : Word).toInt ≤ 127 ∧ 128 ≤ (128 : Word).toInt ∧ 128 ≤ (200 : Word).toInt) ∧
    ((input [65] (stacked [0])).slot 0 = 0 ∧ (input [65] (stacked [0])).inq = [65] ∧ (stacked [0]).inq = []) ∧
    ((stacked []).head = 0 ∧ (stacked []).slot ((stacked []).head - 1) = 0) ∧
    Each [-1, 201] fun a => (stacked [a]).slot ((stacked [a]).head - 1) = a ∧ ¬ (stacked [a]).latchable a := by
  decide +kernel

/-- The pointer `p` in each of its two clauses, at the smallest and the largest depth. -/
theorem witness_WrNdrCompletes :
    Each [1, 2, 127] fun p => ∀ n ∈ [2, 254], Each [2, 127] fun pa =>
      let s := cell pa.toNat p (deep n 9 pa)
      2 ≤ s.head ∧ s.head ≤ 254 ∧ s.slot (s.head - 1) = pa ∧ s.slot (s.head - 2) = 9 ∧ 2 ≤ pa.toInt ∧
        pa.toInt ≤ 127 ∧ s.latchable pa ∧ s.mem.word pa.toNat = p ∧ s.latchable p ∧
        s.memorySize ≤ Config.maxMemorySize := by decide +kernel

theorem witness_WrNdrStopsReadingThePointer :
    ((stacked []).head < 2 ∧ (stacked []).slot ((stacked []).head - 1) = 0 ∧ (stacked [9]).head < 2) ∧
    (Each [-1, 201] fun pa => (stacked [9, pa]).slot 1 = pa ∧ ¬ (stacked [9, pa]).latchable pa) ∧
    (Each [1, 128, 200] fun pa => (stacked [9, pa]).slot 1 = pa ∧ (stacked [9, pa]).latchable pa) ∧
    (2 ≤ (stacked [9, 0]).head ∧ (stacked [9, 0]).slot 1 = 0 ∧ (stacked [9, 0]).inq = []) ∧
    (Each [2, 127] fun pa => (deep 255 9 pa).head = 255 ∧ (deep 255 9 pa).slot 254 = pa ∧
      (deep 255 9 pa).latchable pa) ∧
    ReadGives (deep 255 9 2) 2 0 (deep 255 9 2).mem [] ∧ ReadGives (deep 255 9 127) 127 0 (deep 255 9 127).mem [] ∧
    ReadGives (input [7] (deep 255 9 0)) 0 7 ((deep 255 9 0).mem.setWord 0 7) [] := by
  refine ⟨by decide +kernel, by decide +kernel, by decide +kernel, by decide +kernel, by decide +kernel, .inl ?_,
    .inl ?_, .inr ⟨rfl, rfl, rfl⟩⟩ <;>
  exact ⟨by decide +kernel, by decide +kernel, by decide +kernel, rfl, rfl⟩

/-- A read of a data cell and a read of the input port, the two ways `ReadGives` holds. -/
theorem witness_ReadGives :
    ReadGives (cell 2 10 (stacked [9, 2])) 2 10 (cell 2 10 (stacked [9, 2])).mem [] ∧
      ReadGives (input [5] (stacked [9, 0])) 0 5 ((stacked []).mem.setWord 0 5) [] :=
  ⟨.inl ⟨by decide +kernel, by decide +kernel, by decide +kernel, rfl, rfl⟩, .inr ⟨rfl, rfl, rfl⟩⟩

/-- The pointer cell 2 holding each pointer, and the input port giving a pointer to write through. -/
theorem witness_WrNdrStopsUsingThePointer :
    (Each [-1, 201, 0, 128, 200] fun p => ReadGives (cell 2 p (stacked [9, 2])) 2 p (cell 2 p (stacked [9, 2])).mem []) ∧
    (Each [-1, 201] fun p => ¬ (cell 2 p (stacked [9, 2])).latchable p) ∧
    (Each [128, 200] fun p => (cell 2 p (stacked [9, 2])).latchable p ∧ 128 ≤ p.toInt) ∧
    Each [1, 2, 127] fun p => ReadGives (input [p] (stacked [9, 0])) 0 p ((stacked []).mem.setWord 0 p) [] ∧
      (input [p] (stacked [9, 0])).latchable p ∧ (input [p] (stacked [9, 0])).slot 1 = 0 ∧
      (input [p] (stacked [9, 0])).slot 0 = 9 ∧ 2 ≤ (input [p] (stacked [9, 0])).head ∧
      (input [p] (stacked [9, 0])).memorySize ≤ Config.maxMemorySize := by
  refine ⟨fun p hp => .inl ?_, by decide +kernel, by decide +kernel, fun p hp => ⟨.inr ⟨rfl, rfl, rfl⟩, ?_⟩⟩
  · exact ⟨by decide +kernel, by decide +kernel, by revert p; decide +kernel, rfl, rfl⟩
  · revert p; decide +kernel

/-- A pointer to a data cell and one to the input port, at the smallest and the largest depth. -/
theorem witness_ReadNdrCompletes :
    (Each [2, 127, 0] fun p => ∀ n ∈ [1, 253], Each [2, 127] fun pa =>
      let s := input [8] (cell pa.toNat p (deep n 0 pa))
      1 ≤ s.head ∧ s.head ≤ 253 ∧ s.slot (s.head - 1) = pa ∧ 2 ≤ pa.toInt ∧ pa.toInt ≤ 127 ∧ s.latchable pa ∧
        s.mem.word pa.toNat = p ∧ s.latchable p ∧ s.memorySize ≤ Config.maxMemorySize) ∧
    ReadGives (cell 2 127 (stacked [2])) 127 0 (cell 2 127 (stacked [2])).mem [] ∧
    ReadGives (input [8] (cell 2 0 (stacked [2]))) 0 8 ((cell 2 0 (stacked [2])).mem.setWord 0 8) [] :=
  ⟨by decide +kernel, .inl ⟨by decide +kernel, by decide +kernel, by decide +kernel, rfl, rfl⟩, .inr ⟨rfl, rfl, rfl⟩⟩

theorem witness_ReadNdrStopsReadingThePointer :
    ((stacked []).head = 0 ∧ (stacked []).slot ((stacked []).head - 1) = 0) ∧
    (Each [-1, 201] fun pa => (stacked [pa]).slot 0 = pa ∧ ¬ (stacked [pa]).latchable pa) ∧
    (Each [1, 128, 200] fun pa => (stacked [pa]).slot 0 = pa ∧ (stacked [pa]).latchable pa) ∧
    (1 ≤ (stacked [0]).head ∧ (stacked [0]).slot 0 = 0 ∧ (stacked [0]).inq = []) ∧
    (Each [2, 127] fun pa => (deep 255 9 pa).head = 255 ∧ (deep 255 9 pa).slot 254 = pa ∧
      (deep 255 9 pa).latchable pa) ∧
    ReadGives (deep 255 9 2) 2 0 (deep 255 9 2).mem [] ∧ ReadGives (deep 255 9 127) 127 0 (deep 255 9 127).mem [] ∧
    ReadGives (input [7] (deep 255 9 0)) 0 7 ((deep 255 9 0).mem.setWord 0 7) [] := by
  refine ⟨by decide +kernel, by decide +kernel, by decide +kernel, by decide +kernel, by decide +kernel, .inl ?_,
    .inl ?_, .inr ⟨rfl, rfl, rfl⟩⟩ <;>
  exact ⟨by decide +kernel, by decide +kernel, by decide +kernel, rfl, rfl⟩

/-- Each clause's pointer, read from cell 2 or from the input port. -/
theorem witness_ReadNdrStopsUsingThePointer :
    (Each [-1, 201, 1, 128, 200, 0] fun p => ReadGives (cell 2 p (stacked [2])) 2 p (cell 2 p (stacked [2])).mem []) ∧
    (Each [-1, 201] fun p => ¬ (cell 2 p (stacked [2])).latchable p) ∧
    (Each [1, 128, 200] fun p => (cell 2 p (stacked [2])).latchable p) ∧
    ((cell 2 10 (deep 254 0 2)).head = 254 ∧ ReadGives (cell 2 10 (deep 254 0 2)) 2 10 (cell 2 10 (deep 254 0 2)).mem [] ∧
      ReadGives (cell 2 10 (deep 254 0 2)) 10 0 (cell 2 10 (deep 254 0 2)).mem []) ∧
    ReadGives (input [5] (deep 253 9 0)) 0 5 ((stacked []).mem.setWord 0 5) [] ∧
    ReadGives ({ input [] (deep 253 9 0) with mem := (stacked []).mem.setWord 0 5 } : State) 5 0
      ((stacked []).mem.setWord 0 5) [] ∧
    (deep 253 9 0).slot 252 = 0 ∧ (deep 253 9 0).latchable 5 := by
  refine ⟨fun p hp => .inl ?_, by decide +kernel, by decide +kernel, ⟨rfl, .inl ?_, .inl ?_⟩, .inr ⟨rfl, rfl, rfl⟩, .inl ?_,
    by decide +kernel, by decide +kernel⟩
  · exact ⟨by decide +kernel, by decide +kernel, by revert p; decide +kernel, rfl, rfl⟩
  · exact ⟨by decide +kernel, by decide +kernel, by decide +kernel, rfl, rfl⟩
  · exact ⟨by decide +kernel, by decide +kernel, by decide +kernel, rfl, rfl⟩
  · exact ⟨by decide +kernel, by decide +kernel, by decide +kernel, rfl, rfl⟩

theorem witness_OnlyTheStoredCellsChange :
    (cell 2 10 (stacked [9, 2])).slot ((cell 2 10 (stacked [9, 2])).head - 1) = 2 ∧
      (10 : Word) = (if (2 : Word) = 0 then (cell 2 10 (stacked [9, 2])).inq.headD 0
        else (cell 2 10 (stacked [9, 2])).mem.word (2 : Word).toNat) ∧
      seen (fun t => t.mem.word 10) (exec (.wrNdr none) (cell 2 10 (stacked [9, 2]))) = some 9 ∧
      seen (fun t => t.mem.word 2) (exec (.readNdr none) (cell 2 10 (stacked [9, 2]))) = some 11 ∧
      seen (fun t => t.mem.word 2) (exec (.wrDir none) (cell 2 10 (stacked [9, 2]))) = some 9 ∧
      seen (fun t => t.mem.word 2) (exec (.readDir none) (cell 2 10 (stacked [9, 2]))) = some 10 := by decide +kernel

/-- The targets next to the program's ends, one on each side, and the range of character arguments. -/
theorem witness_JmpRule :
    (Each [-1, 2] fun target => (target.toInt < 0 ∨ ((stacked []).programLength : Int) ≤ target.toInt) ∧
      (stacked []).retired + 1 < (stacked []).ceiling) ∧
    (0x10FFFF : Word).toNat ≤ 0x10FFFF ∧ (0 : Word).toNat ≤ 0x10FFFF := by decide +kernel

theorem witness_JntRule :
    (1 ≤ (stacked [-1]).head ∧ (stacked [-1]).head < 256 ∧ (stacked [-1]).slot ((stacked [-1]).head - 1) = -1) ∧
    (1 ≤ (stacked [0]).head ∧ (stacked [0]).slot ((stacked [0]).head - 1) ≠ -1) ∧ (stacked []).head = 0 ∧
    (Each [-1, 2] fun target => (target.toInt < 0 ∨ ((stacked []).programLength : Int) ≤ target.toInt) ∧
      (stacked []).retired + 1 < (stacked []).ceiling) ∧
    (0x10FFFF : Word).toNat ≤ 0x10FFFF := by decide +kernel

theorem witness_PlusRule :
    (EachPair [(2147483646, 1), (-2147483647, -1)] fun b a => Operands (stacked [b, a]) b a ∧
      2 ≤ (stacked [b, a]).head ∧ minWord ≤ b.toInt + a.toInt ∧ b.toInt + a.toInt ≤ maxWord) ∧
    (EachPair [(2147483647, 1), (-2147483648, -1)] fun b a => Operands (stacked [b, a]) b a ∧
      (b.toInt + a.toInt < minWord ∨ maxWord < b.toInt + a.toInt)) ∧
    (Operands (stacked []) 0 0 ∧ Operands (stacked [4]) 4 4 ∧ (stacked [4]).head < 2) := by decide +kernel

theorem witness_MultRule :
    (EachPair [(46340, 46340), (-2147483648, 1)] fun b a => Operands (stacked [b, a]) b a ∧
      2 ≤ (stacked [b, a]).head ∧ minWord ≤ b.toInt * a.toInt ∧ b.toInt * a.toInt ≤ maxWord) ∧
    (EachPair [(46341, 46341), (-2147483648, -1)] fun b a => Operands (stacked [b, a]) b a ∧
      (b.toInt * a.toInt < minWord ∨ maxWord < b.toInt * a.toInt)) ∧
    (Operands (stacked []) 0 0 ∧ Operands (stacked [4]) 4 4 ∧ (stacked [4]).head < 2) := by decide +kernel

theorem witness_ModRule :
    (Each [3, -3, -1, 2147483647] fun a => Operands (stacked [7, a]) 7 a ∧ 2 ≤ (stacked [7, a]).head ∧ a ≠ 0) ∧
    (Operands (stacked [5, 0]) 5 0 ∧ 2 ≤ (stacked [5, 0]).head) ∧ (stacked [4]).head < 2 := by decide +kernel

theorem witness_PowRule :
    (EachPair [(31, -2), (0, 0)] fun b a => Operands (stacked [b, a]) b a ∧ 0 ≤ b.toInt ∧
      minWord ≤ a.toInt ^ b.toInt.toNat ∧ a.toInt ^ b.toInt.toNat ≤ maxWord) ∧
    (Operands (stacked [31, 2]) 31 2 ∧ 0 ≤ (31 : Word).toInt ∧ maxWord < (2 : Word).toInt ^ (31 : Word).toInt.toNat) ∧
    (Operands (stacked [-1, 5]) (-1) 5 ∧ (-1 : Word).toInt < 0) ∧ (stacked [4]).head < 2 := by decide +kernel

theorem witness_LtRule :
    (Operands (stacked [3, 4]) 3 4 ∧ (3 : Word).toInt < (4 : Word).toInt) ∧
    (Operands (stacked [4, 4]) 4 4 ∧ (4 : Word).toInt ≤ (4 : Word).toInt) ∧ (stacked [4]).head < 2 := by decide +kernel

theorem witness_NegRule :
    (Each [-2147483647, 2147483647] fun a => (stacked [a]).slot ((stacked [a]).head - 1) = a ∧
      1 ≤ (stacked [a]).head ∧ a.toInt ≠ minWord) ∧
    ((stacked [-2147483648]).slot 0 = -2147483648 ∧ (-2147483648 : Word).toInt = minWord) ∧ (stacked []).head = 0 := by
  decide +kernel

theorem witness_InvertRule :
    (stacked [5]).slot ((stacked [5]).head - 1) = 5 ∧ 1 ≤ (stacked [5]).head ∧ (stacked [5]).head < 256 ∧
      (stacked []).head = 0 := by decide +kernel

theorem witness_UnimplementedOpcodesFault :
    Arg.wellFormed none = true ∧ Arg.wellFormed (some (.chr 0x10FFFF)) = true := by decide +kernel

theorem witness_DupAndOverRule :
    (∀ n ∈ [2, 254], Operands (deep n 4 9) 4 9 ∧ 2 ≤ (deep n 4 9).head ∧ (deep n 4 9).head ≤ 254) ∧
    (Operands (stacked [9]) 9 9 ∧ 1 ≤ (stacked [9]).head ∧ (stacked [9]).head < 2) ∧
    (Operands (stacked []) 0 0 ∧ (stacked []).head = 0) ∧ (Operands (deep 255 4 9) 4 9 ∧ (deep 255 4 9).head = 255) := by
  decide +kernel

theorem witness_RotAndSwapRule :
    (∀ n ∈ [3, 255], Operands (deep n 4 9) 4 9 ∧ 3 ≤ (deep n 4 9).head) ∧
    (Operands (stacked [4, 9]) 4 9 ∧ 2 ≤ (stacked [4, 9]).head ∧ (stacked [4, 9]).head < 3) ∧
    (Operands (stacked [4]) 4 4 ∧ (stacked [4]).head < 2) := by decide +kernel

theorem witness_PushRule :
    (deep 254 0 0).head ≤ 254 ∧ (deep 255 0 0).head = 255 ∧ (deep 255 0 0).head < 256 ∧
      (-2147483649 : Int) < minWord ∧ maxWord < (2147483648 : Int) := by decide +kernel

theorem witness_DropRule :
    1 ≤ (deep 255 0 0).head ∧ (deep 255 0 0).head < 256 ∧ (stacked []).head = 0 ∧ (stacked []).head < 256 := by
  decide +kernel

theorem witness_FaultsArePrecise :
    (fetching 0x00000000000B (stacked [4])).phase = .check ∧
      step (fetching 0x00000000000B (stacked [4])) =
        .next (((fetching 0x00000000000B (stacked [4])).issue (.plus none)).takeFault .stackUnderflow 1 0x0B) ∧
      (((fetching 0x00000000000B (stacked [4])).issue (.plus none)).takeFault .stackUnderflow 1 0x0B).endedFault :=
  ⟨rfl, rfl, by decide +kernel⟩

theorem witness_NormalEndsAreHaltOrExhaustion :
    (fetching 0x000000000003 (stacked [0])).phase = .check ∧
      seen (fun t => decide t.endedNormal) (step (fetching 0x000000000003 (stacked [0]))) = some true ∧
      seen (fun t => decide t.endedNormal) (step (fetching 0x000000000007 (stacked []))) = some true := by
  decide +kernel

theorem witness_ExhaustionComesBeforeOverflow :
    (deep 255 9 0).head = 255 ∧ (deep 255 9 0).slot 254 = 0 ∧ (deep 255 9 0).inq = [] := by decide +kernel

/-- Index 0, and the last index of the program. -/
theorem witness_StepRunsTheDecodedInstruction :
    Each [0, 1] fun p =>
      let s : State := { stacked [3, 4] with pc := p, mem := (stacked []).mem.setInstrWord (128 + p.toNat) 0x0B }
      s.phase = .check ∧ s.retired < s.ceiling ∧ 0 ≤ s.pc.toInt ∧ s.pc.toInt < s.programLength ∧
        128 + s.pc.toInt < s.memorySize ∧ decode (s.mem.instrWord (128 + s.pc.toNat)) = .ok (.plus none) := by
  decide +kernel

theorem witness_ChecksBeforeExecution :
    ((stacked []).phase = .check ∧ ({ stacked [] with retired := 3, ceiling := 3 } : State).ceiling ≤ 3) ∧
    (Each [-1, 2] fun p => (stacked []).retired < (stacked []).ceiling ∧
      (p.toInt < 0 ∨ ((stacked []).programLength : Int) ≤ p.toInt)) ∧
    (0 ≤ (stacked []).pc.toInt ∧ (stacked []).pc.toInt < (stacked []).programLength ∧
      128 + (stacked []).pc.toInt < (stacked []).memorySize ∧
      (fetching 0x1A (stacked [])).mem.instrWord (128 + (stacked []).pc.toNat) = 0x1A ∧
      decode 0x1A = .error .unknownOpcode) := by decide +kernel

theorem witness_StartAndStoppedSteps :
    (State.reset.phase = .ready ∧ State.reset.status = 0) ∧ ((stacked []).halted .normal 0).phase = .stopped := by
  decide +kernel

theorem witness_EdgeCasesOfARun :
    0 < 1 ∧ (∃ s : State, s.phase = .check ∧ s.retired = s.ceiling ∧ fetch s = .ok (encode (.halt none))) :=
  ⟨by decide +kernel, { fetching 0x07 (stacked []) with ceiling := 0 }, rfl, rfl, rfl⟩

theorem witness_StepIsTheFsmRunToTheNextCheck : (stacked []).phase = .check := rfl

theorem witness_EveryRunStopsWithinItsCeiling : (fetching 0x000000000105 (stacked [])).phase = .check := rfl

theorem witness_CompletedInstructionAccounting :
    (fetching 0x00000000000B (stacked [3, 4])).phase = .check ∧
      seen (fun t => t.phase) (step (fetching 0x00000000000B (stacked [3, 4]))) = some .check := by decide +kernel

/-- A stop in T2, one in T1, and a ceiling stop before a decodable instruction. -/
theorem witness_StoppedInstructionAccounting :
    ((fetching 0x000000000001 (stacked [0])).phase = .check ∧
      seen (fun t => (t.phase, t.ticks)) (step (fetching 0x000000000001 (stacked [0]))) = some (.stopped, 1)) ∧
    seen (fun t => (t.phase, t.ticks)) (step (fetching 0x00000000000B (stacked []))) = some (.stopped, 0) ∧
    seen (fun t => (t.phase, t.ticks)) (step (fetching 0x00000000000B { stacked [3, 4] with ceiling := 0 })) =
      some (.stopped, 0) := by
  decide +kernel

/-- A completion at the largest depth, a fault that is no stack fault at the smallest, and none at all. -/
theorem witness_DepthTableHolds :
    (seen (fun t => t.phase) (exec (.push (.int 1)) (deep 254 0 0)) = some .check ∧
      minHead (.push (.int 1)) ≤ (deep 254 0 0).head ∧ (deep 254 0 0).head ≤ maxHead (.push (.int 1))) ∧
    (seen (fun t => decide t.endedFault) (exec (.mod none) (stacked [5, 0])) = some true ∧
      minHead (.mod none) ≤ (stacked [5, 0]).head ∧ (stacked [5, 0]).head ≤ maxHead (.mod none)) := by decide +kernel

/-- The invariant holds in a running state, and the step from it answers. -/
theorem witness_StepKeepsInvariant :
    (fetching 0x00000000000B (stacked [3, 4])).Inv ∧
      seen counted (step (fetching 0x00000000000B (stacked [3, 4]))) = some ([7], 2, 1) := by decide +kernel

theorem witness_StepAnswersUnderInvariant : (stacked [3, 4]).Inv := by decide +kernel

theorem witness_ProgramIsFixed :
    seen (fun t => t.phase) (step (fetching 0x000000000001 (stacked [9, 2]))) = some .check := by decide +kernel

theorem witness_OutputOnlyGrowsInputOnlyShrinks :
    seen (fun t => t.outq) (step (fetching 0x000000000001 (stacked [65, 1]))) = some [.char 65] := by decide +kernel

theorem witness_OnlyMemoryAccessTouchesMemory :
    seen counted (exec (.plus none) (stacked [3, 4])) = some ([7], 2, 1) ∧
      ∀ arg, Instr.plus none ≠ .wrDir arg ∧ Instr.plus none ≠ .wrNdr arg ∧ Instr.plus none ≠ .readDir arg ∧
        Instr.plus none ≠ .readNdr arg := ⟨by decide +kernel, fun _ => ⟨nofun, nofun, nofun, nofun⟩⟩

/-- Two states that differ in an unoccupied slot, MAR and ACC. -/
theorem witness_UnobservableElementsHaveNoEffect :
    (stacked [3, 4]).betweenSteps ∧
      SameVisible (stacked [3, 4]) (((((stacked [3, 4]).setSlot 2 9).setMar 5).setAcc 6)) := by
  refine ⟨by decide +kernel, ?_⟩
  constructor <;> first | rfl | skip
  · intro i hi
    have h : i = 0 ∨ i = 1 := by
      have : i < 2 := hi
      omega
    rcases h with rfl | rfl <;> decide
  · intro a; rfl
  · intro i _; rfl

/-- A container with one instruction object of the given members. -/
def single (members : List (String × Json)) : Json := .obj [("instructions", .arr [.obj members])]

/-- A container with the given data items and no instruction. -/
def holding (items : List Json) : Json := .obj [("data", .arr items), ("instructions", .arr [])]

theorem witness_RefusalReportsTheLowestCode :
    refusal (single [("opcode", .str "Plus")]) 129 0 = some .memoryTooSmall ∧
      configErrors (single [("opcode", .str "Plus")]) 129 0 = [.memoryTooSmall, .unknownOpcode] := by decide +kernel

/-- The lengths, the container, the data and the parameters at the ends of their ranges. -/
theorem witness_RefusalReportsTheLowestCode_container :
    (refusal (holding []) 128 0 = some .memoryTooSmall ∧ refusal (holding []) 129 0 = none) ∧
    (refusal (holding (List.replicate 127 .null)) 129 0 = some .dataTooLong ∧
      refusal (holding (List.replicate 126 (.int 1))) 129 0 = none) ∧
    (refusal (.obj [("instructions", .null)]) 129 0 = some .badContainer ∧
      refusal (.obj [("instructions", .arr []), ("data", .null)]) 129 0 = some .badContainer) ∧
    (refusal (holding [.int (-2147483649)]) 129 0 = some .badContainer ∧
      refusal (holding [.int 2147483648]) 129 0 = some .badContainer ∧
      refusal (holding [.int (-2147483648), .int 2147483647]) 129 0 = none) ∧
    (refusal (holding []) 2147483646 (2 ^ 61) = none ∧
      refusal (holding []) 2147483647 0 = some .badParameter ∧
      refusal (holding []) 129 (2 ^ 61 + 1) = some .badParameter) := by decide +kernel

/-- The members of an instruction object at the ends of their ranges. -/
theorem witness_RefusalReportsTheLowestCode_instruction :
    (refusal (single []) 130 0 = some .badContainer ∧
      refusal (single [("opcode", .str "NOP"), ("term", .obj [])]) 130 0 = some .badContainer ∧
      refusal (single [("opcode", .str "Nop"), ("arg", .bool true)]) 130 0 = some .unknownOpcode) ∧
    (∀ a ∈ [Json.int (-2147483649), .int 2147483648, .str "", .str "ab", .bool true, .nonInteger, .arr []],
      refusal (single [("opcode", .str "NOP"), ("arg", a)]) 130 0 = some .badArgument) ∧
    ∀ a ∈ [Json.null, .int (-2147483648), .int 2147483647, .str "a"],
      refusal (single [("opcode", .str "NOP"), ("arg", a)]) 130 0 = none := by decide +kernel

/-- An instruction object with its members in another order, its Term left out and its argument a character, in a
container without a data member; and the bounds on the data, the memory and the ceiling. -/
theorem witness_WellFormedContainersAreLoaded :
    ContainerForm (single [("arg", .str "A"), ("opcode", .str "PUSH")]) [] [⟨.push, some (.chr 65), none⟩] ∧
      (List.replicate 126 (1 : Word)).length ≤ 126 ∧ [ContainerInstr.mk .push (some (.chr 65)) none].length + 128 < 130 ∧
      130 ≤ 2 ^ 31 - 2 ∧ 2 ^ 61 ≤ 2 ^ 61 ∧
      ∀ x ∈ [ContainerInstr.mk .push (some (.chr 65)) none], ∀ c, x.arg = some (.chr c) → c.toNat.isValidChar := by
  refine ⟨⟨_, _, ⟨rfl, by decide, by simp⟩, List.mem_singleton.2 rfl, ?_, .inr ⟨by decide, rfl⟩⟩, by simp, by decide,
    by decide, le_rfl, witness_ContainerAndImageRoundTrip⟩
  refine .cons ⟨_, some (.str "A"), none, ⟨rfl, by decide, by simp⟩, ?_, ?_, .chr 'A', ?_, .absent⟩ .nil
  · exact List.mem_cons_of_mem _ (List.mem_singleton.2 rfl)
  · exact List.mem_cons_self ..
  · show _ ∉ _
    decide

/-- A container with its members in the other order, a `null` argument, and a Term. -/
theorem witness_WellFormedContainersAreLoaded_object :
    ContainerForm (.obj [("instructions", .arr [.obj [("term", .obj [("text", .str "t"), ("line", .int 1),
        ("context", .str "c")]), ("opcode", .str "NOP"), ("arg", .null)]]), ("data", .arr [.int 5])])
      [5] [⟨.nop, none, some ⟨1, "c", "t"⟩⟩] := by
  refine ⟨_, _, ⟨rfl, by decide, by simp⟩, List.mem_cons_self .., ?_, .inl ?_⟩
  · refine .cons ⟨_, some .null, some _, ⟨rfl, by decide, by simp⟩, ?_, ?_, .null, List.mem_cons_self ..,
      .object _ _ _ ⟨rfl, by decide, by simp⟩ ?_ ?_ ?_⟩ .nil
    · simp [Opcode.name]
    · simp [OptionalMember]
    · simp
    · simp
    · simp
  · exact List.mem_cons_of_mem _ (List.mem_singleton.2 rfl)

theorem witness_LoadedStateHoldsItsResetValues :
    (List.replicate 126 (1 : Word)).length ≤ 126 ∧
      (loadedState [⟨.halt, none, none⟩] [7] 130 5 []).mem.word 2 = 7 := ⟨by simp, by decide +kernel⟩

theorem witness_PlacedWordIsRunNext : 48 ≤ 48 ∧ decodeTableWord 48 0x00000000000B = some (.plus none) := by
  decide +kernel

end Sys2Proof.Tests
end

section
/-! The stack primitives of 00_scope.md R17 to R20, from the laws that say once what each of them does. -/

namespace Sys2Proof.Proofs
open Sys2Proof.Machine

/-- Settles O6: each clause is the law of its primitive in that case of `head`. -/
theorem stackPrimitivesFollowTheirRules : Obligations.StackPrimitivesFollowTheirRules := by
  intro s _
  refine ⟨fun k => ⟨top_ok, top_underflow⟩, fun k v => ⟨setTop_ok, setTop_underflow⟩, ?adjust,
    fun v => ⟨push_ok, ?full⟩⟩
  case adjust =>
    rintro d h rfl
    exact ⟨adjust_underflow, adjust_overflow, adjust_ok⟩
  case full =>
    intro hfull
    have hpush : push v s = .error (.fault .stackOverflow 1) (s.setSlot s.head v) := push_overflow hfull.ge
    rwa [hfull] at hpush

end Sys2Proof.Proofs
end

section
/-! The address latch and the data accesses of 20_memory.md R88 to R98, from the laws of the three primitives: what is
left is where an address of each part of the partition lies among the cell numbers. -/

namespace Sys2Proof.Proofs
open Sys2Proof.Machine

/-- MAR at the input port (20_memory.md R81). -/
theorem marCell_of_inputPort {s : State} (h : s.mar = 0) : s.marCell = 0 := by simp [State.marCell, h]

/-- MAR at the output port (20_memory.md R81). -/
theorem marCell_of_outputPort {s : State} (h : s.mar = 1) : s.marCell = 1 := by simp [State.marCell, h]

/-- MAR in the data region (20_memory.md R81). -/
theorem marCell_of_data {s : State} (h2 : 2 ≤ s.mar.toInt) (h127 : s.mar.toInt ≤ 127) :
    2 ≤ s.marCell ∧ s.marCell < 128 := by
  have := marCell_of_nonneg (s := s) (by omega)
  omega

/-- MAR in the program region or above (20_memory.md R81). -/
theorem marCell_of_program {s : State} (h : 128 ≤ s.mar.toInt) : 128 ≤ s.marCell := by
  have := marCell_of_nonneg (s := s) (by omega)
  omega

/-- Settles O7: the latch's two cases, then the law of the read in each part of the partition. -/
theorem latchAndReadFollowTheirRules : Obligations.LatchAndReadFollowTheirRules := by
  intro s a
  refine ⟨latch_range, latch_ok, ?output, ?input, ?exhausted, ?data, ?program⟩
  case output =>
    intro h
    rw [memRead_port (marCell_of_outputPort h), h]
  case input => exact fun h c rest hq => memRead_input (marCell_of_inputPort h) hq
  case exhausted => exact fun h hq => memRead_exhausted (marCell_of_inputPort h) hq
  case data =>
    intro h2 h127
    obtain ⟨hlo, hhi⟩ := marCell_of_data h2 h127
    exact memRead_data hlo hhi
  case program => exact fun h => memRead_program (marCell_of_program h)

/-- Settles O8: the law of the write in each part of the partition. -/
theorem writeFollowsThePartition : Obligations.WriteFollowsThePartition := by
  intro s v
  refine ⟨?input, ?output, ?data, ?program⟩
  case input =>
    intro h
    rw [memWrite_port (marCell_of_inputPort h), h]
  case output => exact fun h => memWrite_output (marCell_of_outputPort h)
  case data =>
    intro h2 h127
    obtain ⟨hlo, hhi⟩ := marCell_of_data h2 h127
    exact memWrite_data hlo hhi
  case program => exact fun h => memWrite_program (marCell_of_program h)

end Sys2Proof.Proofs
end

section
/-! The tokens of the output, their text, and the results of a run (20_memory.md R96, R110; 70_reset_and_hazards.md
R308). The model prints a number with core Lean's `Nat.toDigits`; its digits are tied here to Mathlib's `Nat.digits`,
whose laws say what they spell. -/

namespace Sys2Proof.Proofs
open Sys2Proof.Machine

/-- The decimal digits of a number, the most significant first; 0 has none. -/
def decimalDigits (n : Nat) : List Nat := (Nat.digits 10 n).reverse

theorem decimalDigits_of_pos {n : Nat} (h : 0 < n) : decimalDigits n = decimalDigits (n / 10) ++ [n % 10] := by
  simp [decimalDigits, Nat.digits_def' (by decide : 1 < 10) h]

theorem decimalDigits_lt_ten {n d : Nat} (h : d ∈ decimalDigits n) : d < 10 :=
  Nat.digits_lt_base (by decide) (List.mem_reverse.1 h)

theorem decimalDigits_ne_nil {n : Nat} (h : n ≠ 0) : decimalDigits n ≠ [] := by
  simpa [decimalDigits] using Nat.digits_ne_nil_iff_ne_zero.2 h

/-- No leading zero. -/
theorem head?_decimalDigits_ne_zero {n : Nat} (h : n ≠ 0) : (decimalDigits n).head? ≠ some 0 := by
  rw [decimalDigits, List.head?_reverse, List.getLast?_eq_some_getLast (Nat.digits_ne_nil_iff_ne_zero.2 h)]
  simpa using Nat.getLast_digit_ne_zero 10 h

/-- The digits, read from the left, spell the number. -/
theorem foldl_decimalDigits (n : Nat) : (decimalDigits n).foldl (fun m d => 10 * m + d) 0 = n := by
  have hspell := Nat.ofDigits_digits 10 n
  rw [Nat.ofDigits_eq_foldr] at hspell
  rw [decimalDigits, List.foldl_reverse]
  simpa [Nat.add_comm] using hspell

theorem digitChar_of_lt_ten {d : Nat} (h : d < 10) : Nat.digitChar d = Char.ofNat (48 + d) := by
  interval_cases d <;> rfl

/-- The characters that `Nat.toDigits` prints for a number other than 0, by recursion on the digits before the last. -/
theorem toDigits_eq_map_decimalDigits {n : Nat} (h : 0 < n) :
    Nat.toDigits 10 n = (decimalDigits n).map fun d => Char.ofNat (48 + d) := by
  induction n using Nat.strongRecOn with
  | ind n ih =>
    rw [decimalDigits_of_pos h]
    rcases Nat.lt_or_ge n 10 with hlt | hge
    · have hdiv : n / 10 = 0 := by omega
      have hmod : n % 10 = n := by omega
      rw [Nat.toDigits_of_lt_base hlt, digitChar_of_lt_ten hlt, hdiv, hmod]
      simp [decimalDigits]
    · have hinit := ih (n / 10) (by omega) (by omega)
      have hlast := digitChar_of_lt_ten (Nat.mod_lt n (by decide : 0 < 10))
      rw [Nat.toDigits_of_base_le (by decide) hge, hinit, hlast]
      simp

/-- The decimal text of an integer other than 0: the sign, then the digits of its magnitude. -/
theorem decimalText_of_ne_zero {v : Int} (h : v ≠ 0) : decimalText v =
    (if v < 0 then ['-'] else []) ++ (decimalDigits v.natAbs).map fun d => Char.ofNat (48 + d) := by
  rw [decimalText, toDigits_eq_map_decimalDigits (Int.natAbs_pos.2 h)]
  split <;> rfl

/-- The value of a word of 0 to 127 is a code of a token. -/
theorem token_of_code {v : Word} (h0 : 0 ≤ v.toInt) (h127 : v.toInt ≤ 127) :
    ∃ c : Fin 128, c.val = v.toNat ∧ token v = .char c := by
  have hlt : v.toNat < 128 := by
    have := BitVec.toInt_eq_toNat_cond v
    split at this <;> omega
  exact ⟨Fin.ofNat 128 v.toNat, Nat.mod_eq_of_lt hlt, if_pos ⟨h0, h127⟩⟩

theorem token_of_not_code {v : Word} (h : v.toInt < 0 ∨ 127 < v.toInt) : token v = .dec v :=
  if_neg (by omega)

theorem outputText_eq_flatten (tokens : List Token) : outputText tokens = (tokens.map Token.text).flatten := by
  induction tokens with
  | nil => rfl
  | cons t rest ih => simp [outputText, ih]

theorem results_of_ended {s : State} (h : s.endedNormal ∨ s.endedCeiling) :
    s.results = some ⟨outputText s.outq, s.retired, s.ticks⟩ := if_pos h

theorem results_of_not_ended {s : State} (h : ¬ (s.endedNormal ∨ s.endedCeiling)) : s.results = none := if_neg h

/-- A faulted run has ended neither NORMAL nor at the ceiling: STATUS.WHY has one value. -/
theorem not_ended_of_why_fault {s : State} (h : statusWhy s.status = 3) : ¬ (s.endedNormal ∨ s.endedCeiling) := by
  rw [State.endedNormal, State.endedCeiling, h]
  simp [Why.code]

/-- Settles O9: the two kinds of token by the range of the value, and a run's results by STATUS.WHY. -/
theorem tokenAndItsTextFollowTheirRule : Obligations.TokenAndItsTextFollowTheirRule := by
  refine ⟨fun v => ⟨?code, ?decimal⟩, outputText_eq_flatten, by decide, fun s => ⟨?ended, ?notEnded⟩⟩
  case code =>
    intro h0 h127
    obtain ⟨c, hc, htoken⟩ := token_of_code h0 h127
    exact ⟨c, hc, htoken, by rw [htoken, ← hc]; rfl⟩
  case decimal =>
    intro hrange
    have hne : v.toInt ≠ 0 := by omega
    have hmag : v.toInt.natAbs ≠ 0 := Int.natAbs_ne_zero.2 hne
    have htoken := token_of_not_code hrange
    refine ⟨htoken, decimalDigits v.toInt.natAbs, fun _ => decimalDigits_lt_ten, head?_decimalDigits_ne_zero hmag,
      decimalDigits_ne_nil hmag, foldl_decimalDigits _, ?_⟩
    rw [htoken]
    exact decimalText_of_ne_zero hne
  case ended =>
    intro hstopped hwhy
    exact results_of_ended (hwhy.imp (⟨hstopped, ·⟩) (⟨hstopped, ·⟩))
  case notEnded =>
    rintro (hrunning | hfault)
    · exact results_of_not_ended fun h => hrunning (h.elim (·.1) (·.1))
    · exact results_of_not_ended (not_ended_of_why_fault hfault)

end Sys2Proof.Proofs
end

section
/-! The image and the container round trip of 30_encoding.md R137. Each reader of the loader is shown to undo its
writer, part by part: the fields of a word, the literal, the Term, then the instruction object. -/

namespace Sys2Proof.Proofs
open Sys2Proof.Machine

/-! ## The image -/

/-- Tests 1 to 4 of 30_encoding.md R129 pass on every word the encoder writes for a well-formed argument. -/
theorem readFields_encodeParts (op : Opcode) {arg : Arg} (h : arg.wellFormed = true) :
    readFields (encodeParts op arg) = .ok (op, arg) := by
  rcases arg with _ | (n | c)
  case none => simp [encodeParts, readFields]
  case some.int => simp [encodeParts, readFields]
  case some.chr =>
    have hcode : ¬ Config.maxCharCode < c.toNat := by simpa [Arg.wellFormed, Literal.wellFormed] using h
    simp [encodeParts, readFields, hcode]

/-- What is left of decoding an encoded word is tests 5 and 6. -/
theorem decode_encodeParts (op : Opcode) {arg : Arg} (h : arg.wellFormed = true) :
    decode (encodeParts op arg) = assemble op arg := by
  simp [decode, readFields_encodeParts op h]

/-- A Unicode character's code is in the range of test 4. -/
theorem wellFormed_of_isValidChar {arg : Arg} (h : ∀ c, arg = some (.chr c) → c.toNat.isValidChar) :
    arg.wellFormed = true := by
  rcases arg with _ | (n | c)
  case none => rfl
  case some.int => rfl
  case some.chr =>
    have hvalid : c.toNat < 0xD800 ∨ 0xDFFF < c.toNat ∧ c.toNat < 0x110000 := h c rfl
    exact decide_eq_true (show c.toNat ≤ 0x10FFFF by omega)

/-! ## The container -/

theorem readArg_literal_toJson {l : Literal} (h : ∀ c, l = .chr c → c.toNat.isValidChar) :
    readArg (some (Literal.toJson l)) = .ok (some l) := by
  cases l with
  | int v => simp [Literal.toJson, readArg, fitsWord_toInt v]
  | chr c =>
    have hcode : (Char.ofNat c.toNat).toNat = c.toNat := by rw [Char.toNat_ofNat, if_pos (h c rfl)]
    simp [Literal.toJson, readArg, hcode]

theorem readTerm_term_toJson (t : Term) : readTerm (some (Term.toJson t)) = .ok (some t) := rfl

section
variable (x : ContainerInstr)

theorem readOpcode_toJson : readOpcode x.toJson = .ok x.op := by
  have hmember : x.toJson.member "opcode" = some (.str (Opcode.name x.op)) := rfl
  simp [readOpcode, hmember]

theorem readTerm_toJson : readTerm (x.toJson.member "term") = .ok x.term := by
  obtain ⟨op, arg, _ | t⟩ := x
  · rfl
  · exact readTerm_term_toJson t

end

theorem readArg_toJson {x : ContainerInstr} (h : ∀ c, x.arg = some (.chr c) → c.toNat.isValidChar) :
    readArg (x.toJson.member "arg") = .ok x.arg := by
  obtain ⟨op, _ | l, term⟩ := x
  · rfl
  · exact readArg_literal_toJson fun c hc => h c (congrArg some hc)

/-- The loader reads back the instruction object it is written as. -/
theorem readInstr_toJson {x : ContainerInstr} (h : ∀ c, x.arg = some (.chr c) → c.toNat.isValidChar) :
    readInstr x.toJson = some x := by
  simp [readInstr, readOpcode_toJson, readArg_toJson h, readTerm_toJson]

/-- Writing items and then keeping those that read gives the items back, where each of them reads back. -/
theorem filterMap_map_of_read_write {α β : Type} {write : α → β} {read : β → Option α} {xs : List α}
    (h : ∀ x ∈ xs, read (write x) = some x) : (xs.map write).filterMap read = xs := by
  rw [List.filterMap_map]
  exact (List.filterMap_congr h).trans List.filterMap_some

theorem dataOf_containerJson (data : List Word) (program : List ContainerInstr) :
    dataOf (containerJson data program) = data := by
  have hitems : dataItems (containerJson data program) = data.map fun v => .int v.toInt := rfl
  rw [dataOf, hitems]
  exact filterMap_map_of_read_write fun v _ => by rw [readDatum_toInt]; rfl

theorem programOf_containerJson (data : List Word) {program : List ContainerInstr}
    (h : ∀ x ∈ program, ∀ c, x.arg = some (.chr c) → c.toNat.isValidChar) :
    programOf (containerJson data program) = program := by
  have hitems : instrItems (containerJson data program) = program.map ContainerInstr.toJson := rfl
  rw [programOf, hitems]
  exact filterMap_map_of_read_write fun x hx => readInstr_toJson (h x hx)

/-- Settles O5: the readers undo the writers, in the container and in the image; DBG is written by the load. -/
theorem containerAndImageRoundTrip : Obligations.ContainerAndImageRoundTrip := by
  intro data program hvalid
  refine ⟨dataOf_containerJson data program, programOf_containerJson data hvalid, ?image, fun _ _ _ => rfl⟩
  case image => exact fun x hx => readFields_encodeParts x.op (wellFormed_of_isValidChar (hvalid x hx))

end Sys2Proof.Proofs
end

section
/-! The declared but unimplemented opcodes (30_encoding.md R132): they pass tests 1 to 6 of R129 and fault at test 7. -/

namespace Sys2Proof.Proofs
open Sys2Proof.Machine

/-- The opcode field of an encoded instruction is its opcode's number. -/
theorem opcField_encode (i : Instr) : opcField (encode i) = i.opcode.number :=
  (Laws.encodeParts_fields i.opcode i.arg).1

/-- The fault of test 7 records the opcode's number as FAULT_INFO and as FAULT_OPC (60_exceptions.md R256). -/
theorem unimplemented_eq {op : Opcode} {info : Word} {opc : OpcodeNumber} (hopc : op.number = opc)
    (hinfo : opc.setWidth 32 = info) (s : State) :
    unimplemented op s = .next (s.takeFault .unimplementedOpcode info opc) := by
  rw [unimplemented, hopc, hinfo]

/-- Settles O30: the shared decoding of encoded words, and the fault that is each opcode's whole meaning. -/
theorem unimplementedOpcodesFault : Obligations.UnimplementedOpcodesFault := by
  intro arg s
  refine ⟨opcField_encode (.minus arg), opcField_encode (.div arg), opcField_encode (.print arg), ?decodes,
    unimplemented_eq (op := .minus) rfl rfl s, unimplemented_eq (op := .div) rfl rfl s,
    unimplemented_eq (op := .print) rfl rfl s⟩
  case decodes =>
    intro hwf
    exact ⟨decode_encodeParts .minus hwf, decode_encodeParts .div hwf, decode_encodeParts .print hwf⟩

end Sys2Proof.Proofs
end

section
/-! The direct accesses of 40_memory_access.md, WR_DIR (R160) and READ_DIR (R162). Both latch the top word in T1, and
READ_NDR (R163) too; what T1 leaves or raises is therefore said once for every instruction that begins so. Their T2
follows the partition of 20_memory.md, as `writeFollowsThePartition` and `latchAndReadFollowTheirRules` say. -/

namespace Sys2Proof.Proofs
open Sys2Proof.Machine

/-! ## Macro-steps by the micro-step they end in -/

theorem runMicrocode_error_in_first {i : Instr} {m : Micro Unit} {rest : List (Micro Unit)} {s t : State} {e : Stop}
    (h : m (s.issue i) = .error e t) : runMicrocode i (m :: rest) s = .next (t.stop i.opcode.number e) := by
  simp only [runMicrocode, runTicks_error h]

theorem runMicrocode_error_in_second {i : Instr} {m n : Micro Unit} {rest : List (Micro Unit)} {s t t' : State}
    {u : Unit} {e : Stop} (hm : m (s.issue i) = .ok u t) (hn : n t.tick = .error e t') :
    runMicrocode i (m :: n :: rest) s = .next (t'.stop i.opcode.number e) := by
  simp only [runMicrocode, runTicks_ok hm, runTicks_error hn]

theorem runMicrocode_two_ok {i : Instr} {m n : Micro Unit} {s t t' : State} {u u' : Unit}
    (hm : m (s.issue i) = .ok u t) (hn : n t.tick = .ok u' t') :
    runMicrocode i [m, n] s = .next t'.tick.retire := by
  simp only [runMicrocode, runTicks_ok hm, runTicks_ok hn, runTicks_nil]

/-! ## T1: latching the top word -/

/-- The micro-step that latches the top word: T1 of WR_DIR, READ_DIR and READ_NDR. -/
def latchTop : Micro Unit := andThen (top 0) fun a => latch a

/-- `s` in the second micro-step of `i`, after the first has latched `a`. -/
def latchedState (s : State) (i : Instr) (a : Word) : State := ((s.issue i).setMar a).tick

section
variable {s : State} {a : Word}

theorem latchTop_ok (hne : 1 ≤ s.head) (ha : s.slot (s.head - 1) = a) (hl : s.latchable a) :
    latchTop s = .ok () (s.setMar a) := by
  subst ha
  exact (andThen_ok (top_ok (k := 0) hne)).trans (latch_ok hl.1 hl.2)

theorem latchTop_underflow (hempty : s.head = 0) : latchTop s = .error (.fault .stackUnderflow 0) s :=
  andThen_error (top_underflow hempty.le)

theorem latchTop_range (hne : 1 ≤ s.head) (ha : s.slot (s.head - 1) = a) (hl : ¬ s.latchable a) :
    latchTop s = .error (.fault .addressOutOfRange a) s := by
  have hout : a.toInt < 0 ∨ (s.memorySize : Int) < a.toInt := by unfold State.latchable at hl; omega
  subst ha
  exact (andThen_ok (top_ok (k := 0) hne)).trans (latch_range hout)

/-- Address 0 can always be latched. -/
theorem latchable_inputPort (s : State) : s.latchable 0 := ⟨le_rfl, Int.natCast_nonneg _⟩

end

section
variable {i : Instr} {n : Micro Unit} {rest : List (Micro Unit)} {s t : State} {a : Word} {u : Unit} {e : Stop}

theorem runMicrocode_latchTop_underflow (hempty : s.head = 0) :
    runMicrocode i (latchTop :: rest) s = .next ((s.during i 0).takeFault .stackUnderflow 0 i.opcode.number) :=
  runMicrocode_error_in_first (latchTop_underflow hempty)

theorem runMicrocode_latchTop_range (hne : 1 ≤ s.head) (ha : s.slot (s.head - 1) = a) (hl : ¬ s.latchable a) :
    runMicrocode i (latchTop :: rest) s = .next ((s.during i 0).takeFault .addressOutOfRange a i.opcode.number) :=
  runMicrocode_error_in_first (latchTop_range hne ha hl)

/-- A stop in T2, before T2 has written anything. -/
theorem runMicrocode_latchTop_error (hne : 1 ≤ s.head) (ha : s.slot (s.head - 1) = a) (hl : s.latchable a)
    (hn : n (latchedState s i a) = .error e (latchedState s i a)) :
    runMicrocode i (latchTop :: n :: rest) s = .next ((latchedState s i a).stop i.opcode.number e) :=
  runMicrocode_error_in_second (latchTop_ok hne ha hl) hn

theorem runMicrocode_latchTop_ok (hne : 1 ≤ s.head) (ha : s.slot (s.head - 1) = a) (hl : s.latchable a)
    (hn : n (latchedState s i a) = .ok u t) : runMicrocode i [latchTop, n] s = .next t.tick.retire :=
  runMicrocode_two_ok (latchTop_ok hne ha hl) hn

end

/-! ## WR_DIR -/

/-- T2 of WR_DIR. -/
def writeUnderTop : Micro Unit :=
  andThen (top 1) fun v => andThen (memWrite v) fun _ => andThen (adjust .dec2) fun _ => advance

theorem exec_wrDir (arg : Arg) (s : State) :
    exec (.wrDir arg) s = runMicrocode (.wrDir arg) [latchTop, writeUnderTop] s := rfl

section
variable {s t : State} {v : Word} {u : Unit} {e : Stop}

theorem memWrite_keeps_head (h : memWrite v s = .ok u t) : t.head = s.head := by
  rcases memWrite_eq_ok h with ⟨-, -, rfl⟩ | ⟨-, rfl⟩ <;> rfl

theorem writeUnderTop_underflow (h : s.head = 1) : writeUnderTop s = .error (.fault .stackUnderflow 1) s :=
  andThen_error (top_underflow h.le)

theorem writeUnderTop_error (h2 : 2 ≤ s.head) (hv : s.slot (s.head - 2) = v) (hw : memWrite v s = .error e t) :
    writeUnderTop s = .error e t := by
  subst hv
  exact (andThen_ok (top_ok (k := 1) h2)).trans (andThen_error hw)

theorem writeUnderTop_ok (hcap : s.head < 256) (h2 : 2 ≤ s.head) (hv : s.slot (s.head - 2) = v)
    (hw : memWrite v s = .ok u t) :
    writeUnderTop s = .ok () ((t.setHead (s.head - 2)).setPc (t.pc + 1)) := by
  subst hv
  have hhead : t.head = s.head := memWrite_keeps_head hw
  have hadjust : adjust .dec2 t = .ok () (t.setHead (s.head - 2)) := by
    rw [← hhead]
    exact adjust_dec2_ok (by omega) (by omega)
  exact (andThen_ok (top_ok (k := 1) h2)).trans ((andThen_ok hw).trans (andThen_ok hadjust))

end

/-- Settles O10: the stops of T1, then the write of the latched address in each part of the partition. -/
theorem wrDirRule : Obligations.WrDirRule := by
  intro arg s a v hcap ha hv
  obtain ⟨hwIn, hwOut, hwData, hwProgram⟩ := writeFollowsThePartition (latchedState s (.wrDir arg) a) v
  rw [exec_wrDir]
  refine ⟨opcField_encode (.wrDir arg), ?data, ?output, runMicrocode_latchTop_underflow,
    fun hne hl => runMicrocode_latchTop_range hne ha hl, ?oneOperand, ?input, ?program⟩
  case data =>
    intro h2 hlo hhi hl
    exact runMicrocode_latchTop_ok (by omega) ha hl (writeUnderTop_ok hcap h2 hv (hwData hlo hhi))
  case output =>
    rintro h2 rfl hl
    exact runMicrocode_latchTop_ok (by omega) ha hl (writeUnderTop_ok hcap h2 hv (hwOut rfl))
  case oneOperand =>
    intro h1 hl
    exact runMicrocode_latchTop_error h1.ge ha hl (writeUnderTop_underflow h1)
  case input =>
    rintro h2 rfl
    exact runMicrocode_latchTop_error (by omega) ha (latchable_inputPort s) (writeUnderTop_error h2 hv (hwIn rfl))
  case program =>
    intro h2 h128 hl
    exact runMicrocode_latchTop_error (by omega) ha hl (writeUnderTop_error h2 hv (hwProgram h128))

/-! ## READ_DIR -/

/-- T2 of READ_DIR. -/
def readIntoTop : Micro Unit := andThen memRead fun v => andThen (setTop 0 v) fun _ => advance

theorem exec_readDir (arg : Arg) (s : State) :
    exec (.readDir arg) s = runMicrocode (.readDir arg) [latchTop, readIntoTop] s := rfl

section
variable {s t : State} {v : Word} {e : Stop}

theorem memRead_keeps_head (h : memRead s = .ok v t) : t.head = s.head := by
  rcases memRead_eq_ok h with ⟨-, -, -, rfl⟩ | ⟨-, _, -, rfl⟩ <;> rfl

theorem readIntoTop_error (hr : memRead s = .error e t) : readIntoTop s = .error e t := andThen_error hr

theorem readIntoTop_ok (hne : 1 ≤ s.head) (hr : memRead s = .ok v t) :
    readIntoTop s = .ok () ((t.setSlot (s.head - 1) v).setPc (t.pc + 1)) := by
  have hhead : t.head = s.head := memRead_keeps_head hr
  have hset : setTop 0 v t = .ok () (t.setSlot (s.head - 1) v) := by
    rw [← hhead]
    exact setTop_ok (hhead.symm ▸ hne)
  exact (andThen_ok hr).trans (andThen_ok hset)

end

/-- Settles O11: the stops of T1, then the read of the latched address in each part of the partition. -/
theorem readDirRule : Obligations.ReadDirRule := by
  intro arg s a _ ha
  obtain ⟨-, -, hrOut, hrIn, hrExhausted, hrData, hrProgram⟩ :=
    latchAndReadFollowTheirRules (latchedState s (.readDir arg) a) a
  rw [exec_readDir]
  refine ⟨opcField_encode (.readDir arg), ?data, ?input, ?exhausted, runMicrocode_latchTop_underflow,
    fun hne hl => runMicrocode_latchTop_range hne ha hl, ?output, ?program⟩
  case data =>
    intro hne hlo hhi hl
    exact runMicrocode_latchTop_ok hne ha hl (readIntoTop_ok hne (hrData hlo hhi))
  case input =>
    rintro hne rfl c rest hq
    exact runMicrocode_latchTop_ok hne ha (latchable_inputPort s) (readIntoTop_ok hne (hrIn rfl c rest hq))
  case exhausted =>
    rintro hne rfl hq
    exact runMicrocode_latchTop_error hne ha (latchable_inputPort s) (readIntoTop_error (hrExhausted rfl hq))
  case output =>
    rintro hne rfl hl
    exact runMicrocode_latchTop_error hne ha hl (readIntoTop_error (hrOut rfl))
  case program =>
    intro hne h128 hl
    exact runMicrocode_latchTop_error hne ha hl (readIntoTop_error (hrProgram h128))

end Sys2Proof.Proofs
end

section
/-! The control-flow instructions JMP, JNT, BEGIN and NOP (41_control_flow.md R180, R181, R183, R184), one micro-step
each. A jump's target is checked only by the fetch of the next macro-step (R187), and the two jumps decode alike; both
facts are said once here. -/

namespace Sys2Proof.Proofs
open Sys2Proof.Machine

/-! ## What the two jumps share -/

/-- Tests 5 and 6 of 30_encoding.md R129. -/
theorem decode_jump_rejects {op : Opcode} (hop : op = .jmp ∨ op = .jnt) :
    decode (encodeParts op none) = .error .missingArgument ∧
      ∀ c : Word, c.toNat ≤ 0x10FFFF → decode (encodeParts op (some (.chr c))) = .error .charTarget := by
  refine ⟨?missing, fun c hc => ?character⟩
  case missing =>
    rw [decode_encodeParts op rfl]
    rcases hop with rfl | rfl <;> rfl
  case character =>
    rw [decode_encodeParts op (arg := some (.chr c)) (decide_eq_true hc)]
    rcases hop with rfl | rfl <;> rfl

/-- The fetch checks the program counter, whatever left it there (41_control_flow.md R187). -/
theorem step_of_pc_outOfRange {s : State} (hphase : s.phase = .check) (hceiling : s.retired < s.ceiling)
    (hpc : s.pc.toInt < 0 ∨ (s.programLength : Int) ≤ s.pc.toInt) :
    step s = .next (s.takeFault .fetchOutOfRange s.pc 0) := by
  rw [step_check hphase, macroStep, if_neg (Nat.not_le.2 hceiling), fetch_outOfRange hpc]
  rfl

/-! ## JNT -/

/-- T1 of JNT. -/
def branchUnlessTrue (target : Word) : Micro Unit :=
  andThen (top 0) fun f =>
  andThen (latchAcc (aluNotTrue f)) fun _ =>
  andThen (adjust .dec1) fun _ =>
  andThen readAcc fun notTrue => if notTrue = -1 then jump target else advance

theorem exec_jnt (target : Word) (s : State) :
    exec (.jnt target) s = runMicrocode (.jnt target) [branchUnlessTrue target] s := rfl

/-- The ALU's not-equal-minus-one test (41_control_flow.md R181). -/
theorem latchAcc_aluNotTrue (f : Word) (s : State) :
    latchAcc (aluNotTrue f) s = .ok () (s.setAcc (if f = -1 then 0 else -1)) := by
  have hword : truthWord (!Machine.isTrue f) = if f = -1 then 0 else -1 := by
    by_cases h : f = -1 <;> simp [truthWord, Machine.isTrue, h]
  rw [← hword]
  exact latchAcc_ok rfl (checkW_toInt _)

section
variable {s : State} (target : Word)

theorem branchUnlessTrue_underflow (hempty : s.head = 0) :
    branchUnlessTrue target s = .error (.fault .stackUnderflow 0) s :=
  andThen_error (top_underflow hempty.le)

/-- The flag is consumed before ACC chooses the latch, so on both paths. -/
theorem branchUnlessTrue_consumes (hcap : s.head < 256) (hne : 1 ≤ s.head) {w : Word}
    (hw : (if s.slot (s.head - 1) = -1 then 0 else -1) = w) :
    branchUnlessTrue target s =
      (if w = -1 then jump target else advance) ((s.setAcc w).setHead (s.head - 1)) := by
  have hlatch : latchAcc (aluNotTrue (s.slot (s.head - 1))) s = .ok () (s.setAcc w) := by
    rw [← hw]
    exact latchAcc_aluNotTrue _ s
  have hadjust : adjust .dec1 (s.setAcc w) = .ok () ((s.setAcc w).setHead (s.head - 1)) :=
    adjust_dec1_ok hne hcap.le
  exact (andThen_ok (top_ok (k := 0) hne)).trans <| (andThen_ok hlatch).trans <|
    (andThen_ok hadjust).trans (andThen_ok (readAcc_apply _))

theorem branchUnlessTrue_of_true (hcap : s.head < 256) (hne : 1 ≤ s.head) (hf : s.slot (s.head - 1) = -1) :
    branchUnlessTrue target s = .ok () (((s.setAcc 0).setHead (s.head - 1)).setPc (s.pc + 1)) :=
  branchUnlessTrue_consumes target hcap hne (if_pos hf)

theorem branchUnlessTrue_of_not_true (hcap : s.head < 256) (hne : 1 ≤ s.head) (hf : s.slot (s.head - 1) ≠ -1) :
    branchUnlessTrue target s = .ok () (((s.setAcc (-1)).setHead (s.head - 1)).setPc target) :=
  branchUnlessTrue_consumes target hcap hne (if_neg hf)

end

/-- Settles O20: the flag is -1, is another word, or is missing. -/
theorem jntRule : Obligations.JntRule := by
  refine ⟨fun target s hcap => ?_, decode_jump_rejects (.inr rfl)⟩
  obtain ⟨hopc, -, hpresent, hkind, -⟩ := Laws.EncodedFields.jnt target
  rw [exec_jnt]
  refine ⟨hopc, hpresent, hkind, ?fallsThrough, ?branches, ?badTarget, ?underflow⟩
  case fallsThrough =>
    intro hne hf
    exact runMicrocode_one_ok (branchUnlessTrue_of_true target hcap hne hf)
  case branches =>
    intro hne hf
    exact runMicrocode_one_ok (branchUnlessTrue_of_not_true target hcap hne hf)
  case badTarget => exact fun hrange hceiling => step_of_pc_outOfRange rfl hceiling hrange
  case underflow => exact fun hempty => runMicrocode_one_error (branchUnlessTrue_underflow target hempty)

/-! ## JMP -/

/-- Settles O19: the latch takes any target, and the next fetch checks it. -/
theorem jmpRule : Obligations.JmpRule := by
  refine ⟨fun target s => ?_, decode_jump_rejects (.inl rfl)⟩
  obtain ⟨hopc, -, hpresent, hkind, -⟩ := Laws.EncodedFields.jmp target
  have hexec : exec (.jmp target) s = .next (s.completed (.jmp target) 1 target) :=
    runMicrocode_one_ok (jump_apply target _)
  exact ⟨hopc, hpresent, hkind, hexec, fun hrange hceiling => step_of_pc_outOfRange rfl hceiling hrange⟩

/-! ## BEGIN and NOP -/

/-- An instruction whose only micro-step is the sequential latch (41_control_flow.md R185) does nothing else. -/
theorem runMicrocode_advance (i : Instr) (s : State) :
    runMicrocode i [advance] s = .next (s.completed i 1 (s.pc + 1)) :=
  runMicrocode_one_ok (advance_apply _)

/-- Settles O22: the load leaves the program counter at its reset value, and both instructions are the sequential
latch alone. -/
theorem beginAndNopRule : Obligations.BeginAndNopRule := by
  refine ⟨fun _ _ _ _ _ => rfl, fun arg s => ?_⟩
  exact ⟨opcField_encode (.beginMark arg), opcField_encode (.nop arg), runMicrocode_advance (.beginMark arg) s,
    runMicrocode_advance (.nop arg) s⟩

end Sys2Proof.Proofs
end

section
/-! The arithmetic and logic instructions MOD, PLUS, MULT, POW, LT, NEG and INVERT (42_arith_logic.md R203 to R211).
Each is one of the two ALU sequences of R200 and R201, and how a sequence ends turns on one thing only: the word or the
fault that `checkW` makes of the ALU function's result, `(f b a).bind checkW`. The sequences are said once in those
terms; what is left for an instruction is what its ALU function gives. -/

namespace Sys2Proof.Proofs
open Sys2Proof.Machine

/-! ## The ALU sequences by the word that passes `checkW` -/

theorem bind_checkW_eq_ok {r : Except Stop Int} {w : Word} (h : r.bind checkW = .ok w) :
    ∃ v, r = .ok v ∧ checkW v = .ok w := by
  cases r with
  | error e => cases h
  | ok v => exact ⟨v, rfl, h⟩

theorem bind_checkW_eq_error {r : Except Stop Int} {e : Stop} (h : r.bind checkW = .error e) :
    r = .error e ∨ ∃ v, r = .ok v ∧ checkW v = .error e := by
  cases r with
  | error e' => exact .inl (by cases h; rfl)
  | ok v => exact .inr ⟨v, rfl, h⟩

/-- The range of a word in numerals, as `omega` reads it. -/
theorem fitsWord_iff {v : Int} : fitsWord v ↔ -2147483648 ≤ v ∧ v ≤ 2147483647 := Iff.rfl

theorem checkW_out_of_range {v : Int} (h : v < minWord ∨ maxWord < v) :
    checkW v = .error (.fault .arithmeticOverflow 0) :=
  checkW_overflow fun ⟨hmin, hmax⟩ => h.elim hmin.not_gt hmax.not_gt

section
variable {f : Word → Word → Except Stop Int} {s : State} {i : Instr} {b a w : Word} {v : Int} {cause : FaultCause}
  {info : Word}

theorem runMicrocode_binary_ok (h2 : 2 ≤ s.head) (hcap : s.head < 256) (hb : s.slot (s.head - 2) = b)
    (ha : s.slot (s.head - 1) = a) (hf : (f b a).bind checkW = .ok w) :
    runMicrocode i (binarySequence f) s = .next { s.completed i 2 (s.pc + 1) with
      head := s.head - 1, acc := w, stack := Cells.write s.stack (s.head - 2) w } := by
  subst hb ha
  obtain ⟨_, hr, hw⟩ := bind_checkW_eq_ok hf
  exact binarySequence_completes h2 hcap hr hw

theorem runMicrocode_binary_fault (h2 : 2 ≤ s.head) (hb : s.slot (s.head - 2) = b) (ha : s.slot (s.head - 1) = a)
    (hf : (f b a).bind checkW = .error (.fault cause info)) :
    runMicrocode i (binarySequence f) s = .next ((s.during i 0).takeFault cause info i.opcode.number) := by
  subst hb ha
  exact binarySequence_aluFault h2 (bind_checkW_eq_error hf)

theorem runMicrocode_binary_underflow (h : s.head < 2) :
    runMicrocode i (binarySequence f) s =
      .next ((s.during i 0).takeFault .stackUnderflow (BitVec.ofNat 32 s.head) i.opcode.number) :=
  binarySequence_underflow h

/-- An ALU result that `checkW` takes as it takes the exact integer `v`; for POW the two integers can differ. -/
theorem runMicrocode_binary_exact (h2 : 2 ≤ s.head) (hcap : s.head < 256) (hb : s.slot (s.head - 2) = b)
    (ha : s.slot (s.head - 1) = a) (hf : (f b a).bind checkW = checkW v) (hmin : minWord ≤ v) (hmax : v ≤ maxWord) :
    ∃ r : Word, r.toInt = v ∧ runMicrocode i (binarySequence f) s = .next { s.completed i 2 (s.pc + 1) with
      head := s.head - 1, acc := r, stack := Cells.write s.stack (s.head - 2) r } := by
  have hfits : fitsWord v := ⟨hmin, hmax⟩
  exact ⟨.ofInt 32 v, toInt_ofInt_of_fits hfits,
    runMicrocode_binary_ok h2 hcap hb ha (hf.trans (checkW_ok hfits))⟩

theorem runMicrocode_binary_overflow (h2 : 2 ≤ s.head) (hb : s.slot (s.head - 2) = b) (ha : s.slot (s.head - 1) = a)
    (hf : (f b a).bind checkW = checkW v) (hv : v < minWord ∨ maxWord < v) :
    runMicrocode i (binarySequence f) s = .next ((s.during i 0).takeFault .arithmeticOverflow 0 i.opcode.number) :=
  runMicrocode_binary_fault h2 hb ha (hf.trans (checkW_out_of_range hv))

end

section
variable {g : Word → Except Stop Int} {s : State} {i : Instr} {a w : Word} {cause : FaultCause} {info : Word}

theorem runMicrocode_unary_ok (h1 : 1 ≤ s.head) (hcap : s.head < 256) (ha : s.slot (s.head - 1) = a)
    (hg : (g a).bind checkW = .ok w) :
    runMicrocode i (unarySequence g) s = .next { s.completed i 2 (s.pc + 1) with
      acc := w, stack := Cells.write s.stack (s.head - 1) w } := by
  subst ha
  obtain ⟨_, hr, hw⟩ := bind_checkW_eq_ok hg
  exact unarySequence_completes h1 hcap hr hw

theorem runMicrocode_unary_fault (h1 : 1 ≤ s.head) (ha : s.slot (s.head - 1) = a)
    (hg : (g a).bind checkW = .error (.fault cause info)) :
    runMicrocode i (unarySequence g) s = .next ((s.during i 0).takeFault cause info i.opcode.number) := by
  subst ha
  exact unarySequence_aluFault h1 (bind_checkW_eq_error hg)

theorem runMicrocode_unary_underflow (h : s.head = 0) :
    runMicrocode i (unarySequence g) s = .next ((s.during i 0).takeFault .stackUnderflow 0 i.opcode.number) :=
  unarySequence_underflow h

end

/-! ## The seven instructions as ALU sequences -/

section
variable (arg : Arg) (s : State)

theorem exec_mod : exec (.mod arg) s = runMicrocode (.mod arg) (binarySequence aluMod) s := rfl

theorem exec_plus : exec (.plus arg) s = runMicrocode (.plus arg) (binarySequence aluAdd) s := rfl

theorem exec_mult : exec (.mult arg) s = runMicrocode (.mult arg) (binarySequence aluMul) s := rfl

theorem exec_pow : exec (.pow arg) s = runMicrocode (.pow arg) (binarySequence aluPow) s := rfl

theorem exec_lt : exec (.lt arg) s = runMicrocode (.lt arg) (binarySequence aluLt) s := rfl

theorem exec_neg : exec (.neg arg) s = runMicrocode (.neg arg) (unarySequence aluNeg) s := rfl

theorem exec_invert : exec (.invert arg) s = runMicrocode (.invert arg) (unarySequence aluInvert) s := rfl

end

/-! ## PLUS and MULT -/

theorem aluAdd_checked (b a : Word) : (aluAdd b a).bind checkW = checkW (b.toInt + a.toInt) := rfl

theorem aluMul_checked (b a : Word) : (aluMul b a).bind checkW = checkW (b.toInt * a.toInt) := rfl

/-- Settles O23: the sum fits, does not fit, or lacks an operand. -/
theorem plusRule : Obligations.PlusRule := by
  intro arg s b a hcap hb ha
  rw [exec_plus]
  exact ⟨opcField_encode (.plus arg), fun h2 => runMicrocode_binary_exact h2 hcap hb ha (aluAdd_checked b a),
    fun h2 => runMicrocode_binary_overflow h2 hb ha (aluAdd_checked b a), runMicrocode_binary_underflow⟩

/-- Settles O24: the product fits, does not fit, or lacks an operand. -/
theorem multRule : Obligations.MultRule := by
  intro arg s b a hcap hb ha
  rw [exec_mult]
  exact ⟨opcField_encode (.mult arg), fun h2 => runMicrocode_binary_exact h2 hcap hb ha (aluMul_checked b a),
    fun h2 => runMicrocode_binary_overflow h2 hb ha (aluMul_checked b a), runMicrocode_binary_underflow⟩

/-! ## MOD -/

/-- The floored remainder is 0 or has the sign of the divisor, and is smaller than it in magnitude. -/
theorem fmod_bounds (b : Int) {a : Int} (ha : a ≠ 0) :
    0 ≤ b.fmod a ∧ b.fmod a < a ∨ a < b.fmod a ∧ b.fmod a ≤ 0 := by
  rcases ha.lt_or_gt with hneg | hpos
  · have hlo := Int.fmod_nonneg_of_pos (-b) (neg_pos.2 hneg)
    have hhi := Int.fmod_lt_of_pos (-b) (neg_pos.2 hneg)
    rw [Int.neg_fmod_neg] at hlo hhi
    omega
  · exact .inl ⟨Int.fmod_nonneg_of_pos b hpos, Int.fmod_lt_of_pos b hpos⟩

/-- So the remainder by a word is a word, whatever the dividend. -/
theorem fitsWord_fmod (b : Int) {a : Word} (ha : a.toInt ≠ 0) : fitsWord (b.fmod a.toInt) := by
  have hbounds := fmod_bounds b ha
  have hdivisor := fitsWord_iff.1 (fitsWord_toInt a)
  rw [fitsWord_iff]
  omega

theorem aluMod_zero (b : Word) : (aluMod b 0).bind checkW = .error (.fault .divideByZero b) := rfl

theorem aluMod_of_ne_zero (b : Word) {a : Word} (ha : a.toInt ≠ 0) : aluMod b a = .ok (b.toInt.fmod a.toInt) := by
  rw [aluMod, if_neg ha, Int.fmod_def]

theorem aluMod_checked (b : Word) {a : Word} (ha : a.toInt ≠ 0) :
    (aluMod b a).bind checkW = checkW (b.toInt.fmod a.toInt) := by
  rw [aluMod_of_ne_zero b ha]
  rfl

/-- Settles O25: by a divisor that is not 0 the remainder is `Int.fmod` with quotient `Int.fdiv`, and a word. -/
theorem modRule : Obligations.ModRule := by
  intro arg s b a hcap hb ha
  rw [exec_mod]
  refine ⟨opcField_encode (.mod arg), ?remainder, ?zeroDivisor, runMicrocode_binary_underflow⟩
  case remainder =>
    intro h2 hne
    have hne' : a.toInt ≠ 0 := BitVec.toInt_ne.2 hne
    obtain ⟨hmin, hmax⟩ := fitsWord_fmod b.toInt hne'
    obtain ⟨r, hr, hrun⟩ := runMicrocode_binary_exact h2 hcap hb ha (aluMod_checked b hne') hmin hmax
    exact ⟨r, b.toInt.fdiv a.toInt, by rw [hr, Int.mul_fdiv_add_fmod], by rw [hr]; exact fmod_bounds _ hne', hrun⟩
  case zeroDivisor =>
    rintro h2 rfl
    exact runMicrocode_binary_fault h2 hb ha (aluMod_zero b)

/-! ## POW -/

/-- The clipped exponent is not seen past `checkW`. -/
theorem aluPow_checked {b : Word} (hb : 0 ≤ b.toInt) (a : Word) :
    (aluPow b a).bind checkW = checkW (a.toInt ^ b.toInt.toNat) := by
  rw [aluPow, if_neg hb.not_gt]
  exact checkW_pow_clipExponent _ _

theorem aluPow_negative {b : Word} (hb : b.toInt < 0) (a : Word) :
    (aluPow b a).bind checkW = .error (.fault .negativeExponent b) := by
  rw [aluPow, if_pos hb]
  rfl

/-- Settles O26: the power fits, does not fit, has a negative exponent, or lacks an operand. -/
theorem powRule : Obligations.PowRule := by
  intro arg s b a hcap hb ha
  rw [exec_pow]
  exact ⟨opcField_encode (.pow arg),
    fun h2 hexp => runMicrocode_binary_exact h2 hcap hb ha (aluPow_checked hexp a),
    fun h2 hexp => runMicrocode_binary_overflow h2 hb ha (aluPow_checked hexp a),
    fun h2 hexp => runMicrocode_binary_fault h2 hb ha (aluPow_negative hexp a), runMicrocode_binary_underflow⟩

/-! ## LT -/

/-- A truth word always passes `checkW`. -/
theorem aluLt_checked (b a : Word) : (aluLt b a).bind checkW = .ok (if b.toInt < a.toInt then -1 else 0) := by
  refine (checkW_toInt _).trans ?_
  by_cases h : b.toInt < a.toInt <;> simp [truthWord, h]

/-- Settles O27: `b < a`, `a ≤ b`, or fewer than two operands. -/
theorem ltRule : Obligations.LtRule := by
  intro arg s b a hcap hb ha
  rw [exec_lt]
  refine ⟨opcField_encode (.lt arg), ?less, ?notLess, runMicrocode_binary_underflow⟩
  case less =>
    intro h2 hlt
    exact runMicrocode_binary_ok h2 hcap hb ha ((aluLt_checked b a).trans (by rw [if_pos hlt]))
  case notLess =>
    intro h2 hle
    exact runMicrocode_binary_ok h2 hcap hb ha ((aluLt_checked b a).trans (by rw [if_neg hle.not_gt]))

/-! ## NEG -/

theorem aluNeg_checked (a : Word) : (aluNeg a).bind checkW = checkW (-a.toInt) := rfl

/-- Only the smallest word has no negation. -/
theorem fitsWord_neg {a : Word} (ha : a.toInt ≠ minWord) : fitsWord (-a.toInt) := by
  have hword := fitsWord_iff.1 (fitsWord_toInt a)
  have hne : a.toInt ≠ -2147483648 := ha
  rw [fitsWord_iff]
  omega

/-- Settles O28: any other word, the smallest word, or an empty stack. -/
theorem negRule : Obligations.NegRule := by
  intro arg s a hcap ha
  rw [exec_neg]
  refine ⟨opcField_encode (.neg arg), ?negates, ?smallest, runMicrocode_unary_underflow⟩
  case negates =>
    intro h1 hne
    have hfits := fitsWord_neg hne
    exact ⟨.ofInt 32 (-a.toInt), toInt_ofInt_of_fits hfits,
      runMicrocode_unary_ok h1 hcap ha ((aluNeg_checked a).trans (checkW_ok hfits))⟩
  case smallest =>
    intro h1 heq
    exact runMicrocode_unary_fault h1 ha ((aluNeg_checked a).trans (checkW_out_of_range (.inr (by rw [heq]; decide))))

/-! ## INVERT -/

theorem toInt_not_eq_neg_succ (a : Word) : (~~~a).toInt = -(a.toInt + 1) := by
  rw [BitVec.toInt_eq_toNat_cond, BitVec.toInt_eq_toNat_cond, BitVec.toNat_not]
  omega

/-- -(a + 1) is the value of a word, the bitwise NOT, so it passes `checkW`. -/
theorem aluInvert_checked (a : Word) : (aluInvert a).bind checkW = .ok (~~~a) := by
  have hvalue : aluInvert a = .ok (~~~a).toInt := by rw [aluInvert, toInt_not_eq_neg_succ]
  rw [hvalue]
  exact checkW_toInt _

/-- Settles O29: an operand, or an empty stack. -/
theorem invertRule : Obligations.InvertRule := by
  intro arg s a hcap ha
  rw [exec_invert]
  exact ⟨opcField_encode (.invert arg),
    fun h1 => ⟨toInt_not_eq_neg_succ a, runMicrocode_unary_ok h1 hcap ha (aluInvert_checked a)⟩,
    runMicrocode_unary_underflow⟩

end Sys2Proof.Proofs
end

section
/-! The stack-shuffle instructions DUP, OVER, ROT, SWAP, PUSH and DROP (43_stack.md R230 to R235), one micro-step each.
DUP and OVER push a copy, PUSH a literal, and so share how a push ends; ROT is SWAP after a check for a third word. -/

namespace Sys2Proof.Proofs
open Sys2Proof.Machine

/-! ## Pushes: DUP, OVER and PUSH -/

/-- T1 of PUSH. -/
def pushThenAdvance (v : Word) : Micro Unit := andThen (push v) fun _ => advance

/-- T1 of DUP, where `k` is 0, and of OVER, where `k` is 1. -/
def pushCopy (k : Fin 4) : Micro Unit := andThen (top k) pushThenAdvance

section
variable {s : State} {i : Instr} {k : Fin 4} {v : Word}

theorem pushThenAdvance_ok (h : s.head ≤ 254) :
    pushThenAdvance v s = .ok () (((s.setSlot s.head v).setHead (s.head + 1)).setPc (s.pc + 1)) :=
  andThen_ok (push_ok (Nat.lt_succ_of_le h))

/-- S[255] is written before the fault (00_scope.md R20). -/
theorem pushThenAdvance_overflow (h : s.head = 255) :
    pushThenAdvance v s = .error (.fault .stackOverflow 1) (s.setSlot 255 v) := by
  rw [← h]
  exact andThen_error (push_overflow h.ge)

theorem runMicrocode_push_ok (h : s.head ≤ 254) :
    runMicrocode i [pushThenAdvance v] s = .next { s.completed i 1 (s.pc + 1) with
      head := s.head + 1, stack := Cells.write s.stack s.head v } :=
  runMicrocode_one_ok (pushThenAdvance_ok (s := s.issue i) h)

theorem runMicrocode_push_overflow (h : s.head = 255) :
    runMicrocode i [pushThenAdvance v] s =
      .next (({ s.during i 0 with stack := Cells.write s.stack 255 v } : State).takeFault
        .stackOverflow 1 i.opcode.number) :=
  runMicrocode_one_error (pushThenAdvance_overflow (s := s.issue i) h)

/-- Where the word to be copied exists, the rest is its push. -/
theorem runMicrocode_pushCopy (hk : k.val < s.head) (hv : s.slot (s.head - 1 - k.val) = v) :
    runMicrocode i [pushCopy k] s = runMicrocode i [pushThenAdvance v] s := by
  have hcopy : pushCopy k (s.issue i) = pushThenAdvance v (s.issue i) := by
    rw [← hv]
    exact andThen_ok (top_ok hk)
  simp only [runMicrocode, runTicks, hcopy]

theorem runMicrocode_pushCopy_ok (hk : k.val < s.head) (hv : s.slot (s.head - 1 - k.val) = v) (h : s.head ≤ 254) :
    runMicrocode i [pushCopy k] s = .next { s.completed i 1 (s.pc + 1) with
      head := s.head + 1, stack := Cells.write s.stack s.head v } :=
  (runMicrocode_pushCopy hk hv).trans (runMicrocode_push_ok h)

theorem runMicrocode_pushCopy_overflow (hk : k.val < s.head) (hv : s.slot (s.head - 1 - k.val) = v)
    (h : s.head = 255) :
    runMicrocode i [pushCopy k] s =
      .next (({ s.during i 0 with stack := Cells.write s.stack 255 v } : State).takeFault
        .stackOverflow 1 i.opcode.number) :=
  (runMicrocode_pushCopy hk hv).trans (runMicrocode_push_overflow h)

theorem runMicrocode_pushCopy_underflow (h : s.head ≤ k.val) :
    runMicrocode i [pushCopy k] s =
      .next ((s.during i 0).takeFault .stackUnderflow (BitVec.ofNat 32 k.val) i.opcode.number) :=
  runMicrocode_one_error (s := s) (andThen_error (top_underflow h))

end

theorem exec_dup (arg : Arg) (s : State) : exec (.dup arg) s = runMicrocode (.dup arg) [pushCopy 0] s := rfl

theorem exec_overWord (arg : Arg) (s : State) :
    exec (.overWord arg) s = runMicrocode (.overWord arg) [pushCopy 1] s := rfl

theorem exec_push (lit : Literal) (s : State) :
    exec (.push lit) s = runMicrocode (.push lit) [pushThenAdvance lit.value] s := rfl

/-- Settles O31: the word to be copied exists and its push fits, or overflows, or there is no such word. -/
theorem dupAndOverRule : Obligations.DupAndOverRule := by
  intro arg s y x _ hy hx
  rw [exec_dup, exec_overWord]
  refine ⟨opcField_encode (.dup arg), opcField_encode (.overWord arg), ?copyTop, ?empty, ?full, ?copySecond⟩
  case copyTop => exact fun h1 hfit => runMicrocode_pushCopy_ok (k := 0) h1 hx hfit
  case empty => exact fun hempty => runMicrocode_pushCopy_underflow (k := 0) hempty.le
  case full => exact fun hfull => runMicrocode_pushCopy_overflow (k := 0) (hfull ▸ by decide) hx hfull
  case copySecond =>
    exact ⟨fun h2 hfit => runMicrocode_pushCopy_ok (k := 1) h2 hy hfit,
      fun hshort => runMicrocode_pushCopy_underflow (k := 1) (Nat.le_of_lt_succ hshort),
      fun hfull => runMicrocode_pushCopy_overflow (k := 1) (hfull ▸ by decide) hy hfull⟩

/-- Test 5 of 30_encoding.md R129. -/
theorem decode_push_without_argument : decode (encodeParts .push none) = .error .missingArgument :=
  (decode_encodeParts .push (arg := none) rfl).trans rfl

theorem readArg_int_out_of_range {n : Int} (h : n < minWord ∨ maxWord < n) :
    readArg (some (.int n)) = .error .badArgument :=
  if_neg fun ⟨hmin, hmax⟩ => h.elim hmin.not_gt hmax.not_gt

/-- Settles O33: both kinds of literal push their value, the whole argument field, and the decoder and the loader
refuse what is no literal. -/
theorem pushRule : Obligations.PushRule := by
  refine ⟨fun lit s _ => ?_, decode_push_without_argument, fun _ => readArg_int_out_of_range⟩
  obtain ⟨hopc, -, hpresent, hkind, -⟩ := Laws.EncodedFields.push lit
  rw [exec_push]
  cases lit <;> exact ⟨hopc, hpresent, hkind, runMicrocode_push_ok, runMicrocode_push_overflow⟩

/-! ## Exchanges: ROT and SWAP -/

/-- T1 of SWAP, and of ROT once the third word is known to exist (90_conflicts.md C1). -/
def exchangeTopTwo : Micro Unit :=
  andThen (top 0) fun x =>
  andThen (top 1) fun y =>
  andThen (setTop 0 y) fun _ =>
  andThen (setTop 1 x) fun _ => advance

/-- T1 of ROT. -/
def exchangeAboveThird : Micro Unit := andThen (top 2) fun _ => exchangeTopTwo

section
variable {s : State} {y x : Word}

theorem exchangeTopTwo_ok (h2 : 2 ≤ s.head) (hy : s.slot (s.head - 2) = y) (hx : s.slot (s.head - 1) = x) :
    exchangeTopTwo s =
      .ok () (((s.setSlot (s.head - 1) y).setSlot (s.head - 2) x).setPc (s.pc + 1)) := by
  subst hy hx
  have h1 : 1 ≤ s.head := Nat.le_of_succ_le h2
  exact (andThen_ok (top_ok (k := 0) h1)).trans <| (andThen_ok (top_ok (k := 1) h2)).trans <|
    (andThen_ok (setTop_ok (k := 0) h1)).trans (andThen_ok (setTop_ok (k := 1) h2))

/-- The first read that fails is that of `top(head)`. -/
theorem exchangeTopTwo_underflow (h : s.head < 2) :
    exchangeTopTwo s = .error (.fault .stackUnderflow (BitVec.ofNat 32 s.head)) s := by
  have hhead : s.head = 0 ∨ s.head = 1 := by omega
  rcases hhead with h0 | h1
  · rw [h0]
    exact andThen_error (top_underflow h0.le)
  · rw [h1]
    exact (andThen_ok (top_ok (k := 0) h1.ge)).trans (andThen_error (top_underflow h1.le))

/-- The third word is read and left as it is. -/
theorem exchangeAboveThird_ok (h3 : 3 ≤ s.head) (hy : s.slot (s.head - 2) = y) (hx : s.slot (s.head - 1) = x) :
    exchangeAboveThird s =
      .ok () (((s.setSlot (s.head - 1) y).setSlot (s.head - 2) x).setPc (s.pc + 1)) :=
  (andThen_ok (top_ok (k := 2) h3)).trans (exchangeTopTwo_ok (Nat.le_of_succ_le h3) hy hx)

theorem exchangeAboveThird_underflow (h : s.head < 3) :
    exchangeAboveThird s = .error (.fault .stackUnderflow 2) s :=
  andThen_error (top_underflow (Nat.le_of_lt_succ h))

end

theorem exec_rot (arg : Arg) (s : State) : exec (.rot arg) s = runMicrocode (.rot arg) [exchangeAboveThird] s := rfl

theorem exec_swap (arg : Arg) (s : State) : exec (.swap arg) s = runMicrocode (.swap arg) [exchangeTopTwo] s := rfl

/-- Settles O32: both exchange the top two words where the words they need exist. -/
theorem rotAndSwapRule : Obligations.RotAndSwapRule := by
  intro arg s y x _ hy hx
  rw [exec_rot, exec_swap]
  refine ⟨opcField_encode (.rot arg), opcField_encode (.swap arg), ?rot, ?rotShort, ?swap, ?swapShort⟩
  case rot => exact fun h3 => runMicrocode_one_ok (exchangeAboveThird_ok (s := s.issue _) h3 hy hx)
  case rotShort => exact fun hshort => runMicrocode_one_error (exchangeAboveThird_underflow (s := s.issue _) hshort)
  case swap => exact fun h2 => runMicrocode_one_ok (exchangeTopTwo_ok (s := s.issue _) h2 hy hx)
  case swapShort => exact fun hshort => runMicrocode_one_error (exchangeTopTwo_underflow (s := s.issue _) hshort)

/-! ## DROP -/

/-- T1 of DROP. -/
def dropTop : Micro Unit := andThen (adjust .dec1) fun _ => advance

section
variable {s : State}

theorem dropTop_ok (hne : 1 ≤ s.head) (hcap : s.head < 256) :
    dropTop s = .ok () ((s.setHead (s.head - 1)).setPc (s.pc + 1)) :=
  andThen_ok (adjust_dec1_ok hne hcap.le)

theorem dropTop_underflow (hempty : s.head = 0) : dropTop s = .error (.fault .stackUnderflow (-1)) s := by
  have hneg : (s.head : Int) + HeadDelta.dec1.toInt < 0 := by rw [hempty]; decide
  exact andThen_error (adjust_underflow hneg)

end

theorem exec_drop (arg : Arg) (s : State) : exec (.drop arg) s = runMicrocode (.drop arg) [dropTop] s := rfl

/-- Settles O34: the head goes down by one, or cannot. -/
theorem dropRule : Obligations.DropRule := by
  intro arg s hcap
  rw [exec_drop]
  exact ⟨opcField_encode (.drop arg), fun hne => runMicrocode_one_ok (dropTop_ok (s := s.issue _) hne hcap),
    fun hempty => runMicrocode_one_error (dropTop_underflow (s := s.issue _) hempty)⟩

end Sys2Proof.Proofs
end

section
/-! Input exhaustion in the indirect accesses READ_NDR and WR_NDR (60_exceptions.md R264). Their T2 reads the pointer and
then pushes it; the read of an empty input port stops the run before the push, so the stop is NORMAL at every depth the
stack can have there, and head 255, where the push would overflow, is one of them. -/

namespace Sys2Proof.Proofs
open Sys2Proof.Machine

/-! ## T1 of WR_NDR, and T2 of both -/

/-- T1 of WR_NDR, which latches the top word as T1 of READ_NDR does, but over a second operand. -/
def latchTopOfTwo : Micro Unit := andThen (top 0) fun a => andThen (top 1) fun _ => latch a

/-- T2 of READ_NDR and of WR_NDR: the pointer is read, then pushed. -/
def pushPointer : Micro Unit := andThen memRead fun p => push p

section
variable {s : State} {a : Word}

theorem latchTopOfTwo_ok (h2 : 2 ≤ s.head) (ha : s.slot (s.head - 1) = a) (hl : s.latchable a) :
    latchTopOfTwo s = .ok () (s.setMar a) := by
  subst ha
  have hunder : top 1 s = .ok _ s := top_ok (k := 1) h2
  exact (andThen_ok (top_ok (k := 0) (Nat.zero_lt_of_lt h2))).trans ((andThen_ok hunder).trans (latch_ok hl.1 hl.2))

/-- No premise on `head`: the push, and with it the overflow, is never reached. -/
theorem pushPointer_exhausted (hmar : s.mar = 0) (hq : s.inq = []) : pushPointer s = .error .normal s :=
  andThen_error (memRead_exhausted (marCell_of_inputPort hmar) hq)

end

/-! ## The two instructions at the empty input port -/

section
variable {s : State} (arg : Arg)

theorem exec_readNdr (s : State) :
    exec (.readNdr arg) s = runMicrocode (.readNdr arg) (latchTop :: pushPointer :: microReadNdr.drop 2) s := rfl

theorem exec_wrNdr (s : State) :
    exec (.wrNdr arg) s = runMicrocode (.wrNdr arg) (latchTopOfTwo :: pushPointer :: microWrNdr.drop 2) s := rfl

theorem exec_readNdr_exhausted (hne : 1 ≤ s.head) (ha : s.slot (s.head - 1) = 0) (hq : s.inq = []) :
    exec (.readNdr arg) s = .next ((latchedState s (.readNdr arg) 0).halted .normal 0) := by
  rw [exec_readNdr]
  exact runMicrocode_latchTop_error hne ha (latchable_inputPort s) (pushPointer_exhausted rfl hq)

theorem exec_wrNdr_exhausted (h2 : 2 ≤ s.head) (ha : s.slot (s.head - 1) = 0) (hq : s.inq = []) :
    exec (.wrNdr arg) s = .next ((latchedState s (.wrNdr arg) 0).halted .normal 0) := by
  rw [exec_wrNdr]
  exact runMicrocode_error_in_second (latchTopOfTwo_ok h2 ha (latchable_inputPort s)) (pushPointer_exhausted rfl hq)

end

theorem halted_normal_endedNormal (s : State) : (s.halted .normal 0).endedNormal :=
  ⟨halted_phase .., by rw [halted_status]; decide⟩

/-- Settles O39: both instructions stop in T2, with T1's tick counted, whatever the push would have done. -/
theorem exhaustionComesBeforeOverflow : Obligations.ExhaustionComesBeforeOverflow := by
  intro arg s hfull hport hq
  have htop : s.slot (s.head - 1) = 0 := by rwa [hfull]
  have hdepth : 2 ≤ s.head := by omega
  exact ⟨_, _, exec_readNdr_exhausted arg (Nat.le_of_succ_le hdepth) htop hq, exec_wrNdr_exhausted arg hdepth htop hq,
    halted_normal_endedNormal _, halted_normal_endedNormal _, rfl, rfl⟩

end Sys2Proof.Proofs
end

section
/-! The edge cases of a run (70_reset_and_hazards.md R309). From READY a run's first step is the start action, so two
steps are one macro-step of the started core; the rest is the order of the checks of that macro-step: the ceiling before
the fetch, and the fetch before any instruction. -/

namespace Sys2Proof.Proofs
open Sys2Proof.Machine

/-! ## The first macro-step of a run -/

theorem start_of_ready {s : State} (h : s.phase = .ready) :
    s.start = { s with phase := .check, status := setStatusRun s.status .running } :=
  if_pos h

theorem run_succ_of_next {M : Host.Core} {k : Nat} {s t : M.State} (h : M.step s = .next t) :
    M.run (k + 1) s = M.run k t := by
  rw [Host.Core.run, h]

theorem run_two_of_ready {s t : State} (h : s.phase = .ready)
    (hstep : step { s with phase := .check, status := setStatusRun s.status .running } = .next t) :
    Host.Core.run Sys2Proof.core 2 s = .next t := by
  rw [← start_of_ready h] at hstep
  exact (run_succ_of_next (M := Sys2Proof.core) (step_ready h)).trans (run_succ_of_next hstep)

/-! ## How a macro-step stopped before its fetch, or at it, has ended -/

/-- The ceiling check is the first of a macro-step (70_reset_and_hazards.md R303), so no premise on the word at `pc`. -/
theorem step_at_ceiling {s : State} (hphase : s.phase = .check) (hceiling : s.ceiling ≤ s.retired) :
    step s = .next (s.halted .ceiling 0) := by
  rw [step_check hphase, macroStep, if_pos hceiling]
  rfl

theorem halted_ceiling_endedCeiling (s : State) : (s.halted .ceiling 0).endedCeiling :=
  ⟨halted_phase .., by rw [halted_status]; decide⟩

theorem takeFault_fetchOutOfRange_ended (s : State) (info : Word) (opc : OpcodeNumber) :
    (s.takeFault .fetchOutOfRange info opc).endedFault ∧
      statusCause (s.takeFault .fetchOutOfRange info opc).status = 1 := by
  rw [State.endedFault, takeFault_status]
  exact ⟨⟨takeFault_phase .., by decide⟩, by decide⟩

/-- Settles O43: under ceiling 0, and before a HALT, the ceiling check comes first; in the empty program index 0 is
already out of range. -/
theorem edgeCasesOfARun : Obligations.EdgeCasesOfARun := by
  intro program data memorySize ceiling input
  refine ⟨?ceilingZero, ?emptyProgram, ?ceilingBeforeHalt⟩
  case ceilingZero =>
    have hrun := run_two_of_ready (s := loadedState program data memorySize 0 input) rfl
      (step_at_ceiling rfl le_rfl)
    exact ⟨_, hrun, halted_ceiling_endedCeiling _, rfl, rfl, rfl⟩
  case emptyProgram =>
    intro hceiling
    have hrun := run_two_of_ready (s := loadedState [] data memorySize ceiling input) rfl
      (step_of_pc_outOfRange rfl hceiling (.inr le_rfl))
    obtain ⟨hfault, hcause⟩ := takeFault_fetchOutOfRange_ended _ _ _
    exact ⟨_, hrun, hfault, hcause, rfl, rfl⟩
  case ceilingBeforeHalt =>
    intro s hphase hreached _
    exact ⟨_, step_at_ceiling hphase hreached.ge, halted_ceiling_endedCeiling s⟩

end Sys2Proof.Proofs
end

section
/-! Decoding and encoding (30_encoding.md R124 to R131). The encoder's direction rests on `decode_encodeParts`; the
decoder's is an inversion of its two halves, tests 1 to 4 (`readFields`) and tests 5 and 6 (`assemble`). -/

namespace Sys2Proof.Proofs
open Sys2Proof.Machine

/-! ## From the instruction to the word and back -/

/-- An instruction is well formed exactly where its argument is. -/
theorem wellFormed_eq_arg (i : Instr) : i.wellFormed = i.arg.wellFormed := by cases i <;> rfl

/-- An instruction is assembled from its own opcode and argument. -/
theorem assemble_opcode_arg (i : Instr) : assemble i.opcode i.arg = .ok i := by cases i <;> rfl

/-- Settles O1: tests 1 to 4 pass on the encoded word, and its fields assemble to the instruction. -/
theorem decodeOfEncodeIsIdentity : Obligations.DecodeOfEncodeIsIdentity := by
  intro i hwf
  rw [wellFormed_eq_arg] at hwf
  exact (decode_encodeParts i.opcode hwf).trans (assemble_opcode_arg i)

/-! ## From the word to the instruction and back -/

/-- All that `readFields` does when it answers: the word is the encoding of the opcode and the argument. -/
theorem readFields_eq_ok {w : InstrWord} {op : Opcode} {arg : Arg} (h : readFields w = .ok (op, arg)) :
    encodeParts op arg = w ∧ arg.wellFormed = true := by
  unfold readFields at h
  split at h
  case h_1 => cases h
  case h_2 op' hop =>
    have hnumber := number_of_ofNumber hop
    split at h
    next => cases h
    next hres =>
      have hpack := packFields_fields (not_not.1 hres)
      split at h
      next hpresent =>
        split at h
        next => cases h
        next hstray =>
          cases h
          obtain ⟨hchar, hfield⟩ := not_or.1 hstray
          rw [hpresent, Bool.eq_false_of_not_eq_true hchar, not_not.1 hfield] at hpack
          exact ⟨by rw [encodeParts, hnumber]; exact hpack, rfl⟩
      next hpresent =>
        rw [Bool.eq_true_of_not_eq_false hpresent] at hpack
        split at h
        next hchar =>
          split at h
          next => cases h
          next hcode =>
            cases h
            rw [hchar] at hpack
            exact ⟨by rw [encodeParts, hnumber]; exact hpack, decide_eq_true (Nat.not_lt.1 hcode)⟩
        next hchar =>
          cases h
          rw [Bool.eq_false_of_not_eq_true hchar] at hpack
          exact ⟨by rw [encodeParts, hnumber]; exact hpack, rfl⟩

theorem jumpTarget_eq_ok {arg : Arg} {t : Word} (h : jumpTarget arg = .ok t) : arg = some (.int t) := by
  rcases arg with _ | (n | c) <;> cases h
  rfl

/-- All that `assemble` does when it answers: an instruction of that opcode and that argument. -/
theorem assemble_eq_ok {op : Opcode} {arg : Arg} {i : Instr} (h : assemble op arg = .ok i) :
    i.opcode = op ∧ i.arg = arg := by
  cases op
  case jmp =>
    cases hj : jumpTarget arg <;> simp only [assemble, hj] at h <;> cases h
    exact ⟨rfl, (jumpTarget_eq_ok hj).symm⟩
  case jnt =>
    cases hj : jumpTarget arg <;> simp only [assemble, hj] at h <;> cases h
    exact ⟨rfl, (jumpTarget_eq_ok hj).symm⟩
  case push =>
    cases arg <;> cases h
    exact ⟨rfl, rfl⟩
  all_goals
    cases h
    exact ⟨rfl, rfl⟩

/-- All that `decode` does when it answers. -/
theorem decode_eq_ok {w : InstrWord} {i : Instr} (h : decode w = .ok i) :
    readFields w = .ok (i.opcode, i.arg) := by
  unfold decode at h
  split at h
  next => cases h
  next op arg hread =>
    obtain ⟨rfl, rfl⟩ := assemble_eq_ok h
    exact hread

/-- Settles O2: the decoder's two halves inverted. -/
theorem encodeOfDecodeIsIdentity : Obligations.EncodeOfDecodeIsIdentity := by
  intro w i h
  rw [wellFormed_eq_arg]
  exact readFields_eq_ok (decode_eq_ok h)

/-! ## The illegal encodings, by field -/

/-- Tests 1 to 4 reject a word by its fields alone. -/
theorem readFields_isError_iff {w : InstrWord} : (∃ e, readFields w = .error e) ↔
    Opcode.ofNumber (opcField w) = none ∨ resField w ≠ 0 ∨
      (argPresent w = false ∧ (argIsChar w = true ∨ argField w ≠ 0)) ∨
      (argIsChar w = true ∧ Config.maxCharCode < (argField w).toNat) := by
  unfold readFields
  generalize argField w = field
  cases hop : Opcode.ofNumber (opcField w) with
  | none => simp
  | some op =>
    by_cases hres : resField w = 0
    case neg => simp only [ne_eq, hres, not_false_eq_true, if_true, Except.error.injEq, exists_eq', true_or, or_true]
    simp only [ne_eq, hres, not_true_eq_false, if_false]
    cases argPresent w <;> cases argIsChar w
    case false.false => by_cases hfield : field = 0#32 <;> simp [hfield]
    case false.true => simp
    case true.false => simp
    case true.true => by_cases hcode : Config.maxCharCode < field.toNat <;> simp [hcode]

/-- Tests 5 and 6 reject a jump without an integer and a PUSH without an argument. -/
theorem assemble_isError_iff {op : Opcode} {arg : Arg} : (∃ e, assemble op arg = .error e) ↔
    ((op = .jmp ∨ op = .jnt ∨ op = .push) ∧ arg = none) ∨ ((op = .jmp ∨ op = .jnt) ∧ ∃ c, arg = some (.chr c)) := by
  cases op
  case jmp => rcases arg with _ | (n | c) <;> simp [assemble, jumpTarget]
  case jnt => rcases arg with _ | (n | c) <;> simp [assemble, jumpTarget]
  case push => cases arg <;> simp [assemble]
  all_goals simp [assemble]

theorem decode_isError_iff {w : InstrWord} : (∃ e, decode w = .error e) ↔ (∃ e, readFields w = .error e) ∨
    ∃ op arg, readFields w = .ok (op, arg) ∧ ∃ e, assemble op arg = .error e := by
  unfold decode
  rcases readFields w with e | ⟨op, arg⟩ <;> simp

/-! ## The fields as parts of the word's number -/

section
variable (w : InstrWord)

theorem opcField_toNat : (opcField w).toNat = w.toNat % 256 := by simp [opcField]

theorem argField_toNat : (argField w).toNat = w.toNat / 65536 := by
  have := w.isLt
  simp [argField, Nat.shiftRight_eq_div_pow]
  omega

theorem resField_eq_zero_iff : resField w = 0 ↔ w.toNat / 1024 % 64 = 0 := by
  rw [← BitVec.toNat_inj]
  simp [resField, Nat.shiftRight_eq_div_pow]

theorem argPresent_iff : argPresent w = true ↔ w.toNat / 256 % 2 = 1 := by
  simp [argPresent, BitVec.getLsbD, Nat.testBit_eq_decide_div_mod_eq]

theorem argIsChar_iff : argIsChar w = true ↔ w.toNat / 512 % 2 = 1 := by
  simp [argIsChar, BitVec.getLsbD, Nat.testBit_eq_decide_div_mod_eq]

end

/-- A word that passes tests 1 to 4 holds its opcode and its argument in the fields that tests 5 and 6 ask about. -/
theorem fields_of_readFields {w : InstrWord} {op : Opcode} {arg : Arg} (h : readFields w = .ok (op, arg)) :
    opcField w = op.number ∧ (argPresent w = false ↔ arg = none) ∧
      (argIsChar w = true ↔ ∃ c, arg = some (.chr c)) := by
  obtain ⟨rfl, -⟩ := readFields_eq_ok h
  obtain ⟨hopc, -, hpresent, hchar, -⟩ := Laws.encodeParts_fields op arg
  rw [hopc, hpresent, hchar]
  rcases arg with _ | (n | c) <;> simp

/-- Opcode numbers are distinct, as `ofNumber` inverts them. -/
theorem number_eq_iff {op op' : Opcode} : op.number.toNat = op'.number.toNat ↔ op = op' := by
  refine ⟨fun h => ?_, fun h => h ▸ rfl⟩
  have hsome := congrArg Opcode.ofNumber (BitVec.eq_of_toNat_eq h)
  simpa using hsome

/-- Tests 5 and 6, by the fields of a word that passes tests 1 to 4. -/
theorem assemble_isError_iff_fields {w : InstrWord} {op : Opcode} {arg : Arg} (h : readFields w = .ok (op, arg)) :
    (∃ e, assemble op arg = .error e) ↔
      (((opcField w).toNat = 0x05 ∨ (opcField w).toNat = 0x06 ∨ (opcField w).toNat = 0x17) ∧ argPresent w = false) ∨
      (((opcField w).toNat = 0x05 ∨ (opcField w).toNat = 0x06) ∧ argIsChar w = true) := by
  obtain ⟨hopc, hpresent, hchar⟩ := fields_of_readFields h
  have hjmp : op.number.toNat = 0x05 ↔ op = .jmp := number_eq_iff (op' := .jmp)
  have hjnt : op.number.toNat = 0x06 ↔ op = .jnt := number_eq_iff (op' := .jnt)
  have hpush : op.number.toNat = 0x17 ↔ op = .push := number_eq_iff (op' := .push)
  rw [assemble_isError_iff, hopc, hpresent, hchar, hjmp, hjnt, hpush]

/-- The two halves of the decoder together: every test by the fields of the word. -/
theorem decode_isError_iff_fields {w : InstrWord} : (∃ e, decode w = .error e) ↔
    (Opcode.ofNumber (opcField w) = none ∨ resField w ≠ 0 ∨
      (argPresent w = false ∧ (argIsChar w = true ∨ argField w ≠ 0)) ∨
      (argIsChar w = true ∧ Config.maxCharCode < (argField w).toNat)) ∨
    (((opcField w).toNat = 0x05 ∨ (opcField w).toNat = 0x06 ∨ (opcField w).toNat = 0x17) ∧ argPresent w = false) ∨
      (((opcField w).toNat = 0x05 ∨ (opcField w).toNat = 0x06) ∧ argIsChar w = true) := by
  rw [decode_isError_iff, ← readFields_isError_iff]
  cases hread : readFields w with
  | error e => exact iff_of_true (.inl ⟨e, rfl⟩) (.inl ⟨e, rfl⟩)
  | ok p =>
    obtain ⟨op, arg⟩ := p
    have hnone : ¬ ∃ e, Except.ok (op, arg) = Except.error (ε := DecodeError) e := nofun
    rw [or_iff_right hnone, or_iff_right hnone, ← assemble_isError_iff_fields hread]
    simp

/-- Settles O3: each field of the word is a part of its number. -/
theorem illegalEncodingsAreExactlyTheListed : Obligations.IllegalEncodingsAreExactlyTheListed := by
  intro w
  have hpresent : argPresent w = false ↔ w.toNat / 256 % 2 = 0 := by
    rw [← Bool.not_eq_true, argPresent_iff]
    omega
  have hfield : argField w ≠ 0 ↔ w.toNat / 65536 ≠ 0 := by
    rw [← argField_toNat, ne_eq, ← BitVec.toNat_inj]
    rfl
  rw [decode_isError_iff_fields, ofNumber_eq_none, ne_eq, resField_eq_zero_iff, hpresent, hfield, opcField_toNat,
    argField_toNat, argIsChar_iff]
  have hbit : w.toNat / 512 % 2 ≠ 0 ↔ w.toNat / 512 % 2 = 1 := by omega
  rw [hbit]
  simp only [or_assoc, ne_eq]

/-- Settles O4: each word is decoded by evaluation. -/
theorem specWordsDecode : Obligations.SpecWordsDecode := by
  refine ⟨?_, ?_, ?_, ?_, ?_, ?_, ?_, ?_⟩ <;> decide

end Sys2Proof.Proofs
end

section
/-! The fields of STATUS and the state a stop leaves (10_state.md R52, R53; 60_exceptions.md R256 to R258, R262): one
lemma for each field of `State.stop`, so that how a run ended is read off the stop it met. -/

namespace Sys2Proof.Proofs
open Sys2Proof.Machine

/-! ## STATUS -/

theorem toNat_append_eq_add {n m : Nat} (x : BitVec n) (y : BitVec m) :
    (x ++ y).toNat = 2 ^ m * x.toNat + y.toNat := by
  rw [BitVec.toNat_append, ← Nat.shiftLeft_add_eq_or_of_lt y.isLt, Nat.shiftLeft_eq, Nat.mul_comm]

section
variable (run : RunState) (why : Why) (cause : BitVec 8)

theorem statusWord_toNat : (statusWord run why cause).toNat =
    run.code.toNat + 4 * why.code.toNat + 16 * cause.toNat := by
  rw [statusWord, toNat_append_eq_add, toNat_append_eq_add, toNat_append_eq_add]
  simp
  omega

@[simp] theorem statusRun_statusWord : statusRun (statusWord run why cause) = run.code := by
  have := run.code.isLt
  apply BitVec.eq_of_toNat_eq
  rw [statusRun, BitVec.extractLsb'_toNat, statusWord_toNat, Nat.shiftRight_eq_div_pow]
  omega

@[simp] theorem statusWhy_statusWord : statusWhy (statusWord run why cause) = why.code := by
  have := run.code.isLt
  have := why.code.isLt
  apply BitVec.eq_of_toNat_eq
  rw [statusWhy, BitVec.extractLsb'_toNat, statusWord_toNat, Nat.shiftRight_eq_div_pow]
  omega

@[simp] theorem statusCause_statusWord : statusCause (statusWord run why cause) = cause := by
  have := run.code.isLt
  have := why.code.isLt
  have := cause.isLt
  apply BitVec.eq_of_toNat_eq
  rw [statusCause, BitVec.extractLsb'_toNat, statusWord_toNat, Nat.shiftRight_eq_div_pow]
  omega

@[simp] theorem statusReserved_statusWord : (statusWord run why cause).extractLsb' 12 4 = 0 := by
  have := run.code.isLt
  have := why.code.isLt
  have := cause.isLt
  apply BitVec.eq_of_toNat_eq
  rw [BitVec.extractLsb'_toNat, statusWord_toNat, Nat.shiftRight_eq_div_pow]
  simp
  omega

end

theorem whyCode_injective {why why' : Why} : why.code = why'.code ↔ why = why' := by
  cases why <;> cases why' <;> decide

theorem causeCode_injective {c c' : FaultCause} : c.code = c'.code ↔ c = c' := by
  cases c <;> cases c' <;> decide

/-- Settles O35: the updates of `takeFault`, and the three fields of the STATUS it writes. -/
theorem takingAFaultRecords : Obligations.TakingAFaultRecords :=
  fun s cause info opc => ⟨rfl, by rw [takeFault_status, statusWord_toNat]; rfl⟩

/-- Settles O36: the two tables by evaluation. -/
theorem causesHaveTheirCodes : Obligations.CausesHaveTheirCodes := ⟨rfl, rfl⟩

/-! ## The state a stop leaves -/

/-- STATUS.WHY of a stop (10_state.md R52). -/
def Stop.why : Stop → Why
  | .normal    => .normal
  | .ceiling   => .ceiling
  | .fault _ _ => .fault

/-- STATUS.CAUSE of a stop (10_state.md R52). -/
def Stop.cause : Stop → BitVec 8
  | .fault cause _ => cause.code
  | _              => 0

section
variable (s : State) (opc : OpcodeNumber) (e : Stop)

@[simp] theorem stop_status : (s.stop opc e).status = statusWord .stopped (Stop.why e) (Stop.cause e) := by
  cases e <;> rfl
@[simp] theorem stop_phase : (s.stop opc e).phase = .stopped := by cases e <;> rfl
@[simp] theorem stop_upc : (s.stop opc e).upc = 0 := by cases e <;> rfl
@[simp] theorem stop_stack : (s.stop opc e).stack = s.stack := by cases e <;> rfl
@[simp] theorem stop_head : (s.stop opc e).head = s.head := by cases e <;> rfl
@[simp] theorem stop_pc : (s.stop opc e).pc = s.pc := by cases e <;> rfl
@[simp] theorem stop_ticks : (s.stop opc e).ticks = s.ticks := by cases e <;> rfl
@[simp] theorem stop_retired : (s.stop opc e).retired = s.retired := by cases e <;> rfl
@[simp] theorem stop_mar : (s.stop opc e).mar = s.mar := by cases e <;> rfl
@[simp] theorem stop_mem : (s.stop opc e).mem = s.mem := by cases e <;> rfl
@[simp] theorem stop_inq : (s.stop opc e).inq = s.inq := by cases e <;> rfl
@[simp] theorem stop_outq : (s.stop opc e).outq = s.outq := by cases e <;> rfl
@[simp] theorem stop_dbg : (s.stop opc e).dbg = s.dbg := by cases e <;> rfl
@[simp] theorem stop_memorySize : (s.stop opc e).memorySize = s.memorySize := by cases e <;> rfl
@[simp] theorem stop_ceiling : (s.stop opc e).ceiling = s.ceiling := by cases e <;> rfl
@[simp] theorem stop_programLength : (s.stop opc e).programLength = s.programLength := by cases e <;> rfl

/-- A run that ended with a fault met one. -/
theorem stop_endedFault_iff : (s.stop opc e).endedFault ↔ ∃ cause info, e = .fault cause info := by
  rw [State.endedFault, stop_phase, stop_status, statusWhy_statusWord, whyCode_injective]
  cases e <;> simp [Stop.why]

/-- A run that ended NORMAL met a NORMAL stop. -/
theorem stop_endedNormal_iff : (s.stop opc e).endedNormal ↔ e = .normal := by
  rw [State.endedNormal, stop_phase, stop_status, statusWhy_statusWord, whyCode_injective]
  cases e <;> simp [Stop.why]

end

/-- Settles O21: HALT is its issue and a NORMAL stop. -/
theorem haltStopsNormal : Obligations.HaltStopsNormal := fun _ _ => rfl

end Sys2Proof.Proofs
end

section
/-! All that a step can come to (70_reset_and_hazards.md R303 to R307): the start action, nothing in STOPPED, and from
CHECK either a whole instruction that retires or a stop. The claims about single steps and about runs are read off these
ends, without the step function. -/

namespace Sys2Proof.Proofs
open Sys2Proof.Machine

/-! ## The step from each phase -/

/-- Settles O42: READY and STOPPED have one transition each. -/
theorem startAndStoppedSteps : Obligations.StartAndStoppedSteps := by
  intro s
  refine ⟨fun hready hstatus => ?_, step_stopped⟩
  have hrunning : setStatusRun 0 .running = 0x0001 := by decide
  rw [step_ready hready, start_of_ready hready, hstatus, hrunning]

section
variable {s : State} {w : InstrWord} (hphase : s.phase = .check) (hceiling : s.retired < s.ceiling)
include hphase hceiling

/-- Below the ceiling the macro-step fetches, then decodes (60_exceptions.md R263). -/
theorem step_of_decode_error {e : DecodeError} (hfetch : fetch s = .ok w) (hdecode : decode w = .error e) :
    step s = .next (s.takeIllegal w) := by
  rw [step_check hphase, macroStep, if_neg (Nat.not_le.2 hceiling)]
  simp only [hfetch, hdecode]

theorem step_of_decode_ok {i : Instr} (hfetch : fetch s = .ok w) (hdecode : decode w = .ok i) :
    step s = exec i s := by
  rw [step_check hphase, macroStep, if_neg (Nat.not_le.2 hceiling)]
  simp only [hfetch, hdecode]

end

/-- A program counter in the program is its own index. -/
theorem toNat_toInt_of_nonneg {p : Word} (h : 0 ≤ p.toInt) : p.toInt.toNat = p.toNat := by
  have := BitVec.toInt_eq_toNat_cond p
  split at this <;> omega

theorem fetch_eq_ok_of_bounds {s : State} (h0 : 0 ≤ s.pc.toInt) (hlen : s.pc.toInt < s.programLength)
    (hsize : 128 + s.pc.toInt < s.memorySize) : fetch s = .ok (s.mem.instrWord (128 + s.pc.toNat)) := by
  rw [fetch_ok h0 hlen hsize, toNat_toInt_of_nonneg h0]

/-- Settles O40: the ceiling, the fetch and the decoder let the instruction through. -/
theorem stepRunsTheDecodedInstruction : Obligations.StepRunsTheDecodedInstruction := by
  intro s i hphase hceiling h0 hlen hsize hdecode
  exact step_of_decode_ok hphase hceiling (fetch_eq_ok_of_bounds h0 hlen hsize) hdecode

/-- FAULT_INFO and FAULT_OPC of an illegal instruction as parts of the word's number (60_exceptions.md R256, R257). -/
theorem takeIllegal_eq (s : State) (w : InstrWord) : s.takeIllegal w =
    s.takeFault .illegalInstruction (BitVec.ofNat 32 (w.toNat % 65536)) (BitVec.ofNat 8 (w.toNat % 256)) := by
  have hinfo : (w.extractLsb' 0 16).setWidth 32 = BitVec.ofNat 32 (w.toNat % 65536) := by
    apply BitVec.eq_of_toNat_eq
    simp
  have hopc : opcField w = BitVec.ofNat 8 (w.toNat % 256) := by
    apply BitVec.eq_of_toNat_eq
    simp [opcField_toNat]
  rw [State.takeIllegal, hinfo, hopc]

/-- Settles O41: each check comes where those before it have passed. -/
theorem checksBeforeExecution : Obligations.ChecksBeforeExecution := by
  intro s hphase
  refine ⟨fun hceiling => ?_, fun hceiling hpc => step_of_pc_outOfRange hphase hceiling hpc, ?illegal⟩
  · rw [step_at_ceiling hphase hceiling, State.halted]
    have hstatus : statusWord .stopped .ceiling 0 = 0x000A := by decide
    rw [hstatus]
  case illegal =>
    rintro hceiling h0 hlen hsize w e rfl hdecode
    rw [step_of_decode_error hphase hceiling (fetch_eq_ok_of_bounds h0 hlen hsize) hdecode, takeIllegal_eq]

/-! ## The ends of a step from CHECK -/

/-- The opcode field a stop records: that of the fetched word, or 0 where nothing was fetched
(60_exceptions.md R257). -/
def fetchedOpc (s : State) : OpcodeNumber :=
  match fetch s with
  | .ok w    => opcField w
  | .error _ => 0

theorem fetchedOpc_of_ok {s : State} {w : InstrWord} (h : fetch s = .ok w) : fetchedOpc s = opcField w := by
  rw [fetchedOpc, h]

theorem fetchedOpc_of_error {s : State} {e : Stop} (h : fetch s = .error e) : fetchedOpc s = 0 := by
  rw [fetchedOpc, h]

theorem opcField_of_decode {w : InstrWord} {i : Instr} (h : decode w = .ok i) : i.opcode.number = opcField w := by
  obtain ⟨rfl, -⟩ := encodeOfDecodeIsIdentity w i h
  exact (opcField_encode i).symm

/-- No instruction takes more than 5 ticks (70_reset_and_hazards.md R311). -/
theorem tickCount_le_five (i : Instr) : tickCount i ≤ 5 := by cases i <;> simp [tickCount]

/-- A step from CHECK that completes the instruction `i` with the micro-steps' last state `u`. -/
structure Completes (s : State) (i : Instr) (u : State) : Prop where
  below : s.retired < s.ceiling
  fetched : ∃ w, fetch s = .ok w ∧ decode w = .ok i
  ran : runTicks (microcode i) (s.issue i) = .ok () u
  same : SameRun (s.issue i) u
  ticks : u.ticks = s.ticks + tickCount i

/-- A step from CHECK that meets the stop `e` in the state `u`, with the opcode field `opc` for a fault's record. -/
structure StopsIn (s : State) (opc : OpcodeNumber) (e : Stop) (u : State) : Prop where
  opc : e ≠ .ceiling → opc = fetchedOpc s
  same : SameRun { s with ir := u.ir, phase := u.phase } u
  pc : u.pc = s.pc
  ticks_ge : s.ticks ≤ u.ticks
  ticks_le : u.ticks ≤ s.ticks + 4

/-- A stop before the instruction has done anything. -/
theorem stopsIn_self {s : State} {opc : OpcodeNumber} {e : Stop} (h : e ≠ .ceiling → opc = fetchedOpc s) :
    StopsIn s opc e s :=
  ⟨h, by constructor <;> rfl, rfl, le_rfl, Nat.le_add_right _ _⟩

/-- All that a step from CHECK can come to. -/
theorem step_check_ends {s t : State} (hphase : s.phase = .check) (h : step s = .next t) :
    (∃ i u, Completes s i u ∧ t = u.retire) ∨ ∃ opc e u, StopsIn s opc e u ∧ t = u.stop opc e := by
  rw [step_check hphase] at h
  rcases macroStep_cases s with ⟨-, hm⟩ | ⟨hbelow, ⟨hf, hm⟩ | ⟨w, e, hf, -, hm⟩ | ⟨w, i, hf, hd, hm⟩⟩ <;> rw [hm] at h
  case inl =>
    cases h
    exact .inr ⟨0, .ceiling, s, stopsIn_self (absurd rfl), rfl⟩
  case inr.inl =>
    cases h
    exact .inr ⟨0, .fault _ _, s, stopsIn_self fun _ => (fetchedOpc_of_error hf).symm, rfl⟩
  case inr.inr.inl =>
    cases h
    exact .inr ⟨opcField w, .fault _ _, s, stopsIn_self fun _ => (fetchedOpc_of_ok hf).symm, rfl⟩
  case inr.inr.inr =>
    have hfive := tickCount_le_five i
    have hopc : i.opcode.number = fetchedOpc s := (opcField_of_decode hd).trans (fetchedOpc_of_ok hf).symm
    rcases exec_ends h with ⟨u, hran, rfl, hsame, hticks⟩ | ⟨e, u, rfl, -, hsame, hpc, hge, hle⟩
    · exact .inl ⟨i, u, ⟨hbelow, ⟨w, hf, hd⟩, hran, hsame, hticks⟩, rfl⟩
    · exact .inr ⟨_, e, u, ⟨fun _ => hopc, hsame, hpc, hge, by omega⟩, rfl⟩

/-- Every instruction answers a next state. -/
theorem exec_answers (i : Instr) (s : State) : ∃ t, exec i s = .next t := by
  rcases exec_cases i s with ⟨arg, -, h⟩ | ⟨-, h⟩ | ⟨-, h, -⟩
  · exact ⟨_, h⟩
  · exact ⟨_, h⟩
  · rcases runMicrocode_cases i (microcode i) s with ⟨_, _, -, h'⟩ | ⟨_, _, -, h'⟩
    · exact ⟨_, h.trans h'⟩
    · exact ⟨_, h.trans h'⟩

/-- Every step from CHECK answers a next state. -/
theorem step_check_answers {s : State} (hphase : s.phase = .check) : ∃ t, step s = .next t := by
  rw [step_check hphase]
  rcases macroStep_cases s with ⟨-, hm⟩ | ⟨-, ⟨-, hm⟩ | ⟨w, e, -, -, hm⟩ | ⟨w, i, -, -, hm⟩⟩ <;> rw [hm]
  case inr.inr.inr => exact exec_answers i s
  all_goals exact ⟨_, rfl⟩

/-- Between macro-steps every step answers a next state. -/
theorem step_answers {s : State} (h : s.betweenSteps) : ∃ t, step s = .next t := by
  rcases h with hready | hcheck | hstopped
  · exact ⟨_, step_ready hready⟩
  · exact step_check_answers hcheck
  · exact ⟨_, step_stopped hstopped⟩

/-- Settles O52: the invariant keeps the core between macro-steps. -/
theorem stepAnswersUnderInvariant : Obligations.StepAnswersUnderInvariant := by
  rintro s ⟨-, -, -, ⟨hbetween, -⟩, -⟩
  exact step_answers hbetween

/-! ## What the ends say of faults and of runs -/

/-- Settles O37: a step that ends with a fault is a stop, which leaves the program counter and the retired count and
writes the record. -/
theorem faultsArePrecise : Obligations.FaultsArePrecise := by
  intro s t hphase hstep hfault
  rcases step_check_ends hphase hstep with ⟨i, u, -, rfl⟩ | ⟨opc, e, u, hstop, rfl⟩
  · obtain ⟨hstopped, -⟩ := hfault
    cases hstopped
  · obtain ⟨cause, info, rfl⟩ := (stop_endedFault_iff u opc e).1 hfault
    have hopc : opc = fetchedOpc s := hstop.opc nofun
    have hcause : 1 ≤ cause.code.toNat ∧ cause.code.toNat ≤ 11 := by cases cause <;> decide
    rw [stop_status, statusRun_statusWord, statusCause_statusWord]
    exact ⟨hstop.pc, hstop.same.retired, hstop.pc, rfl, hopc, rfl, hcause.1, hcause.2, step_stopped rfl⟩

/-- A core that stands at STOPPED stays as it is, for any number of steps. -/
theorem run_of_stopped {s : State} (h : s.phase = .stopped) (k : Nat) : Host.Core.run Sys2Proof.core k s = .next s := by
  induction k with
  | zero => rfl
  | succ k ih => exact (run_succ_of_next (M := Sys2Proof.core) (step_stopped h)).trans ih

/-- Settles O45: by induction on the instructions left below the ceiling; each step retires one of them or stops. -/
theorem everyRunStopsWithinItsCeiling : Obligations.EveryRunStopsWithinItsCeiling := by
  intro s hphase
  induction hleft : s.ceiling - s.retired generalizing s with
  | zero =>
    have hceiling : s.ceiling ≤ s.retired := by omega
    refine ⟨s.halted .ceiling 0, rfl, fun k => ?_⟩
    rw [Nat.zero_add, Nat.add_comm]
    exact (run_succ_of_next (M := Sys2Proof.core) (step_at_ceiling hphase hceiling)).trans (run_of_stopped rfl k)
  | succ n ih =>
    obtain ⟨t, hstep⟩ := step_check_answers hphase
    have hrun : ∀ k, Host.Core.run Sys2Proof.core (n + 1 + 1 + k) s = Host.Core.run Sys2Proof.core (n + 1 + k) t :=
      fun k => by
        rw [show n + 1 + 1 + k = n + 1 + k + 1 by omega]
        exact run_succ_of_next (M := Sys2Proof.core) hstep
    rcases step_check_ends hphase hstep with ⟨i, u, hcompletes, rfl⟩ | ⟨opc, e, u, -, rfl⟩
    · have hceiling : u.ceiling = s.ceiling := hcompletes.same.ceiling
      have hretired : u.retired = s.retired := hcompletes.same.retired
      obtain ⟨t, hstopped, ht⟩ := ih u.retire rfl (by rw [retire_ceiling, retire_retired]; omega)
      exact ⟨t, hstopped, fun k => (hrun k).trans (ht k)⟩
    · exact ⟨_, stop_phase u opc e, fun k => (hrun k).trans (run_of_stopped (stop_phase u opc e) _)⟩

/-! ## NORMAL ends -/

/-- An instruction that ends NORMAL is a HALT, or met the empty input port where it reads memory. -/
theorem exec_endedNormal {i : Instr} {s t : State} (h : exec i s = .next t) (hnormal : t.endedNormal) :
    (∃ arg, i = .halt arg) ∨
      (t.inq = [] ∧ t.mar = 0 ∧ ∃ arg, i = .readDir arg ∨ i = .readNdr arg ∨ i = .wrNdr arg) := by
  rcases exec_cases i s with ⟨arg, rfl, -⟩ | ⟨-, hexec⟩ | ⟨-, hexec, -⟩
  · exact .inl ⟨arg, rfl⟩
  · cases hexec.symm.trans h
    have hstop := (stop_endedNormal_iff s _ (.fault .unimplementedOpcode _)).1 hnormal
    cases hstop
  · rcases runMicrocode_cases i (microcode i) s with ⟨_, u, -, hend⟩ | ⟨e, u, hran, hend⟩ <;>
      cases (hexec.trans hend).symm.trans h
    · obtain ⟨hstopped, -⟩ := hnormal
      cases hstopped
    · obtain rfl := (stop_endedNormal_iff u _ e).1 hnormal
      have hexhausted := microcode_stopIs (Q := fun e t => e = .normal → t.inq = [] ∧ t.mar = 0 ∧
        ∃ arg, i = .readDir arg ∨ i = .readNdr arg ∨ i = .wrNdr arg) (fun _ _ _ => nofun) i
        (fun hreads t hport hq _ => ⟨hq, BitVec.eq_of_toNat_eq hport, hreads⟩)
      rw [stop_inq, stop_mar]
      exact .inr (hexhausted _ _ _ hran rfl)

/-- Settles O38: of the ends of a macro-step only an instruction's can be NORMAL. -/
theorem normalEndsAreHaltOrExhaustion : Obligations.NormalEndsAreHaltOrExhaustion := by
  intro s t hphase hstep hnormal
  rw [step_check hphase] at hstep
  rcases macroStep_cases s with ⟨-, hm⟩ | ⟨-, ⟨-, hm⟩ | ⟨w, e, -, -, hm⟩ | ⟨w, i, hf, hd, hm⟩⟩ <;> rw [hm] at hstep
  case inl =>
    cases hstep
    cases (stop_endedNormal_iff s 0 .ceiling).1 hnormal
  case inr.inl =>
    cases hstep
    cases (stop_endedNormal_iff s 0 (.fault .fetchOutOfRange s.pc)).1 hnormal
  case inr.inr.inl =>
    cases hstep
    cases (stop_endedNormal_iff s _ (.fault .illegalInstruction _)).1 hnormal
  case inr.inr.inr => exact ⟨w, i, hf, hd, exec_endedNormal hstep hnormal⟩

/-! ## Stopped instructions -/

/-- Where a stopped instruction stopped: it has no micro-steps, or one of them met the stop. -/
theorem exec_stopped_accounting {i : Instr} {s t : State} (h : exec i s = .next t) (hstopped : t.phase = .stopped) :
    (t.ticks = s.ticks ∧ tickCount i = 0) ∨
      ∃ (n : Nat) (m : Micro Unit) (u v : State) (e : Stop), n < tickCount i ∧
        runTicks ((microcode i).take n) (s.issue i) = .ok () u ∧ (microcode i)[n]? = some m ∧ m u = .error e v ∧
        t.ticks = s.ticks + n := by
  rcases exec_cases i s with ⟨arg, rfl, hexec⟩ | ⟨hop, hexec⟩ | ⟨-, hexec, -⟩
  · cases hexec.symm.trans h
    exact .inl ⟨rfl, rfl⟩
  · cases hexec.symm.trans h
    refine .inl ⟨rfl, ?_⟩
    rcases hop with ⟨arg, rfl⟩ | ⟨arg, rfl⟩ | ⟨arg, rfl⟩ <;> rfl
  · rcases runMicrocode_cases i (microcode i) s with ⟨_, u, -, hend⟩ | ⟨e, u, hran, hend⟩ <;>
      cases (hexec.trans hend).symm.trans h
    · cases hstopped
    · obtain ⟨n, m, v, hn, htake, hm, hstop, hticks⟩ := microcode_stop hran
      exact .inr ⟨n, m, v, u, e, hn, htake, hm, hstop, (stop_ticks u _ e).trans hticks⟩

/-- Settles O47: the ceiling, the fetch and the decoder count nothing; the rest is the instruction's own accounting. -/
theorem stoppedInstructionAccounting : Obligations.StoppedInstructionAccounting := by
  intro s t hphase hstep hstopped
  have hkept : t.retired = s.retired ∧ t.pc = s.pc := by
    rcases step_check_ends hphase hstep with ⟨i, u, -, rfl⟩ | ⟨opc, e, u, hstop, rfl⟩
    · cases hstopped
    · exact ⟨(stop_retired u opc e).trans hstop.same.retired, (stop_pc u opc e).trans hstop.pc⟩
  refine ⟨hkept.1, hkept.2, ?_⟩
  rw [step_check hphase] at hstep
  rcases macroStep_cases s with ⟨hc, hm⟩ | ⟨hc, ⟨hf, hm⟩ | ⟨w, e, hf, hd, hm⟩ | ⟨w, i, hf, hd, hm⟩⟩ <;> rw [hm] at hstep
  case inl =>
    cases hstep
    exact .inl ⟨rfl, .inl hc⟩
  case inr.inl =>
    cases hstep
    exact .inl ⟨rfl, .inr (.inl ⟨_, hf⟩)⟩
  case inr.inr.inl =>
    cases hstep
    exact .inl ⟨rfl, .inr (.inr ⟨w, hf, .inl ⟨e, hd⟩⟩)⟩
  case inr.inr.inr =>
    rcases exec_stopped_accounting hstep hstopped with ⟨hticks, hnone⟩ | ⟨n, m, u, v, e, hn, htake, hm', hmu, hticks⟩
    · exact .inl ⟨hticks, .inr (.inr ⟨w, hf, .inr ⟨i, hd, hnone⟩⟩)⟩
    · exact .inr ⟨w, i, n, m, u, v, e, hc, hf, hd, hn, htake, hm', hmu, hticks⟩

end Sys2Proof.Proofs
end

section
/-! What every step keeps, in every phase: the program, the debug table and the parameters, the two I/O buffers as
histories, and the canonical forms of stack and memory. Each is a relation from a state to its successors that every
update of a micro-step respects, so it passes through `step_respects`. -/

namespace Sys2Proof.Proofs
open Sys2Proof.Machine

/-! ## The program and the parameters -/

/-- The program region, the debug table and the run parameters are the same in two states. -/
structure SameProgram (s t : State) : Prop where
  text : t.mem.text = s.mem.text
  dbg : t.dbg = s.dbg
  memorySize : t.memorySize = s.memorySize
  ceiling : t.ceiling = s.ceiling
  programLength : t.programLength = s.programLength

theorem SameProgram.trans {s t u : State} (h : SameProgram s t) (k : SameProgram t u) : SameProgram s u :=
  ⟨k.text.trans h.text, k.dbg.trans h.dbg, k.memorySize.trans h.memorySize, k.ceiling.trans h.ceiling,
    k.programLength.trans h.programLength⟩

theorem closed_sameProgram : Closed SameProgram := by
  constructor
  case trans => exact fun _ _ _ => SameProgram.trans
  all_goals (intros; constructor <;> rfl)

theorem sameProgram_stop (s : State) (opc : OpcodeNumber) (e : Stop) : SameProgram s (s.stop opc e) :=
  ⟨by rw [stop_mem], stop_dbg s opc e, stop_memorySize s opc e, stop_ceiling s opc e, stop_programLength s opc e⟩

theorem sameProgram_start (s : State) : SameProgram s s.start := by
  rcases start_eq s with h | h <;> rw [h] <;> constructor <;> rfl

theorem step_sameProgram {s t : State} (h : step s = .next t) : SameProgram s t :=
  step_respects closed_sameProgram (fun _ => by constructor <;> rfl) (fun _ _ => by constructor <;> rfl)
    (fun _ _ => by constructor <;> rfl) (fun _ => by constructor <;> rfl) sameProgram_stop
    (fun _ _ _ => by constructor <;> rfl) sameProgram_start h

/-- Settles O53: data accesses write port and data cells only, and nothing else is written twice. -/
theorem programIsFixed : Obligations.ProgramIsFixed := by
  intro s t h
  have hsame := step_sameProgram h
  refine ⟨fun a => ?_, hsame.dbg, hsame.memorySize, hsame.ceiling, hsame.programLength⟩
  rw [Memory.instrWord, hsame.text]
  rfl

/-! ## Output and input -/

/-- Later output extends earlier output, and later input is what is left of earlier input (10_state.md R50, R51). -/
def IoAdvances (s t : State) : Prop := (∃ new, t.outq = s.outq ++ new) ∧ ∃ used, s.inq = used ++ t.inq

theorem ioAdvances_of_same {s t : State} (hout : t.outq = s.outq) (hin : t.inq = s.inq) : IoAdvances s t :=
  ⟨⟨[], by rw [hout, List.append_nil]⟩, ⟨[], by rw [hin, List.nil_append]⟩⟩

theorem IoAdvances.trans {s t u : State} (h : IoAdvances s t) (k : IoAdvances t u) : IoAdvances s u := by
  obtain ⟨⟨new, hout⟩, used, hin⟩ := h
  obtain ⟨⟨new', hout'⟩, used', hin'⟩ := k
  exact ⟨⟨new ++ new', by rw [hout', hout, List.append_assoc]⟩, ⟨used ++ used', by rw [hin, hin', List.append_assoc]⟩⟩

theorem closed_ioAdvances : Closed IoAdvances := by
  constructor
  case trans => exact fun _ _ _ => IoAdvances.trans
  case input => exact fun s c rest hq => ⟨⟨[], (List.append_nil _).symm⟩, [c], hq⟩
  case output => exact fun s v => ⟨⟨[token v], rfl⟩, [], rfl⟩
  all_goals exact fun _ => by intros; exact ioAdvances_of_same rfl rfl

/-- Settles O54: the read of the input port takes the front of INQ, the write of the output port appends to OUTQ, and
nothing else touches either. -/
theorem outputOnlyGrowsInputOnlyShrinks : Obligations.OutputOnlyGrowsInputOnlyShrinks := fun s _ h =>
  step_respects closed_ioAdvances (fun _ => ioAdvances_of_same rfl rfl) (fun _ _ => ioAdvances_of_same rfl rfl)
    (fun _ _ => ioAdvances_of_same rfl rfl) (fun _ => ioAdvances_of_same rfl rfl)
    (fun s opc e => ioAdvances_of_same (stop_outq s opc e) (stop_inq s opc e))
    (fun _ _ _ => ioAdvances_of_same rfl rfl)
    (fun s => by rcases start_eq s with h | h <;> rw [h] <;> exact ioAdvances_of_same rfl rfl) h

/-! ## The canonical forms -/

/-- Canonical forms of stack and memory are kept; the size of the memory, by which its form is judged, is the same. -/
structure KeepsForms (s t : State) : Prop where
  memorySize : t.memorySize = s.memorySize
  stack : s.stackOk → t.stackOk
  memory : s.memoryOk → t.memoryOk

theorem KeepsForms.trans {s t u : State} (h : KeepsForms s t) (k : KeepsForms t u) : KeepsForms s u :=
  ⟨k.memorySize.trans h.memorySize, k.stack ∘ h.stack, k.memory ∘ h.memory⟩

/-- An update of neither stack nor memory keeps their forms. -/
theorem keepsForms_of_same {s t : State} (hsize : t.memorySize = s.memorySize) (hhead : t.head = s.head)
    (hstack : t.stack = s.stack) (hmem : t.mem = s.mem) : KeepsForms s t :=
  ⟨hsize, by rw [State.stackOk, State.stackOk, hhead, hstack]; exact id,
    by rw [State.memoryOk, State.memoryOk, hsize, hmem]; exact id⟩

theorem closed_keepsForms : Closed KeepsForms := by
  constructor
  case refl => exact fun _ => keepsForms_of_same rfl rfl rfl rfl
  case trans => exact fun _ _ _ => KeepsForms.trans
  case slot =>
    intro s k v hk
    refine ⟨rfl, fun ⟨hhead, hform⟩ => ⟨hhead, ?_⟩, id⟩
    exact canonical_write v (Nat.zero_le k) (Nat.lt_of_le_of_lt hk hhead) hform
  case head => exact fun s n hn => ⟨rfl, fun ⟨_, hform⟩ => ⟨hn, hform⟩, id⟩
  case mar => exact fun _ _ => keepsForms_of_same rfl rfl rfl rfl
  case acc => exact fun _ _ => keepsForms_of_same rfl rfl rfl rfl
  case input => exact fun s c _ _ => ⟨rfl, id, wf_setWord c (by decide)⟩
  case data => exact fun s a v _ ha => ⟨rfl, id, wf_setWord v ha⟩
  case output => exact fun s v => ⟨rfl, id, wf_setWord v (by decide)⟩

theorem step_keepsForms {s t : State} (h : step s = .next t) : KeepsForms s t :=
  step_respects closed_keepsForms (fun _ => keepsForms_of_same rfl rfl rfl rfl)
    (fun _ _ => keepsForms_of_same rfl rfl rfl rfl) (fun _ _ => keepsForms_of_same rfl rfl rfl rfl)
    (fun _ => keepsForms_of_same rfl rfl rfl rfl)
    (fun s opc e => keepsForms_of_same (stop_memorySize s opc e) (stop_head s opc e) (stop_stack s opc e)
      (stop_mem s opc e))
    (fun _ _ _ => keepsForms_of_same rfl rfl rfl rfl)
    (fun s => by rcases start_eq s with h | h <;> rw [h] <;> exact keepsForms_of_same rfl rfl rfl rfl) h

end Sys2Proof.Proofs
end

section
/-! The invariant of the machine (10_state.md, 70_reset_and_hazards.md). Its first three parts are kept by every step in
every phase; PHASE with STATUS, the fault record and the counters follow from the ends of a step between macro-steps. -/

namespace Sys2Proof.Proofs
open Sys2Proof.Machine

/-- The parts of the invariant that a step changes with the end it comes to. -/
abbrev EndsOk (s : State) : Prop := s.fsmOk ∧ s.recordOk ∧ s.countersOk

/-- The fault record is as reset leaves it (10_state.md R53). -/
abbrev RecordClear (s : State) : Prop := s.faultPc = 0 ∧ s.faultOpc = 0 ∧ s.faultTick = 0 ∧ s.faultInfo = 0

theorem why_running_ne_fault : statusWhy (statusWord .running .none 0) ≠ Why.code .fault := by decide

/-- A core at CHECK within the invariant has never faulted. -/
theorem recordClear_of_check {s : State} (hphase : s.phase = .check) (hfsm : s.fsmOk) (hrecord : s.recordOk) :
    RecordClear s := by
  obtain ⟨-, -, -, hcheck, -⟩ := hfsm
  obtain ⟨-, hclear⟩ := hrecord
  rw [hcheck hphase] at hclear
  exact (hclear why_running_ne_fault).2

/-- STATUS of a running core satisfies the invariant with a clear record. -/
theorem recordOk_of_running {s : State} (hstatus : s.status = statusWord .running .none 0) (hclear : RecordClear s) :
    s.recordOk := by
  rw [State.recordOk, hstatus]
  exact ⟨by decide, fun _ => ⟨by decide, hclear⟩⟩

/-- The start action (70_reset_and_hazards.md R302). -/
theorem endsOk_start {s : State} (hphase : s.phase = .ready) (h : EndsOk s) : EndsOk s.start := by
  obtain ⟨⟨-, hupc, hready, -, -⟩, ⟨-, hclear⟩, hretired, hticks⟩ := h
  have hstatus := hready hphase
  have hrunning : setStatusRun (statusWord .ready .none 0) .running = statusWord .running .none 0 := by decide
  rw [hstatus] at hclear
  rw [hphase] at hticks
  rw [start_of_ready hphase, hstatus, hrunning]
  refine ⟨⟨.inr (.inl rfl), hupc, nofun, fun _ => rfl, nofun⟩, recordOk_of_running rfl ?_, hretired, hticks⟩
  exact (hclear (by decide)).2

/-- RETIRE counts one instruction below the ceiling and at most 5 ticks. -/
theorem endsOk_retire {s u : State} {i : Instr} (hphase : s.phase = .check) (h : EndsOk s) (hend : Completes s i u) :
    EndsOk u.retire := by
  obtain ⟨hfsm, hrecord, hretired, hticks⟩ := h
  have hsame := hend.same
  obtain ⟨hpc, hopc, htick, hinfo⟩ := recordClear_of_check hphase hfsm hrecord
  have hstatus : u.status = statusWord .running .none 0 := hsame.status.trans (hfsm.2.2.2.1 hphase)
  refine ⟨⟨.inr (.inl rfl), rfl, nofun, fun _ => hstatus, nofun⟩, recordOk_of_running hstatus ?_, ?_, ?_⟩
  · exact ⟨hsame.faultPc.trans hpc, hsame.faultOpc.trans hopc, hsame.faultTick.trans htick,
      hsame.faultInfo.trans hinfo⟩
  · have hbelow := hend.below
    have hr : u.retired = s.retired := hsame.retired
    have hc : u.ceiling = s.ceiling := hsame.ceiling
    rw [retire_retired, retire_ceiling]
    omega
  · have hfive := tickCount_le_five i
    have hr : u.retired = s.retired := hsame.retired
    have ht := hend.ticks
    simp only [hphase, reduceCtorEq, if_false, retire_phase, retire_ticks, retire_retired] at hticks ⊢
    omega

/-- A stop writes STATUS as it says, the fault record only for a fault, and counts at most 4 ticks. -/
theorem endsOk_stop {s u : State} {opc : OpcodeNumber} {e : Stop} (hphase : s.phase = .check) (h : EndsOk s)
    (hend : StopsIn s opc e u) : EndsOk (u.stop opc e) := by
  obtain ⟨hfsm, hrecord, hretired, hticks⟩ := h
  have hsame := hend.same
  obtain ⟨hpc, hopc, htick, hinfo⟩ := recordClear_of_check hphase hfsm hrecord
  refine ⟨⟨.inr (.inr (stop_phase ..)), stop_upc .., ?_, ?_, fun _ => ?_⟩, ⟨?_, fun hwhy => ?_⟩, ?_, ?_⟩
  · rw [stop_phase]
    nofun
  · rw [stop_phase]
    nofun
  · rw [stop_status, statusRun_statusWord, statusWhy_statusWord, ne_eq, whyCode_injective]
    exact ⟨rfl, by cases e <;> simp [Stop.why]⟩
  · rw [stop_status, statusReserved_statusWord]
  · rw [stop_status, statusWhy_statusWord, ne_eq, whyCode_injective] at hwhy
    rw [stop_status, statusCause_statusWord]
    have hclear : RecordClear u := ⟨hsame.faultPc.trans hpc, hsame.faultOpc.trans hopc, hsame.faultTick.trans htick,
      hsame.faultInfo.trans hinfo⟩
    cases e with
    | fault cause info => exact absurd rfl hwhy
    | normal => exact ⟨rfl, hclear⟩
    | ceiling => exact ⟨rfl, hclear⟩
  · have hr : u.retired = s.retired := hsame.retired
    have hc : u.ceiling = s.ceiling := hsame.ceiling
    rw [stop_retired, stop_ceiling]
    omega
  · have hr : u.retired = s.retired := hsame.retired
    have ht := hend.ticks_le
    simp only [hphase, reduceCtorEq, if_false, stop_phase, if_true, stop_ticks, stop_retired] at hticks ⊢
    omega

theorem endsOk_step {s t : State} (h : EndsOk s) (hstep : step s = .next t) : EndsOk t := by
  obtain ⟨hbetween, -⟩ := h.1
  rcases hbetween with hready | hcheck | hstopped
  · cases (step_ready hready).symm.trans hstep
    exact endsOk_start hready h
  · rcases step_check_ends hcheck hstep with ⟨i, u, hend, rfl⟩ | ⟨opc, e, u, hend, rfl⟩
    · exact endsOk_retire hcheck h hend
    · exact endsOk_stop hcheck h hend
  · cases (step_stopped hstopped).symm.trans hstep
    exact h

theorem parametersOk_of_sameProgram {s t : State} (h : SameProgram s t) (hparam : s.parametersOk) :
    t.parametersOk := by
  rw [State.parametersOk, h.memorySize, h.ceiling, h.programLength]
  exact hparam

/-- Settles O51: the forms and the parameters are kept by every step, the rest by every end of a step. -/
theorem stepKeepsInvariant : Obligations.StepKeepsInvariant := by
  rintro s t ⟨hstack, hmemory, hparam, hends⟩ hstep
  have hforms := step_keepsForms hstep
  exact ⟨hforms.stack hstack, hforms.memory hmemory, parametersOk_of_sameProgram (step_sameProgram hstep) hparam,
    endsOk_step hends hstep⟩

/-- Settles O49: each part of the invariant by evaluation at reset. -/
theorem invariantHoldsAtReset : Obligations.InvariantHoldsAtReset := by
  unfold Obligations.InvariantHoldsAtReset
  decide

end Sys2Proof.Proofs
end

section
/-! The instructions that touch no memory: arithmetic, logic, stack and control flow (42_arith_logic.md, 43_stack.md,
41_control_flow.md). -/

namespace Sys2Proof.Proofs
open Sys2Proof.Machine

/-- Memory, both I/O buffers and MAR are the same in two states. -/
structure SameMemory (s t : State) : Prop where
  mem : t.mem = s.mem
  inq : t.inq = s.inq
  outq : t.outq = s.outq
  mar : t.mar = s.mar

theorem SameMemory.refl (s : State) : SameMemory s s := ⟨rfl, rfl, rfl, rfl⟩

theorem SameMemory.trans {s t u : State} (h : SameMemory s t) (k : SameMemory t u) : SameMemory s u :=
  ⟨k.mem.trans h.mem, k.inq.trans h.inq, k.outq.trans h.outq, k.mar.trans h.mar⟩

/-- The primitives that touch no memory, and their sequences. -/
inductive NoMemory : {α : Type} → Micro α → Prop where
  | top (k : Fin 4) : NoMemory (top k)
  | setTop (k : Fin 4) (v : Word) : NoMemory (setTop k v)
  | adjust (d : HeadDelta) : NoMemory (adjust d)
  | push (v : Word) : NoMemory (push v)
  | latchAcc (r : Except Stop Int) : NoMemory (latchAcc r)
  | readAcc : NoMemory readAcc
  | advance : NoMemory advance
  | jump (target : Word) : NoMemory (jump target)
  | andThen {α β : Type} {m : Micro α} {f : α → Micro β} (hm : NoMemory m) (hf : ∀ a, NoMemory (f a)) :
      NoMemory (andThen m f)

theorem NoMemory.respects {α : Type} {m : Micro α} (h : NoMemory m) : Respects SameMemory m := by
  induction h with
  | top k => exact respects_top SameMemory.refl k
  | setTop k v => exact respects_setTop SameMemory.refl k v fun _ _ => ⟨rfl, rfl, rfl, rfl⟩
  | adjust d => exact respects_adjust SameMemory.refl d fun _ _ _ => ⟨rfl, rfl, rfl, rfl⟩
  | push v => exact respects_push v (fun _ _ => ⟨rfl, rfl, rfl, rfl⟩) fun _ _ => ⟨rfl, rfl, rfl, rfl⟩
  | latchAcc r => exact respects_latchAcc SameMemory.refl r fun _ _ => ⟨rfl, rfl, rfl, rfl⟩
  | readAcc => exact respects_readAcc SameMemory.refl
  | advance => exact respects_advance fun _ _ => ⟨rfl, rfl, rfl, rfl⟩
  | jump target => exact respects_jump target fun _ _ => ⟨rfl, rfl, rfl, rfl⟩
  | andThen _ _ ihm ihf => exact Respects.andThen (fun _ _ _ h k => h.trans k) ihm ihf

/-- An instruction that accesses memory (40_memory_access.md). -/
def AccessesMemory (i : Instr) : Prop :=
  ∃ arg, i = .wrDir arg ∨ i = .wrNdr arg ∨ i = .readDir arg ∨ i = .readNdr arg

theorem noMemory_binarySequence (f : Word → Word → Except Stop Int) : ∀ m ∈ binarySequence f, NoMemory m := by
  intro m hm
  simp only [binarySequence, List.mem_cons, List.not_mem_nil, or_false] at hm
  rcases hm with rfl | rfl
  · exact .andThen (.top _) fun _ => .andThen (.top _) fun _ => .latchAcc _
  · exact .andThen (.adjust _) fun _ => .andThen .readAcc fun _ => .andThen (.push _) fun _ => .advance

theorem noMemory_unarySequence (g : Word → Except Stop Int) : ∀ m ∈ unarySequence g, NoMemory m := by
  intro m hm
  simp only [unarySequence, List.mem_cons, List.not_mem_nil, or_false] at hm
  rcases hm with rfl | rfl
  · exact .andThen (.top _) fun _ => .latchAcc _
  · exact .andThen (.adjust _) fun _ => .andThen .readAcc fun _ => .andThen (.push _) fun _ => .advance

/-- The exchange of the top two words. -/
theorem noMemory_exchangeTopTwo : NoMemory exchangeTopTwo :=
  .andThen (.top _) fun _ => .andThen (.top _) fun _ => .andThen (.setTop _ _) fun _ =>
    .andThen (.setTop _ _) fun _ => .advance

theorem noMemory_branchUnlessTrue (target : Word) : NoMemory (branchUnlessTrue target) :=
  .andThen (.top _) fun _ => .andThen (.latchAcc _) fun _ => .andThen (.adjust _) fun _ =>
    .andThen .readAcc fun notTrue => by
      split
      · exact .jump _
      · exact .advance

theorem noMemory_singleton {m : Micro Unit} (h : NoMemory m) : ∀ k ∈ [m], NoMemory k :=
  fun _ hk => List.mem_singleton.1 hk ▸ h

theorem microcode_noMemory {i : Instr} (h : ¬ AccessesMemory i) : ∀ m ∈ microcode i, NoMemory m := by
  have hcopy : ∀ k, ∀ m ∈ [pushCopy k], NoMemory m := fun _ =>
    noMemory_singleton (.andThen (.top _) fun _ => .andThen (.push _) fun _ => .advance)
  cases i with
  | wrDir arg => exact absurd ⟨arg, .inl rfl⟩ h
  | wrNdr arg => exact absurd ⟨arg, .inr (.inl rfl)⟩ h
  | readDir arg => exact absurd ⟨arg, .inr (.inr (.inl rfl))⟩ h
  | readNdr arg => exact absurd ⟨arg, .inr (.inr (.inr rfl))⟩ h
  | jmp target => exact noMemory_singleton (.jump target)
  | jnt target => exact noMemory_singleton (noMemory_branchUnlessTrue target)
  | halt => exact nofun
  | beginMark => exact noMemory_singleton .advance
  | nop => exact noMemory_singleton .advance
  | mod => exact noMemory_binarySequence _
  | plus => exact noMemory_binarySequence _
  | minus => exact nofun
  | mult => exact noMemory_binarySequence _
  | div => exact nofun
  | pow => exact noMemory_binarySequence _
  | lt => exact noMemory_binarySequence _
  | neg => exact noMemory_unarySequence _
  | invert => exact noMemory_unarySequence _
  | dup => exact hcopy 0
  | overWord => exact hcopy 1
  | rot => exact noMemory_singleton (.andThen (.top _) fun _ => noMemory_exchangeTopTwo)
  | swap => exact noMemory_singleton noMemory_exchangeTopTwo
  | push lit => exact noMemory_singleton (.andThen (.push _) fun _ => .advance)
  | drop => exact noMemory_singleton (.andThen (.adjust _) fun _ => .advance)
  | print => exact nofun

theorem sameMemory_stop (s : State) (opc : OpcodeNumber) (e : Stop) : SameMemory s (s.stop opc e) :=
  ⟨stop_mem s opc e, stop_inq s opc e, stop_outq s opc e, stop_mar s opc e⟩

/-- Settles O55: the micro-steps of these instructions are made of primitives that touch no memory. -/
theorem onlyMemoryAccessTouchesMemory : Obligations.OnlyMemoryAccessTouchesMemory := by
  intro i s t h hnone
  have haccess : ¬ AccessesMemory i := by
    rintro ⟨arg, hi⟩
    have := hnone arg
    tauto
  have hran : Respects SameMemory (runTicks (microcode i)) :=
    Respects.runTicks SameMemory.refl (fun _ _ _ => SameMemory.trans) (fun _ => ⟨rfl, rfl, rfl, rfl⟩)
      fun m hm => (microcode_noMemory haccess m hm).respects
  have hissue : SameMemory s (s.issue i) := ⟨rfl, rfl, rfl, rfl⟩
  have hend : SameMemory s t := by
    rcases exec_cases i s with ⟨arg, rfl, hexec⟩ | ⟨-, hexec⟩ | ⟨-, hexec, -⟩
    · cases hexec.symm.trans h
      exact ⟨rfl, rfl, rfl, rfl⟩
    · cases hexec.symm.trans h
      exact ⟨rfl, rfl, rfl, rfl⟩
    · rcases runMicrocode_cases i (microcode i) s with ⟨_, u, hok, hend⟩ | ⟨e, u, herror, hend⟩ <;>
        cases (hexec.trans hend).symm.trans h
      · have hretire : SameMemory u u.retire := ⟨rfl, rfl, rfl, rfl⟩
        exact hissue.trans (((hran _).1 _ _ hok).trans hretire)
      · exact hissue.trans (((hran _).2 _ _ herror).trans (sameMemory_stop u _ e))
  exact ⟨hend.mem, hend.inq, hend.outq, hend.mar⟩

end Sys2Proof.Proofs
end

section
/-! The indirect accesses WR_NDR (40_memory_access.md R161) and READ_NDR (R163), micro-step by micro-step. T1 and T2 are
shared but for the operand that T1 of WR_NDR also needs: the pointer's address is latched, the pointer is read and
pushed. What follows starts in `pointerState`. -/

namespace Sys2Proof.Proofs
open Sys2Proof.Machine

/-! ## Whole macro-steps by the outcome of their micro-steps -/

section
variable {i : Instr} {steps : List (Micro Unit)} {s t : State} {u : Unit} {e : Stop}

theorem runMicrocode_of_runTicks_ok (h : runTicks steps (s.issue i) = .ok u t) :
    runMicrocode i steps s = .next t.retire := by
  simp only [runMicrocode, h]

theorem runMicrocode_of_runTicks_error (h : runTicks steps (s.issue i) = .error e t) :
    runMicrocode i steps s = .next (t.stop i.opcode.number e) := by
  simp only [runMicrocode, h]

end

/-! ## T2: reading and pushing the pointer -/

section
variable {s t : State} {a p : Word} {mem : Memory} {inq : List Word} {e : Stop}

theorem pushPointer_ok (hmar : s.mar = a) (hread : ReadGives s a p mem inq) (hcap : s.head ≤ 254) :
    pushPointer s = .ok () ((((s.setInq inq).setMem mem).setSlot s.head p).setHead (s.head + 1)) :=
  (andThen_ok (memRead_gives hread hmar)).trans (push_ok (s := (s.setInq inq).setMem mem) (Nat.lt_succ_of_le hcap))

/-- S[255] is written before the fault (00_scope.md R20). -/
theorem pushPointer_overflow (hmar : s.mar = a) (hread : ReadGives s a p mem inq) (hfull : s.head = 255) :
    pushPointer s = .error (.fault .stackOverflow 1) (((s.setInq inq).setMem mem).setSlot 255 p) := by
  rw [← hfull]
  exact (andThen_ok (memRead_gives hread hmar)).trans (push_overflow (s := (s.setInq inq).setMem mem) hfull.ge)

theorem pushPointer_error (hr : memRead s = .error e t) : pushPointer s = .error e t := andThen_error hr

theorem pushPointer_outputPort (hmar : s.mar = 1) : pushPointer s = .error (.fault .portDirection 1) s := by
  rw [← hmar]
  exact pushPointer_error (memRead_port (marCell_of_outputPort hmar))

theorem pushPointer_program (hmar : s.mar = a) (h128 : 128 ≤ a.toInt) :
    pushPointer s = .error (.fault .programRegionAccess a) s := by
  subst hmar
  exact pushPointer_error (memRead_program (marCell_of_program h128))

end

/-! ## Slots around a push -/

section
variable (s : State) (p : Word)

/-- A word pushed on the stack is the new top. -/
theorem slot_of_pushed : ((s.setSlot s.head p).setHead (s.head + 1)).slot s.head = p := by simp

/-- A push leaves the words below it. -/
theorem slot_below_pushed {k : Nat} (hk : k ≠ s.head) :
    ((s.setSlot s.head p).setHead (s.head + 1)).slot k = s.slot k := by
  simp [read_write_other _ _ hk]

end

/-! ## T1 and T2 of both instructions -/

/-- `s` in the third micro-step of `i`, after the pointer `p` has been read at `pa` and pushed. -/
def pointerState (s : State) (i : Instr) (pa p : Word) (mem : Memory) (inq : List Word) : State :=
  { s with
    ir := some i, phase := .exec, upc := 3, ticks := s.ticks + 2, mar := pa, mem := mem, inq := inq
    stack := Cells.write s.stack s.head p, head := s.head + 1 }

section
variable {i : Instr} {first : Micro Unit} {rest : List (Micro Unit)} {s t : State} {pa p : Word} {mem : Memory}
  {inq : List Word} {u : Unit} {e : Stop} (hfirst : first (s.issue i) = .ok () ((s.issue i).setMar pa))
include hfirst

theorem runMicrocode_pointer_outputPort (hpa : pa = 1) :
    runMicrocode i (first :: pushPointer :: rest) s =
      .next (({ s.during i 1 with mar := 1 } : State).takeFault .portDirection 1 i.opcode.number) := by
  subst hpa
  exact runMicrocode_error_in_second hfirst (pushPointer_outputPort rfl)

theorem runMicrocode_pointer_program (h128 : 128 ≤ pa.toInt) :
    runMicrocode i (first :: pushPointer :: rest) s =
      .next (({ s.during i 1 with mar := pa } : State).takeFault .programRegionAccess pa i.opcode.number) :=
  runMicrocode_error_in_second hfirst (pushPointer_program rfl h128)

theorem runMicrocode_pointer_overflow (hfull : s.head = 255) (hread : ReadGives s pa p mem inq) :
    runMicrocode i (first :: pushPointer :: rest) s =
      .next (({ s.during i 1 with
        mar := pa, mem := mem, inq := inq, stack := Cells.write s.stack 255 p } : State).takeFault
          .stackOverflow 1 i.opcode.number) :=
  runMicrocode_error_in_second hfirst (pushPointer_overflow (s := latchedState s i pa) rfl hread hfull)

theorem runTicks_pointer (hcap : s.head ≤ 254) (hread : ReadGives s pa p mem inq) :
    runTicks (first :: pushPointer :: rest) (s.issue i) = runTicks rest (pointerState s i pa p mem inq) :=
  (runTicks_ok hfirst).trans (runTicks_ok (pushPointer_ok (s := latchedState s i pa) rfl hread hcap))

end

/-- `s` in the fourth micro-step of WR_NDR, after `p` has been latched and incremented. -/
def latchedPointerState (s : State) (i : Instr) (p : Word) (mem : Memory) (inq : List Word) : State :=
  { s with
    ir := some i, phase := .exec, upc := 4, ticks := s.ticks + 3, mar := p, acc := p + 1, mem := mem, inq := inq
    stack := Cells.write s.stack s.head p, head := s.head + 1 }

section
variable (s : State) (i : Instr) (pa p : Word) (mem : Memory) (inq : List Word)

theorem pointerState_slot_top : (pointerState s i pa p mem inq).slot s.head = p :=
  slot_of_pushed (((latchedState s i pa).setInq inq).setMem mem) p

theorem pointerState_slot_below {k : Nat} (hk : k ≠ s.head) :
    (pointerState s i pa p mem inq).slot k = s.slot k :=
  slot_below_pushed (((latchedState s i pa).setInq inq).setMem mem) p hk

end

/-! ## WR_NDR, T1 -/

section
variable {s : State} {pa : Word}

/-- The first read that fails is that of `top(head)`. -/
theorem latchTopOfTwo_underflow (h : s.head < 2) :
    latchTopOfTwo s = .error (.fault .stackUnderflow (BitVec.ofNat 32 s.head)) s := by
  have hhead : s.head = 0 ∨ s.head = 1 := by omega
  rcases hhead with h0 | h1
  · rw [h0]
    exact andThen_error (top_underflow h0.le)
  · rw [h1]
    exact (andThen_ok (top_ok (k := 0) h1.ge)).trans (andThen_error (top_underflow h1.le))

theorem latchTopOfTwo_range (h2 : 2 ≤ s.head) (hpa : s.slot (s.head - 1) = pa) (hl : ¬ s.latchable pa) :
    latchTopOfTwo s = .error (.fault .addressOutOfRange pa) s := by
  have hout : pa.toInt < 0 ∨ (s.memorySize : Int) < pa.toInt := by unfold State.latchable at hl; omega
  have hunder : top 1 s = .ok _ s := top_ok (k := 1) h2
  subst hpa
  exact (andThen_ok (top_ok (k := 0) (Nat.zero_lt_of_lt h2))).trans ((andThen_ok hunder).trans (latch_range hout))

end

/-- Settles O13: the stops of T1, then the stops of the read and the push of T2. -/
theorem wrNdrStopsReadingThePointer : Obligations.WrNdrStopsReadingThePointer := by
  intro arg s pa _ hpa
  have hfirst : 2 ≤ s.head → s.latchable pa →
      latchTopOfTwo (s.issue (.wrNdr arg)) = .ok () ((s.issue (.wrNdr arg)).setMar pa) :=
    fun h2 hl => latchTopOfTwo_ok h2 hpa hl
  have hexhausted : 2 ≤ s.head → pa = 0 → s.inq = [] → _ := fun h2 h0 hq =>
    exec_wrNdr_exhausted arg h2 (hpa.trans h0) hq
  rw [exec_wrNdr] at hexhausted ⊢
  refine ⟨?underflow, ?range, ?output, ?program, hexhausted, ?full⟩
  case underflow => exact fun h => runMicrocode_error_in_first (latchTopOfTwo_underflow (s := s.issue _) h)
  case range => exact fun h2 hl => runMicrocode_error_in_first (latchTopOfTwo_range (s := s.issue _) h2 hpa hl)
  case output => exact fun h2 hl => runMicrocode_pointer_outputPort (hfirst h2 hl)
  case program => exact fun h2 hl => runMicrocode_pointer_program (hfirst h2 hl)
  case full =>
    intro hfull hl p mem inq hread
    exact runMicrocode_pointer_overflow (hfirst (hfull ▸ by decide) hl) hfull hread

/-- Settles O16: the stops of T1, then the stops of the read and the push of T2. -/
theorem readNdrStopsReadingThePointer : Obligations.ReadNdrStopsReadingThePointer := by
  intro arg s pa _ hpa
  have hfirst : 1 ≤ s.head → s.latchable pa →
      latchTop (s.issue (.readNdr arg)) = .ok () ((s.issue (.readNdr arg)).setMar pa) :=
    fun h1 hl => latchTop_ok h1 hpa hl
  have hexhausted : 1 ≤ s.head → pa = 0 → s.inq = [] → _ := fun h1 h0 hq =>
    exec_readNdr_exhausted arg h1 (hpa.trans h0) hq
  rw [exec_readNdr] at hexhausted ⊢
  refine ⟨?underflow, ?range, ?output, ?program, hexhausted, ?full⟩
  case underflow => exact runMicrocode_latchTop_underflow
  case range => exact fun h1 hl => runMicrocode_latchTop_range h1 hpa hl
  case output => exact fun h1 hl => runMicrocode_pointer_outputPort (hfirst h1 hl)
  case program => exact fun h1 hl => runMicrocode_pointer_program (hfirst h1 hl)
  case full =>
    intro hfull hl p mem inq hread
    exact runMicrocode_pointer_overflow (hfirst (hfull ▸ by decide) hl) hfull hread

/-! ## WR_NDR, T3 to T5 -/

/-- T3 of WR_NDR. -/
def latchAndIncrement : Micro Unit :=
  andThen (top 0) fun p => andThen (latch p) fun _ => latchAcc (aluIncrement p)

/-- T4 of WR_NDR. -/
def storeValue : Micro Unit :=
  andThen (top 2) fun v => andThen (memWrite v) fun _ => andThen (top 1) fun pa => latch pa

/-- T5 of WR_NDR. -/
def writePointerBack : Micro Unit :=
  andThen readAcc fun next => andThen (memWrite next) fun _ => andThen (adjust .dec3) fun _ => advance

theorem exec_wrNdr_eq (arg : Arg) (s : State) : exec (.wrNdr arg) s =
    runMicrocode (.wrNdr arg) [latchTopOfTwo, pushPointer, latchAndIncrement, storeValue, writePointerBack] s := rfl

section
variable {s t : State} {p v pa : Word} {e : Stop}

theorem latchAcc_increment (hl : s.latchable p) (hsize : s.memorySize ≤ Config.maxMemorySize) :
    latchAcc (aluIncrement p) s = .ok () (s.setAcc (p + 1)) :=
  latchAcc_ok rfl (checkW_increment hl hsize)

theorem latchAndIncrement_ok (hne : 1 ≤ s.head) (hp : s.slot (s.head - 1) = p) (hl : s.latchable p)
    (hsize : s.memorySize ≤ Config.maxMemorySize) :
    latchAndIncrement s = .ok () ((s.setMar p).setAcc (p + 1)) := by
  subst hp
  exact (andThen_ok (top_ok (k := 0) hne)).trans ((andThen_ok (latch_ok hl.1 hl.2)).trans
    (latchAcc_increment (s := s.setMar _) hl hsize))

theorem latchAndIncrement_range (hne : 1 ≤ s.head) (hp : s.slot (s.head - 1) = p) (hl : ¬ s.latchable p) :
    latchAndIncrement s = .error (.fault .addressOutOfRange p) s := by
  have hout : p.toInt < 0 ∨ (s.memorySize : Int) < p.toInt := by unfold State.latchable at hl; omega
  subst hp
  exact (andThen_ok (top_ok (k := 0) hne)).trans (andThen_error (latch_range hout))

/-- A write leaves the stack and the memory's size. -/
theorem memWrite_keeps {u : Unit} (h : memWrite v s = .ok u t) :
    t.head = s.head ∧ t.stack = s.stack ∧ t.memorySize = s.memorySize ∧ t.pc = s.pc := by
  rcases memWrite_eq_ok h with ⟨-, -, rfl⟩ | ⟨-, rfl⟩ <;> exact ⟨rfl, rfl, rfl, rfl⟩

theorem storeValue_error (h3 : 3 ≤ s.head) (hv : s.slot (s.head - 3) = v) (hw : memWrite v s = .error e t) :
    storeValue s = .error e t := by
  subst hv
  exact (andThen_ok (top_ok (k := 2) h3)).trans (andThen_error hw)

theorem storeValue_ok (h3 : 3 ≤ s.head) (hv : s.slot (s.head - 3) = v) (hpa : s.slot (s.head - 2) = pa)
    (hl : s.latchable pa) (hw : memWrite v s = .ok () t) : storeValue s = .ok () (t.setMar pa) := by
  obtain ⟨hhead, hstack, hsize, -⟩ := memWrite_keeps hw
  subst hv hpa
  have htop : top 1 t = .ok (s.slot (s.head - 2)) t := by
    have := top_ok (s := t) (k := 1) (by rw [hhead]; exact Nat.lt_of_succ_lt h3)
    rwa [hhead, hstack] at this
  have hlatch := latch_ok (s := t) hl.1 (hsize ▸ hl.2)
  exact (andThen_ok (top_ok (k := 2) h3)).trans ((andThen_ok hw).trans ((andThen_ok htop).trans hlatch))

theorem writePointerBack_error (hw : memWrite s.acc s = .error e t) : writePointerBack s = .error e t :=
  (andThen_ok (readAcc_apply s)).trans (andThen_error hw)

theorem writePointerBack_ok (h3 : 3 ≤ s.head) (hcap : s.head ≤ 258) (hw : memWrite s.acc s = .ok () t) :
    writePointerBack s = .ok () ((t.setHead (s.head - 3)).setPc (t.pc + 1)) := by
  obtain ⟨hhead, -⟩ := memWrite_keeps hw
  have hadjust : adjust .dec3 t = .ok () (t.setHead (s.head - 3)) := by
    rw [← hhead]
    exact adjust_dec3_ok (by omega) (by omega)
  exact (andThen_ok (readAcc_apply s)).trans ((andThen_ok hw).trans (andThen_ok hadjust))

end

/-- What WR_NDR has read when T3 begins: the value `v`, the address `pa` of the pointer, and the pointer `p`. -/
structure WrNdrReads (s : State) (pa v p : Word) (mem : Memory) (inq : List Word) : Prop where
  two : 2 ≤ s.head
  cap : s.head ≤ 254
  address : s.slot (s.head - 1) = pa
  value : s.slot (s.head - 2) = v
  latchable : s.latchable pa
  size : s.memorySize ≤ Config.maxMemorySize
  read : ReadGives s pa p mem inq

section
variable {arg : Arg} {s t u : State} {pa v p : Word} {mem : Memory} {inq : List Word} {e : Stop}
  (h : WrNdrReads s pa v p mem inq)
include h

theorem runTicks_wrNdr : runTicks [latchTopOfTwo, pushPointer, latchAndIncrement, storeValue, writePointerBack]
    (s.issue (.wrNdr arg)) = runTicks [latchAndIncrement, storeValue, writePointerBack]
      (pointerState s (.wrNdr arg) pa p mem inq) :=
  runTicks_pointer (latchTopOfTwo_ok (s := s.issue (.wrNdr arg)) h.two h.address h.latchable) h.cap h.read

theorem exec_wrNdr_range (hp : ¬ s.latchable p) : exec (.wrNdr arg) s =
    .next ((pointerState s (.wrNdr arg) pa p mem inq).takeFault .addressOutOfRange p 0x02) := by
  have hthird := latchAndIncrement_range (s := pointerState s (.wrNdr arg) pa p mem inq) (Nat.le_add_left 1 _)
    (pointerState_slot_top ..) hp
  rw [exec_wrNdr_eq]
  exact runMicrocode_of_runTicks_error ((runTicks_wrNdr h).trans (runTicks_error hthird))

/-- T4 begins with the pointer latched and incremented. -/
theorem runTicks_wrNdr_latched (hp : s.latchable p) :
    runTicks [latchTopOfTwo, pushPointer, latchAndIncrement, storeValue, writePointerBack] (s.issue (.wrNdr arg)) =
      runTicks [storeValue, writePointerBack]
        (latchedPointerState s (.wrNdr arg) p mem inq) :=
  (runTicks_wrNdr h).trans (runTicks_ok (latchAndIncrement_ok (Nat.le_add_left 1 _) (pointerState_slot_top ..) hp
    h.size))

/-- The value and the pointer's address still lie under the pointer. -/
theorem wrNdr_value : (latchedPointerState s (.wrNdr arg) p mem inq).slot (s.head + 1 - 3) = v := by
  have htwo := h.two
  have hslot := pointerState_slot_below s (.wrNdr arg) pa p mem inq (k := s.head - 2) (by omega)
  rw [Nat.add_sub_add_right]
  exact hslot.trans h.value

theorem wrNdr_address : (latchedPointerState s (.wrNdr arg) p mem inq).slot (s.head + 1 - 2) = pa := by
  have htwo := h.two
  have hslot := pointerState_slot_below s (.wrNdr arg) pa p mem inq (k := s.head - 1) (by omega)
  rw [Nat.add_sub_add_right]
  exact hslot.trans h.address

/-- A write of the value that faults. -/
theorem exec_wrNdr_writeFault (hp : s.latchable p)
    (hw : memWrite v (latchedPointerState s (.wrNdr arg) p mem inq) = .error e t) :
    exec (.wrNdr arg) s = .next (t.stop 0x02 e) := by
  have hfourth := storeValue_error (s := latchedPointerState s (.wrNdr arg) p mem inq) (Nat.succ_le_succ h.two)
    (wrNdr_value h) hw
  rw [exec_wrNdr_eq]
  exact runMicrocode_of_runTicks_error ((runTicks_wrNdr_latched h hp).trans (runTicks_error hfourth))

/-- T5 begins with the value written and the pointer's address latched again. -/
theorem runTicks_wrNdr_stored (hp : s.latchable p)
    (hw : memWrite v (latchedPointerState s (.wrNdr arg) p mem inq) = .ok () t) :
    runTicks [latchTopOfTwo, pushPointer, latchAndIncrement, storeValue, writePointerBack] (s.issue (.wrNdr arg)) =
      runTicks [writePointerBack] (t.setMar pa).tick := by
  have hfourth := storeValue_ok (s := latchedPointerState s (.wrNdr arg) p mem inq) (Nat.succ_le_succ h.two)
    (wrNdr_value h) (wrNdr_address h) h.latchable hw
  exact (runTicks_wrNdr_latched h hp).trans (runTicks_ok hfourth)

theorem exec_wrNdr_backFault (hp : s.latchable p)
    (hw : memWrite v (latchedPointerState s (.wrNdr arg) p mem inq) = .ok () t)
    (hback : memWrite t.acc (t.setMar pa).tick = .error e u) : exec (.wrNdr arg) s = .next (u.stop 0x02 e) := by
  rw [exec_wrNdr_eq]
  exact runMicrocode_of_runTicks_error ((runTicks_wrNdr_stored h hp hw).trans
    (runTicks_error (writePointerBack_error hback)))

theorem exec_wrNdr_ok (hp : s.latchable p)
    (hw : memWrite v (latchedPointerState s (.wrNdr arg) p mem inq) = .ok () t)
    (hback : memWrite t.acc (t.setMar pa).tick = .ok () u) :
    exec (.wrNdr arg) s = .next ((u.setHead (s.head - 2)).setPc (u.pc + 1)).tick.retire := by
  obtain ⟨hhead, -⟩ := memWrite_keeps hw
  have hhead' : (t.setMar pa).tick.head = s.head + 1 := hhead
  have htwo := h.two
  have hcap := h.cap
  have hfifth := writePointerBack_ok (by omega) (by omega) hback
  have hdepth : (t.setMar pa).tick.head - 3 = s.head - 2 := by omega
  rw [hdepth] at hfifth
  rw [exec_wrNdr_eq]
  exact runMicrocode_of_runTicks_ok ((runTicks_wrNdr_stored h hp hw).trans (runTicks_ok hfifth))

end

/-- Settles O14: by the cell the pointer addresses, and by the cell it is written back to. -/
theorem wrNdrStopsUsingThePointer : Obligations.WrNdrStopsUsingThePointer := by
  intro arg s pa v p mem inq h2 hcap hpa hv hl hsize hread
  have h : WrNdrReads s pa v p mem inq := ⟨h2, hcap, hpa, hv, hl, hsize, hread⟩
  obtain ⟨hwIn, hwOut, hwData, hwProgram⟩ := writeFollowsThePartition
    (latchedPointerState s (.wrNdr arg) p mem inq) v
  refine ⟨exec_wrNdr_range h, ?input, ?program, ?backAfterData, ?backAfterOutput⟩
  case input =>
    rintro rfl
    exact exec_wrNdr_writeFault h (latchable_inputPort s) (hwIn rfl)
  case program => exact fun hp h128 => exec_wrNdr_writeFault h hp (hwProgram h128)
  case backAfterData =>
    rintro rfl hp hlo hhi
    exact exec_wrNdr_backFault h hp (hwData hlo hhi) (memWrite_port (marCell_of_inputPort rfl))
  case backAfterOutput =>
    rintro rfl hp rfl
    exact exec_wrNdr_backFault h hp (hwOut rfl) (memWrite_port (marCell_of_inputPort rfl))

/-- Settles O12: the pointer's cell is a data cell, so both writes answer. -/
theorem wrNdrCompletes : Obligations.WrNdrCompletes := by
  intro arg s pa v p h2 hcap hpa hv hlo hhi hl hread hp hsize
  have h : WrNdrReads s pa v p s.mem s.inq :=
    ⟨h2, hcap, hpa, hv, hl, hsize, .inl ⟨hlo, hhi, hread.symm, rfl, rfl⟩⟩
  obtain ⟨-, hwOut, hwData, -⟩ := writeFollowsThePartition
    (latchedPointerState s (.wrNdr arg) p s.mem s.inq) v
  have hback : ∀ {t : State} (w : Word), memWrite w (t.setMar pa).tick =
      .ok () ((t.setMar pa).tick.setMem (t.mem.setWord pa.toNat w)) := fun {t} w =>
    (writeFollowsThePartition (t.setMar pa).tick w).2.2.1 hlo hhi
  refine ⟨fun hplo hphi => exec_wrNdr_ok h hp (hwData hplo hphi) (hback _), ?output⟩
  case output =>
    rintro rfl
    exact exec_wrNdr_ok h hp (hwOut rfl) (hback _)

/-! ## READ_NDR, T3 to T5 -/

/-- T5 of READ_NDR. -/
def replacePointer : Micro Unit :=
  andThen (top 1) fun p =>
  andThen (latchAcc (aluIncrement p)) fun _ =>
  andThen (top 2) fun pa =>
  andThen (latch pa) fun _ =>
  andThen readAcc fun next =>
  andThen (memWrite next) fun _ =>
  andThen (top 0) fun v =>
  andThen (setTop 2 v) fun _ =>
  andThen (adjust .dec2) fun _ => advance

theorem exec_readNdr_eq (arg : Arg) (s : State) : exec (.readNdr arg) s =
    runMicrocode (.readNdr arg) [latchTop, pushPointer, latchTop, pushPointer, replacePointer] s := rfl

section
variable {s t : State} {pa p v : Word} {e : Stop} (h3 : 3 ≤ s.head) (hpa : s.slot (s.head - 3) = pa)
  (hp : s.slot (s.head - 2) = p) (hl : s.latchable pa) (hlp : s.latchable p)
  (hsize : s.memorySize ≤ Config.maxMemorySize)
include h3 hpa hp hl hlp hsize

/-- T5 comes down to the write of the incremented pointer and what follows it. -/
theorem replacePointer_eq : replacePointer s =
    (andThen (memWrite (p + 1)) fun _ => andThen (top 0) fun v => andThen (setTop 2 v) fun _ =>
      andThen (adjust .dec2) fun _ => advance) ((s.setAcc (p + 1)).setMar pa) := by
  subst hpa hp
  have hpointer : top 1 s = .ok (s.slot (s.head - 2)) s := top_ok (k := 1) (Nat.lt_of_succ_lt h3)
  have haddress := top_ok (s := s.setAcc (s.slot (s.head - 2) + 1)) (k := 2) h3
  have hlatch := latch_ok (s := s.setAcc (s.slot (s.head - 2) + 1)) hl.1 hl.2
  exact (andThen_ok hpointer).trans <| (andThen_ok (latchAcc_increment hlp hsize)).trans <|
    (andThen_ok haddress).trans <| (andThen_ok hlatch).trans (andThen_ok (readAcc_apply _))

theorem replacePointer_error (hw : memWrite (p + 1) ((s.setAcc (p + 1)).setMar pa) = .error e t) :
    replacePointer s = .error e t :=
  (replacePointer_eq h3 hpa hp hl hlp hsize).trans (andThen_error hw)

theorem replacePointer_ok (hcap : s.head ≤ 257) (hv : s.slot (s.head - 1) = v)
    (hw : memWrite (p + 1) ((s.setAcc (p + 1)).setMar pa) = .ok () t) :
    replacePointer s = .ok () (((t.setSlot (s.head - 3) v).setHead (s.head - 2)).setPc (t.pc + 1)) := by
  obtain ⟨hhead, hstack, -⟩ := memWrite_keeps hw
  have hhead' : t.head = s.head := hhead
  have hstack' : t.stack = s.stack := hstack
  subst hv
  have htop : top 0 t = .ok (s.slot (s.head - 1)) t := by
    have := top_ok (s := t) (k := 0) (by rw [hhead']; exact Nat.zero_lt_of_lt h3)
    rwa [hhead', hstack'] at this
  have hset : setTop 2 (s.slot (s.head - 1)) t = .ok () (t.setSlot (s.head - 3) (s.slot (s.head - 1))) := by
    rw [← hhead']
    exact setTop_ok (k := 2) (hhead'.symm ▸ h3)
  have hadjust : adjust .dec2 (t.setSlot (s.head - 3) (s.slot (s.head - 1))) =
      .ok () ((t.setSlot (s.head - 3) (s.slot (s.head - 1))).setHead (s.head - 2)) := by
    have := adjust_dec2_ok (s := t.setSlot (s.head - 3) (s.slot (s.head - 1)))
      (by rw [setSlot_head, hhead']; omega) (by rw [setSlot_head, hhead']; omega)
    rwa [setSlot_head, hhead'] at this
  exact (replacePointer_eq h3 hpa hp hl hlp hsize).trans <| (andThen_ok hw).trans <| (andThen_ok htop).trans <|
    (andThen_ok hset).trans (andThen_ok hadjust)

end

/-- What READ_NDR has read when T3 begins: the address `pa` of the pointer, and the pointer `p`. -/
structure ReadNdrReads (s : State) (pa p : Word) (mem : Memory) (inq : List Word) : Prop where
  one : 1 ≤ s.head
  cap : s.head ≤ 254
  address : s.slot (s.head - 1) = pa
  latchable : s.latchable pa
  size : s.memorySize ≤ Config.maxMemorySize
  read : ReadGives s pa p mem inq

/-- `s` in the fourth micro-step of READ_NDR, after `p` has been latched. -/
def addressedState (s : State) (i : Instr) (p : Word) (mem : Memory) (inq : List Word) : State :=
  { s with
    ir := some i, phase := .exec, upc := 4, ticks := s.ticks + 3, mar := p, mem := mem, inq := inq
    stack := Cells.write s.stack s.head p, head := s.head + 1 }

/-- `s` in the fifth micro-step of READ_NDR, after the value `v` has been read at `p` and pushed. -/
def valueState (s : State) (i : Instr) (p v : Word) (mem : Memory) (inq : List Word) : State :=
  { s with
    ir := some i, phase := .exec, upc := 5, ticks := s.ticks + 4, mar := p, mem := mem, inq := inq
    stack := Cells.write (Cells.write s.stack s.head p) (s.head + 1) v, head := s.head + 2 }

section
variable (s : State) (i : Instr) (p v : Word) (mem : Memory) (inq : List Word)

theorem valueState_slot_value : (valueState s i p v mem inq).slot (s.head + 1) = v :=
  slot_of_pushed (addressedState s i p mem inq) v

theorem valueState_slot_pointer : (valueState s i p v mem inq).slot s.head = p :=
  (slot_below_pushed (addressedState s i p mem inq) v (Nat.ne_of_lt (Nat.lt_succ_self _))).trans (slot_of_pushed s p)

theorem valueState_slot_below {k : Nat} (hk : k < s.head) : (valueState s i p v mem inq).slot k = s.slot k :=
  (slot_below_pushed (addressedState s i p mem inq) v (Nat.ne_of_lt (Nat.lt_succ_of_lt hk))).trans
    (slot_below_pushed s p hk.ne)

end

section
variable {arg : Arg} {s t : State} {pa p v : Word} {mem mem' : Memory} {inq inq' : List Word} {e : Stop}
  (h : ReadNdrReads s pa p mem inq)
include h

theorem runTicks_readNdr : runTicks [latchTop, pushPointer, latchTop, pushPointer, replacePointer]
    (s.issue (.readNdr arg)) = runTicks [latchTop, pushPointer, replacePointer]
      (pointerState s (.readNdr arg) pa p mem inq) :=
  runTicks_pointer (latchTop_ok (s := s.issue (.readNdr arg)) h.one h.address h.latchable) h.cap h.read

theorem exec_readNdr_range (hp : ¬ s.latchable p) : exec (.readNdr arg) s =
    .next ((pointerState s (.readNdr arg) pa p mem inq).takeFault .addressOutOfRange p 0x04) := by
  have hthird := latchTop_range (s := pointerState s (.readNdr arg) pa p mem inq) (Nat.le_add_left 1 _)
    (pointerState_slot_top ..) hp
  rw [exec_readNdr_eq]
  exact runMicrocode_of_runTicks_error ((runTicks_readNdr h).trans (runTicks_error hthird))

/-- T4 begins with the pointer latched. -/
theorem runTicks_readNdr_addressed (hp : s.latchable p) :
    runTicks [latchTop, pushPointer, latchTop, pushPointer, replacePointer] (s.issue (.readNdr arg)) =
      runTicks [pushPointer, replacePointer] (addressedState s (.readNdr arg) p mem inq) :=
  (runTicks_readNdr h).trans (runTicks_ok (latchTop_ok (Nat.le_add_left 1 _) (pointerState_slot_top ..) hp))

/-- A read of the value, or its push, that stops. -/
theorem exec_readNdr_readStop (hp : s.latchable p)
    (hr : pushPointer (addressedState s (.readNdr arg) p mem inq) = .error e t) :
    exec (.readNdr arg) s = .next (t.stop 0x04 e) := by
  rw [exec_readNdr_eq]
  exact runMicrocode_of_runTicks_error ((runTicks_readNdr_addressed h hp).trans (runTicks_error hr))

/-- T5 begins with the value pushed. -/
theorem runTicks_readNdr_value (hp : s.latchable p) (hcap : s.head ≤ 253)
    (hv : ReadGives { s with mem := mem, inq := inq } p v mem' inq') :
    runTicks [latchTop, pushPointer, latchTop, pushPointer, replacePointer] (s.issue (.readNdr arg)) =
      runTicks [replacePointer] (valueState s (.readNdr arg) p v mem' inq') := by
  have hfourth := pushPointer_ok (s := addressedState s (.readNdr arg) p mem inq) rfl hv (Nat.succ_le_succ hcap)
  exact (runTicks_readNdr_addressed h hp).trans (runTicks_ok hfourth)

theorem valueState_slot_address : (valueState s (.readNdr arg) p v mem' inq').slot (s.head + 2 - 3) = pa := by
  have hone := h.one
  have hslot := valueState_slot_below s (.readNdr arg) p v mem' inq' (k := s.head - 1) (by omega)
  rw [Nat.add_sub_add_right s.head 2 1]
  exact hslot.trans h.address

theorem exec_readNdr_backFault (hp : s.latchable p) (hcap : s.head ≤ 253)
    (hv : ReadGives { s with mem := mem, inq := inq } p v mem' inq')
    (hback : memWrite (p + 1) (((valueState s (.readNdr arg) p v mem' inq').setAcc (p + 1)).setMar pa) =
      .error e t) :
    exec (.readNdr arg) s = .next (t.stop 0x04 e) := by
  have hfifth := replacePointer_error (s := valueState s (.readNdr arg) p v mem' inq') (Nat.add_le_add_right h.one 2)
    (valueState_slot_address h) (valueState_slot_pointer ..) h.latchable hp h.size hback
  rw [exec_readNdr_eq]
  exact runMicrocode_of_runTicks_error ((runTicks_readNdr_value h hp hcap hv).trans (runTicks_error hfifth))

theorem exec_readNdr_ok (hp : s.latchable p) (hcap : s.head ≤ 253)
    (hv : ReadGives { s with mem := mem, inq := inq } p v mem' inq')
    (hback : memWrite (p + 1) (((valueState s (.readNdr arg) p v mem' inq').setAcc (p + 1)).setMar pa) = .ok () t) :
    exec (.readNdr arg) s =
      .next (((t.setSlot (s.head - 1) v).setHead s.head).setPc (t.pc + 1)).tick.retire := by
  have hfifth := replacePointer_ok (s := valueState s (.readNdr arg) p v mem' inq') (Nat.add_le_add_right h.one 2)
    (valueState_slot_address h) (valueState_slot_pointer ..) h.latchable hp h.size
    (show s.head + 2 ≤ 257 by omega) (valueState_slot_value ..) hback
  rw [exec_readNdr_eq]
  exact runMicrocode_of_runTicks_ok ((runTicks_readNdr_value h hp hcap hv).trans (runTicks_ok hfifth))

end

/-- Settles O17: by the cell the pointer addresses, the room for the value, and the cell it is written back to. -/
theorem readNdrStopsUsingThePointer : Obligations.ReadNdrStopsUsingThePointer := by
  intro arg s pa p mem inq h1 hcap hpa hl hsize hread
  have h : ReadNdrReads s pa p mem inq := ⟨h1, hcap, hpa, hl, hsize, hread⟩
  refine ⟨exec_readNdr_range h, ?output, ?program, ?exhausted, ?full, ?back⟩
  case output =>
    rintro hp rfl
    exact exec_readNdr_readStop h hp (pushPointer_outputPort rfl)
  case program => exact fun hp h128 => exec_readNdr_readStop h hp (pushPointer_program rfl h128)
  case exhausted =>
    rintro rfl rfl
    exact exec_readNdr_readStop h (latchable_inputPort s) (pushPointer_exhausted rfl rfl)
  case full =>
    intro hfull hp v mem' inq' hv
    have hfourth := pushPointer_overflow (s := addressedState s (.readNdr arg) p mem inq) rfl hv
      (congrArg Nat.succ hfull)
    rw [exec_readNdr_readStop h hp hfourth, addressedState, hfull]
    rfl
  case back =>
    rintro hroom rfl hp v mem' inq' hv
    exact exec_readNdr_backFault h hp hroom hv (memWrite_port (marCell_of_inputPort rfl))

/-- Settles O15: the pointer's cell is a data cell, so the write-back answers. -/
theorem readNdrCompletes : Obligations.ReadNdrCompletes := by
  intro arg s pa p h1 hcap hpa hlo hhi hl hread hp hsize v mem inq hv
  have h : ReadNdrReads s pa p s.mem s.inq :=
    ⟨h1, Nat.le_succ_of_le hcap, hpa, hl, hsize, .inl ⟨hlo, hhi, hread.symm, rfl, rfl⟩⟩
  obtain ⟨-, -, hback, -⟩ := writeFollowsThePartition
    (((valueState s (.readNdr arg) p v mem inq).setAcc (p + 1)).setMar pa) (p + 1)
  exact exec_readNdr_ok h hp hcap hv (hback hlo hhi)

end Sys2Proof.Proofs
end

section
/-! Pre- and postconditions of micro-steps. `Ensures P m Q E` says what holds of the answer (`Q`) and of the stop (`E`)
of a piece `m` of a micro-step that starts in a state of `P`. Its rules follow the model's own composition: sequencing,
the ticks of a micro-step sequence, and one rule for each primitive. The claims about instructions that need more than a
relation between first and last state are proved with it: cells stored to, depths, and the next program counter. -/

namespace Sys2Proof.Proofs
open Sys2Proof.Machine

/-- From every state of `P`, an answer of `m` satisfies `Q` and a stop of `m` satisfies `E`. -/
def Ensures {α : Type} (P : State → Prop) (m : Micro α) (Q : α → State → Prop) (E : Stop → State → Prop) : Prop :=
  ∀ s, P s → (∀ a t, m s = .ok a t → Q a t) ∧ ∀ e t, m s = .error e t → E e t

/-- A fault of the operand stack (00_scope.md R17 to R20). -/
def StackFault (e : Stop) : Prop := ∃ info, e = .fault .stackUnderflow info ∨ e = .fault .stackOverflow info

section
variable {α β : Type} {P P' R : State → Prop} {E : Stop → State → Prop}

theorem Ensures.andThen {m : Micro α} {f : α → Micro β} {M : α → State → Prop} {Q : β → State → Prop}
    (hm : Ensures P m M E) (hf : ∀ a, Ensures (M a) (f a) Q E) : Ensures P (andThen m f) Q E := by
  intro s hs
  obtain ⟨hok, herror⟩ := hm s hs
  refine ⟨fun b t h => ?_, fun e t h => ?_⟩
  · obtain ⟨a, u, hmu, hft⟩ := andThen_eq_ok.1 h
    exact (hf a u (hok a u hmu)).1 b t hft
  · rcases andThen_eq_error.1 h with hmt | ⟨a, u, hmu, hft⟩
    · exact herror e t hmt
    · exact (hf a u (hok a u hmu)).2 e t hft

theorem Ensures.mono {m : Micro α} {Q Q' : α → State → Prop} (h : Ensures P m Q E) (hP : ∀ s, P' s → P s)
    (hQ : ∀ a s, Q a s → Q' a s) : Ensures P' m Q' E :=
  fun s hs => ⟨fun a t ht => hQ a t ((h s (hP s hs)).1 a t ht), (h s (hP s hs)).2⟩

theorem Ensures.strengthen {m : Micro α} {Q : α → State → Prop} (h : Ensures P m Q E) (hP : ∀ s, P' s → P s) :
    Ensures P' m Q E := h.mono hP fun _ _ => id

theorem ensures_runTicks_nil : Ensures P (runTicks []) (fun _ => P) E :=
  fun s hs => ⟨fun _ _ h => by cases h; exact hs, fun _ _ h => by cases h⟩

/-- Micro-steps run in order, each ended by its tick. -/
theorem ensures_runTicks_cons {m : Micro Unit} {rest : List (Micro Unit)} {Q : Unit → State → Prop}
    (hm : Ensures P m (fun _ t => R t.tick) E) (hrest : Ensures R (runTicks rest) Q E) :
    Ensures P (runTicks (m :: rest)) Q E := by
  intro s hs
  obtain ⟨hok, herror⟩ := hm s hs
  cases hms : m s with
  | ok a u =>
    rw [runTicks_ok hms]
    exact hrest u.tick (hok a u hms)
  | error e u =>
    rw [runTicks_error hms]
    exact ⟨nofun, fun _ _ h => by cases h; exact herror e u hms⟩

end

/-! ## The primitives -/

section
variable {P : State → Prop} {E : Stop → State → Prop}

theorem ensures_top {k : Fin 4} {Q : Word → State → Prop}
    (hok : ∀ s, P s → k.val < s.head → Q (s.slot (s.head - 1 - k.val)) s)
    (herror : ∀ s e, P s → s.head ≤ k.val → E e s) : Ensures P (top k) Q E := by
  refine fun s hs => ⟨fun v t h => ?_, fun e t h => ?_⟩
  · obtain ⟨rfl, hk, rfl⟩ := top_eq_ok h
    exact hok t hs hk
  · obtain ⟨rfl, hk, -⟩ := top_eq_error h
    exact herror t e hs hk

theorem ensures_setTop {k : Fin 4} {v : Word} {Q : Unit → State → Prop}
    (hok : ∀ s, P s → k.val < s.head → Q () (s.setSlot (s.head - 1 - k.val) v))
    (herror : ∀ s e, P s → s.head ≤ k.val → E e s) : Ensures P (setTop k v) Q E := by
  refine fun s hs => ⟨fun u t h => ?_, fun e t h => ?_⟩
  · obtain ⟨hk, rfl⟩ := setTop_eq_ok h
    exact hok s hs hk
  · obtain ⟨rfl, hk, -⟩ := setTop_eq_error h
    exact herror t e hs hk

theorem ensures_adjust {d : HeadDelta} {Q : Unit → State → Prop}
    (hok : ∀ s, P s → 0 ≤ (s.head : Int) + d.toInt → Q () (s.setHead ((s.head : Int) + d.toInt).toNat))
    (herror : ∀ s e, P s → ((s.head : Int) + d.toInt < 0 ∨ 256 ≤ (s.head : Int) + d.toInt) → E e s) :
    Ensures P (adjust d) Q E := by
  refine fun s hs => ⟨fun u t h => ?_, fun e t h => ?_⟩
  · obtain ⟨h0, -, rfl⟩ := adjust_eq_ok h
    exact hok s hs h0
  · obtain ⟨rfl, hd⟩ := adjust_eq_error h
    exact herror t e hs (hd.imp And.left And.left)

theorem ensures_push {v : Word} {Q : Unit → State → Prop}
    (hok : ∀ s, P s → Q () ((s.setSlot s.head v).setHead (s.head + 1)))
    (herror : ∀ s e, P s → 255 ≤ s.head → E e (s.setSlot s.head v)) : Ensures P (push v) Q E := by
  refine fun s hs => ⟨fun u t h => ?_, fun e t h => ?_⟩
  · obtain ⟨-, rfl⟩ := push_eq_ok h
    exact hok s hs
  · obtain ⟨hfull, -, rfl⟩ := push_eq_error h
    exact herror s e hs hfull

theorem ensures_latch {a : Word} {Q : Unit → State → Prop} (hok : ∀ s, P s → Q () (s.setMar a))
    (herror : ∀ s e, P s → ¬ StackFault e → E e s) : Ensures P (latch a) Q E := by
  refine fun s hs => ⟨fun u t h => ?_, fun e t h => ?_⟩
  · obtain ⟨-, -, rfl⟩ := latch_eq_ok h
    exact hok s hs
  · obtain ⟨rfl, -, rfl⟩ := latch_eq_error h
    exact herror t _ hs (by simp [StackFault])

theorem ensures_memRead {Q : Word → State → Prop}
    (hdata : ∀ s, P s → 2 ≤ s.marCell → Q (s.mem.word s.marCell) s)
    (hinput : ∀ s c rest, P s → s.marCell = 0 → s.inq = c :: rest →
      Q c ((s.setInq rest).setMem (s.mem.setWord 0 c)))
    (herror : ∀ s e, P s → ¬ StackFault e → E e s) : Ensures P memRead Q E := by
  refine fun s hs => ⟨fun v t h => ?_, fun e t h => ?_⟩
  · rcases memRead_eq_ok h with ⟨h2, -, rfl, rfl⟩ | ⟨h0, rest, hq, rfl⟩
    · exact hdata t hs h2
    · exact hinput s v rest hs h0 hq
  · obtain ⟨rfl, ⟨-, -, rfl⟩ | ⟨-, rfl⟩ | ⟨-, rfl⟩⟩ := memRead_eq_error h <;>
      exact herror t _ hs (by simp [StackFault])

theorem ensures_memWrite {v : Word} {Q : Unit → State → Prop}
    (hdata : ∀ s, P s → Q () (s.setMem (s.mem.setWord s.marCell v)))
    (houtput : ∀ s, P s → s.marCell = 1 → Q () ((s.setMem (s.mem.setWord s.marCell v)).emit (token v)))
    (herror : ∀ s e, P s → ¬ StackFault e → E e s) : Ensures P (memWrite v) Q E := by
  refine fun s hs => ⟨fun u t h => ?_, fun e t h => ?_⟩
  · rcases memWrite_eq_ok h with ⟨-, -, rfl⟩ | ⟨h1, rfl⟩
    · exact hdata s hs
    · have hout := houtput s hs h1
      rwa [h1] at hout
  · obtain ⟨rfl, ⟨-, rfl⟩ | ⟨-, rfl⟩⟩ := memWrite_eq_error h <;> exact herror t _ hs (by simp [StackFault])

theorem ensures_latchAcc {r : Except Stop Int} {Q : Unit → State → Prop} (hok : ∀ s w, P s → Q () (s.setAcc w))
    (hr : ∀ e, r = .error e → ¬ StackFault e) (herror : ∀ s e, P s → ¬ StackFault e → E e s) :
    Ensures P (latchAcc r) Q E := by
  refine fun s hs => ⟨fun u t h => ?_, fun e t h => ?_⟩
  · obtain ⟨_, w, -, -, rfl⟩ := latchAcc_eq_ok h
    exact hok s w hs
  · obtain ⟨rfl, hfault | ⟨v, -, hcheck⟩⟩ := latchAcc_eq_error h
    · exact herror t e hs (hr e hfault)
    · by_cases hfits : fitsWord v
      · cases (checkW_ok hfits).symm.trans hcheck
      · cases (checkW_overflow hfits).symm.trans hcheck
        exact herror t _ hs (by simp [StackFault])

/-- The pointer increment never faults by itself. -/
theorem ensures_increment {p : Word} {Q : Unit → State → Prop} (hok : ∀ s w, P s → Q () (s.setAcc w))
    (herror : ∀ s e, P s → ¬ StackFault e → E e s) : Ensures P (latchAcc (aluIncrement p)) Q E :=
  ensures_latchAcc hok nofun herror

theorem ensures_readAcc {Q : Word → State → Prop} (hok : ∀ s, P s → Q s.acc s) : Ensures P readAcc Q E :=
  fun s hs => ⟨fun _ _ h => by cases h; exact hok s hs, fun _ _ h => by cases h⟩

theorem ensures_advance {Q : Unit → State → Prop} (hok : ∀ s, P s → Q () (s.setPc (s.pc + 1))) :
    Ensures P advance Q E := fun s hs => ⟨fun _ _ h => by cases h; exact hok s hs, fun _ _ h => by cases h⟩

theorem ensures_jump {target : Word} {Q : Unit → State → Prop} (hok : ∀ s, P s → Q () (s.setPc target)) :
    Ensures P (jump target) Q E := fun s hs => ⟨fun _ _ h => by cases h; exact hok s hs, fun _ _ h => by cases h⟩

end

/-- What holds when an instruction's micro-steps complete or stop holds at its end, as RETIRE and stops change neither
stack nor memory. -/
theorem exec_mem_of_ensures {i : Instr} {s t : State} {F : Memory → Prop} (h : exec i s = .next t) (hs : F s.mem)
    (hran : Ensures (· = s.issue i) (runTicks (microcode i)) (fun _ u => F u.mem) fun _ u => F u.mem) : F t.mem := by
  rcases exec_cases i s with ⟨arg, rfl, hexec⟩ | ⟨-, hexec⟩ | ⟨-, hexec, -⟩
  · cases hexec.symm.trans h
    exact hs
  · cases hexec.symm.trans h
    exact hs
  · obtain ⟨hok, herror⟩ := hran _ rfl
    rcases runMicrocode_cases i (microcode i) s with ⟨_, u, hu, hend⟩ | ⟨e, u, hu, hend⟩ <;>
      cases (hexec.trans hend).symm.trans h
    · rw [retire_mem]
      exact hok _ _ hu
    · rw [stop_mem]
      exact herror _ _ hu

end Sys2Proof.Proofs
end

section
/-! The cells that the memory-access instructions leave alone (40_memory_access.md, order of memory events). Along the
micro-steps it is enough to know where the pointer's address lies on the stack, what MAR holds before each access, and
that the cells outside a set are still those of the start. -/

namespace Sys2Proof.Proofs
open Sys2Proof.Machine

/-- The cells outside `C` hold in `m` what they hold in `m₀`. -/
def CellsKept (C : Nat → Prop) (m₀ m : Memory) : Prop := ∀ b, ¬ C b → m.word b = m₀.word b

/-- A write inside `C`. -/
theorem CellsKept.setWord {C : Nat → Prop} {m₀ m : Memory} (h : CellsKept C m₀ m) {a : Nat} (ha : C a) (v : Word) :
    CellsKept C m₀ (m.setWord a v) := by
  intro b hb
  have hne : b ≠ a := fun heq => hb (heq ▸ ha)
  rw [word_setWord, if_neg hne]
  exact h b hb

/-- Cells outside `C` are kept, and the word `a` lies `k` deep on the stack, the top being 1 deep. -/
structure Holds (C : Nat → Prop) (m₀ : Memory) (a : Word) (k : Nat) (t : State) : Prop where
  kept : CellsKept C m₀ t.mem
  deep : k ≤ t.head
  slot : t.slot (t.head - k) = a

section
variable {C : Nat → Prop} {m₀ : Memory} {a p v : Word} {k : Nat} {s : State}

theorem Holds.tick (h : Holds C m₀ a k s) : Holds C m₀ a k s.tick := ⟨h.kept, h.deep, h.slot⟩

theorem Holds.setMar (h : Holds C m₀ a k s) (w : Word) : Holds C m₀ a k (s.setMar w) := ⟨h.kept, h.deep, h.slot⟩

theorem Holds.setAcc (h : Holds C m₀ a k s) (w : Word) : Holds C m₀ a k (s.setAcc w) := ⟨h.kept, h.deep, h.slot⟩

/-- A word lies one deeper after a push. -/
theorem Holds.pushed (h : Holds C m₀ a k s) (hk : 0 < k) :
    Holds C m₀ a (k + 1) ((s.setSlot s.head v).setHead (s.head + 1)) := by
  have hdeep := h.deep
  refine ⟨h.kept, Nat.succ_le_succ hdeep, ?_⟩
  have hindex : s.head + 1 - (k + 1) = s.head - k := Nat.add_sub_add_right ..
  rw [setHead_head, hindex, slot_below_pushed s v (by omega)]
  exact h.slot

end

section
variable {C : Nat → Prop} {m₀ : Memory} {a p : Word}

/-- The stops of these micro-steps. -/
abbrev KeptAtStop (C : Nat → Prop) (m₀ : Memory) : Stop → State → Prop := fun _ t => CellsKept C m₀ t.mem

/-- T1 latches the top word. -/
theorem ensures_latchTop {s : State} (ha : s.slot (s.head - 1) = a) :
    Ensures (· = s) latchTop (fun _ t => t = s.setMar a ∧ 1 ≤ s.head) (KeptAtStop C s.mem) := by
  refine (ensures_top (Q := fun v t => t = s ∧ v = a ∧ 1 ≤ s.head) ?_ ?_).andThen fun v => ?_
  · rintro _ rfl hne
    exact ⟨rfl, ha, hne⟩
  · rintro _ _ rfl _
    exact fun _ _ => rfl
  · refine ensures_latch ?_ ?_
    · rintro _ ⟨rfl, rfl, hne⟩
      exact ⟨rfl, hne⟩
    · rintro _ _ ⟨rfl, -⟩ _
      exact fun _ _ => rfl

/-- T1 of WR_NDR, which reads a second operand. -/
theorem ensures_latchTopOfTwo {s : State} (ha : s.slot (s.head - 1) = a) :
    Ensures (· = s) latchTopOfTwo (fun _ t => t = s.setMar a ∧ 1 ≤ s.head) (KeptAtStop C s.mem) := by
  refine (ensures_top (Q := fun v t => t = s ∧ v = a ∧ 1 ≤ s.head) ?_ ?_).andThen fun v =>
    (ensures_top (Q := fun _ t => t = s ∧ v = a ∧ 1 ≤ s.head) ?_ ?_).andThen fun _ => ?_
  · rintro _ rfl hne
    exact ⟨rfl, ha, hne⟩
  · rintro _ _ rfl _
    exact fun _ _ => rfl
  · exact fun _ h _ => h
  · rintro _ _ ⟨rfl, -⟩ _
    exact fun _ _ => rfl
  · refine ensures_latch ?_ ?_
    · rintro _ ⟨rfl, rfl, hne⟩
      exact ⟨rfl, hne⟩
    · rintro _ _ ⟨rfl, -⟩ _
      exact fun _ _ => rfl

/-- A read of the latched cell changes at most the input port's record, and not the stack. -/
theorem ensures_memRead_holds {k : Nat} (hport : C 0) :
    Ensures (Holds C m₀ a k) memRead (fun _ => Holds C m₀ a k) (KeptAtStop C m₀) := by
  refine ensures_memRead (fun _ h _ => h) (fun s c rest h _ _ => ?_) fun _ _ h _ => h.kept
  exact ⟨h.kept.setWord hport c, h.deep, h.slot⟩

theorem ensures_push_holds {k : Nat} (hk : 0 < k) (v : Word) :
    Ensures (Holds C m₀ a k) (push v) (fun _ => Holds C m₀ a (k + 1)) (KeptAtStop C m₀) :=
  ensures_push (fun _ h => h.pushed hk) fun _ _ h _ => h.kept

/-- T1 has latched the pointer's address `a`, the top word, in the memory and with the input of `s₀`. -/
structure PointerToRead (s₀ : State) (a : Word) (t : State) : Prop where
  mem : t.mem = s₀.mem
  inq : t.inq = s₀.inq
  mar : t.mar = a
  deep : 1 ≤ t.head
  slot : t.slot (t.head - 1) = a

/-- T2 of the indirect instructions pushes the pointer that `p` names: the next input code, or a cell's content. -/
theorem ensures_pushPointer {s₀ : State} (hp : p = if a = 0 then s₀.inq.headD 0 else s₀.mem.word a.toNat)
    (hC : C a.toNat) : Ensures (PointerToRead s₀ a) pushPointer
      (fun _ t => Holds C s₀.mem a 2 t ∧ t.slot (t.head - 1) = p) (KeptAtStop C s₀.mem) := by
  have hkept : ∀ t, PointerToRead s₀ a t → CellsKept C s₀.mem t.mem := fun t h _ _ => by rw [h.mem]
  refine (ensures_memRead (Q := fun v t => v = p ∧ Holds C s₀.mem a 1 t) ?data ?input fun t _ h _ => hkept t h).andThen
    fun v => ensures_push (fun t h => ?ok) fun t _ h _ => h.2.kept
  case data =>
    intro t h h2
    have hcell : t.marCell = a.toNat := congrArg BitVec.toNat h.mar
    have hne : a ≠ 0 := by
      rintro rfl
      rw [hcell] at h2
      contradiction
    rw [hp, if_neg hne, hcell, h.mem]
    exact ⟨rfl, hkept t h, h.deep, h.slot⟩
  case input =>
    intro t c rest h h0 hq
    have hz : a = 0 := h.mar ▸ BitVec.eq_of_toNat_eq h0
    subst hz
    rw [hp, if_pos rfl, ← h.inq, hq]
    exact ⟨rfl, (hkept t h).setWord hC c, h.deep, h.slot⟩
  case ok =>
    obtain ⟨rfl, h⟩ := h
    exact ⟨h.pushed Nat.one_pos, slot_of_pushed t v⟩

/-- The cells outside `C` are kept, and MAR holds `a`. -/
abbrev Addressed (C : Nat → Prop) (m₀ : Memory) (a : Word) (t : State) : Prop := CellsKept C m₀ t.mem ∧ t.mar = a

/-- The end of a storing instruction: the operands are dropped and the program counter is latched. -/
theorem ensures_adjustAdvance (d : HeadDelta) :
    Ensures (fun t => CellsKept C m₀ t.mem) (andThen (adjust d) fun _ => advance)
      (fun _ t => CellsKept C m₀ t.mem) (KeptAtStop C m₀) :=
  (ensures_adjust (Q := fun _ t => CellsKept C m₀ t.mem) (fun _ h _ => h) fun _ _ h _ => h).andThen fun _ =>
    ensures_advance fun _ h => h

/-- A write to the latched cell, where that is one of `C`. -/
theorem ensures_memWrite_addressed (ha : C a.toNat) (v : Word) :
    Ensures (Addressed C m₀ a) (memWrite v) (fun _ t => CellsKept C m₀ t.mem) (KeptAtStop C m₀) := by
  refine ensures_memWrite (fun t h => ?_) (fun t h _ => ?_) fun t _ h _ => h.1 <;> obtain ⟨hkept, rfl⟩ := h <;>
    exact hkept.setWord ha v

/-- T2 of WR_DIR stores to the latched cell. -/
theorem ensures_writeUnderTop (ha : C a.toNat) :
    Ensures (Addressed C m₀ a) writeUnderTop (fun _ t => CellsKept C m₀ t.mem) (KeptAtStop C m₀) :=
  (ensures_top (Q := fun _ => Addressed C m₀ a) (fun _ h _ => h) fun _ _ h _ => h.1).andThen fun v =>
    (ensures_memWrite_addressed ha v).andThen fun _ => ensures_adjustAdvance _

/-- T2 of READ_DIR stores to the input port's record at most. -/
theorem ensures_readIntoTop (hport : C 0) :
    Ensures (Holds C m₀ a 1) readIntoTop (fun _ t => CellsKept C m₀ t.mem) (KeptAtStop C m₀) :=
  (ensures_memRead_holds hport).andThen fun _ =>
    (ensures_setTop (Q := fun _ t => CellsKept C m₀ t.mem) (fun _ h _ => h.kept) fun _ _ h _ => h.kept).andThen
      fun _ => ensures_advance fun _ h => h

/-- T3 of WR_NDR latches the pointer. -/
theorem ensures_latchAndIncrement :
    Ensures (fun t => Holds C m₀ a 2 t ∧ t.slot (t.head - 1) = p) latchAndIncrement
      (fun _ t => Holds C m₀ a 2 t ∧ t.mar = p) (KeptAtStop C m₀) := by
  refine (ensures_top (k := 0) (Q := fun q t => Holds C m₀ a 2 t ∧ q = p) (fun _ h _ => h)
      fun _ _ h _ => h.1.kept).andThen fun q =>
    (ensures_latch (Q := fun _ t => Holds C m₀ a 2 t ∧ t.mar = p) ?_ fun _ _ h _ => h.1.kept).andThen fun _ =>
    ensures_increment (fun _ w h => ⟨h.1.setAcc w, h.2⟩) fun _ _ h _ => h.1.kept
  rintro t ⟨h, rfl⟩
  exact ⟨h.setMar q, rfl⟩

/-- T4 of WR_NDR stores where the pointer says and latches the pointer's address. -/
theorem ensures_storeValue (hC : C p.toNat) :
    Ensures (fun t => Holds C m₀ a 2 t ∧ t.mar = p) storeValue (fun _ => Addressed C m₀ a) (KeptAtStop C m₀) := by
  have hwrite : ∀ v, Ensures (fun t => Holds C m₀ a 2 t ∧ t.mar = p) (memWrite v) (fun _ => Holds C m₀ a 2)
      (KeptAtStop C m₀) := by
    intro v
    refine ensures_memWrite (fun t h => ?_) (fun t h _ => ?_) fun t _ h _ => h.1.kept <;> obtain ⟨h, rfl⟩ := h <;>
      exact ⟨h.kept.setWord hC v, h.deep, h.slot⟩
  refine (ensures_top (Q := fun _ t => Holds C m₀ a 2 t ∧ t.mar = p) (fun _ h _ => h)
      fun _ _ h _ => h.1.kept).andThen fun v => (hwrite v).andThen fun _ =>
    (ensures_top (k := 1) (Q := fun q t => CellsKept C m₀ t.mem ∧ q = a) (fun _ h _ => ⟨h.kept, h.slot⟩)
      fun _ _ h _ => h.kept).andThen fun q => ensures_latch ?_ fun _ _ h _ => h.1
  rintro t ⟨h, rfl⟩
  exact ⟨h, rfl⟩

/-- T5 of WR_NDR stores to the pointer's cell. -/
theorem ensures_writePointerBack (ha : C a.toNat) :
    Ensures (Addressed C m₀ a) writePointerBack (fun _ t => CellsKept C m₀ t.mem) (KeptAtStop C m₀) :=
  (ensures_readAcc (Q := fun _ => Addressed C m₀ a) fun _ h => h).andThen fun next =>
    (ensures_memWrite_addressed ha next).andThen fun _ => ensures_adjustAdvance _

/-- T3 of READ_NDR latches the pointer. -/
theorem ensures_latchTop_holds :
    Ensures (Holds C m₀ a 2) latchTop (fun _ => Holds C m₀ a 2) (KeptAtStop C m₀) :=
  (ensures_top (Q := fun _ => Holds C m₀ a 2) (fun _ h _ => h) fun _ _ h _ => h.kept).andThen fun _ =>
    ensures_latch (fun _ h => h.setMar _) fun _ _ h _ => h.kept

/-- T4 of READ_NDR pushes the value. -/
theorem ensures_pushValue (hport : C 0) :
    Ensures (Holds C m₀ a 2) pushPointer (fun _ => Holds C m₀ a 3) (KeptAtStop C m₀) :=
  (ensures_memRead_holds hport).andThen fun v => ensures_push_holds Nat.two_pos v

/-- T5 of READ_NDR stores to the pointer's cell. -/
theorem ensures_replacePointer (ha : C a.toNat) :
    Ensures (Holds C m₀ a 3) replacePointer (fun _ t => CellsKept C m₀ t.mem) (KeptAtStop C m₀) := by
  refine (ensures_top (Q := fun _ => Holds C m₀ a 3) (fun _ h _ => h) fun _ _ h _ => h.kept).andThen fun _ =>
    (ensures_increment (Q := fun _ => Holds C m₀ a 3) (fun _ w h => h.setAcc w) fun _ _ h _ => h.kept).andThen fun _ =>
    (ensures_top (k := 2) (Q := fun q t => CellsKept C m₀ t.mem ∧ q = a) (fun _ h _ => ⟨h.kept, h.slot⟩)
      fun _ _ h _ => h.kept).andThen fun q =>
    (ensures_latch (Q := fun _ => Addressed C m₀ a) ?_ fun _ _ h _ => h.1).andThen fun _ =>
    (ensures_readAcc (Q := fun _ => Addressed C m₀ a) fun _ h => h).andThen fun next =>
    (ensures_memWrite_addressed ha next).andThen fun _ =>
    (ensures_top (Q := fun _ t => CellsKept C m₀ t.mem) (fun _ h _ => h) fun _ _ h _ => h).andThen fun _ =>
    (ensures_setTop (Q := fun _ t => CellsKept C m₀ t.mem) (fun _ h _ => h) fun _ _ h _ => h).andThen fun _ =>
    ensures_adjustAdvance _
  rintro t ⟨h, rfl⟩
  exact ⟨h, rfl⟩

end

/-! ## The four instructions -/

/-- The cells that an indirect access stores to: its pointer's, at `a`, and the one at `p`. -/
def PointerCells (a p : Word) (b : Nat) : Prop := b = a.toNat ∨ b = p.toNat

section
variable {s : State} {a p : Word} (arg : Arg) (ha : s.slot (s.head - 1) = a)
include ha

theorem wrDir_keepsCells : Ensures (· = s.issue (.wrDir arg)) (runTicks [latchTop, writeUnderTop])
    (fun _ t => CellsKept (· = a.toNat) s.mem t.mem) (KeptAtStop (· = a.toNat) s.mem) := by
  refine ensures_runTicks_cons (R := Addressed (· = a.toNat) s.mem a)
    ((ensures_latchTop (s := s.issue _) ha).mono (fun _ => id) ?_)
    (ensures_runTicks_cons (ensures_writeUnderTop (C := (· = a.toNat)) rfl) ensures_runTicks_nil)
  rintro _ _ ⟨rfl, -⟩
  exact ⟨fun _ _ => rfl, rfl⟩

theorem readDir_keepsCells : Ensures (· = s.issue (.readDir arg)) (runTicks [latchTop, readIntoTop])
    (fun _ t => CellsKept (· = 0) s.mem t.mem) (KeptAtStop (· = 0) s.mem) := by
  refine ensures_runTicks_cons (R := Holds (· = 0) s.mem a 1)
    ((ensures_latchTop (s := s.issue _) ha).mono (fun _ => id) ?_)
    (ensures_runTicks_cons (ensures_readIntoTop (C := (· = 0)) rfl) ensures_runTicks_nil)
  rintro _ _ ⟨rfl, hne⟩
  exact ⟨fun _ _ => rfl, hne, ha⟩

variable (hp : p = if a = 0 then s.inq.headD 0 else s.mem.word a.toNat)
include hp

theorem wrNdr_keepsCells : Ensures (· = s.issue (.wrNdr arg))
    (runTicks [latchTopOfTwo, pushPointer, latchAndIncrement, storeValue, writePointerBack])
    (fun _ t => CellsKept (PointerCells a p) s.mem t.mem) (KeptAtStop (PointerCells a p) s.mem) := by
  have hfirst := (ensures_latchTopOfTwo (C := PointerCells a p) (s := s.issue (.wrNdr arg)) ha).mono
    (Q' := fun _ t => PointerToRead s a t.tick) (fun _ => id) fun _ _ ⟨heq, hne⟩ => heq ▸ ⟨rfl, rfl, rfl, hne, ha⟩
  exact ensures_runTicks_cons hfirst <|
    ensures_runTicks_cons (R := fun t => Holds (PointerCells a p) s.mem a 2 t ∧ t.slot (t.head - 1) = p)
      ((ensures_pushPointer hp (.inl rfl)).mono (fun _ => id) fun _ _ h => ⟨h.1.tick, h.2⟩) <|
    ensures_runTicks_cons (R := fun t => Holds (PointerCells a p) s.mem a 2 t ∧ t.mar = p)
      (ensures_latchAndIncrement.mono (fun _ => id) fun _ _ h => ⟨h.1.tick, h.2⟩) <|
    ensures_runTicks_cons (ensures_storeValue (.inr rfl)) <|
    ensures_runTicks_cons (ensures_writePointerBack (.inl rfl)) ensures_runTicks_nil

theorem readNdr_keepsCells : Ensures (· = s.issue (.readNdr arg))
    (runTicks [latchTop, pushPointer, latchTop, pushPointer, replacePointer])
    (fun _ t => CellsKept (PointerCells a 0) s.mem t.mem) (KeptAtStop (PointerCells a 0) s.mem) := by
  have hfirst := (ensures_latchTop (C := PointerCells a 0) (s := s.issue (.readNdr arg)) ha).mono
    (Q' := fun _ t => PointerToRead s a t.tick) (fun _ => id) fun _ _ ⟨heq, hne⟩ => heq ▸ ⟨rfl, rfl, rfl, hne, ha⟩
  exact ensures_runTicks_cons hfirst <|
    ensures_runTicks_cons (R := Holds (PointerCells a 0) s.mem a 2)
      ((ensures_pushPointer hp (.inl rfl)).mono (fun _ => id) fun _ _ h => h.1.tick) <|
    ensures_runTicks_cons (R := Holds (PointerCells a 0) s.mem a 2)
      (ensures_latchTop_holds.mono (fun _ => id) fun _ _ h => h.tick) <|
    ensures_runTicks_cons (R := Holds (PointerCells a 0) s.mem a 3)
      ((ensures_pushValue (.inr rfl)).mono (fun _ => id) fun _ _ h => h.tick) <|
    ensures_runTicks_cons (ensures_replacePointer (.inl rfl)) ensures_runTicks_nil

end

/-- Settles O18: each instruction keeps the cells outside the set of those it can store to. -/
theorem onlyTheStoredCellsChange : Obligations.OnlyTheStoredCellsChange := by
  intro arg s t a p ha hp
  refine ⟨fun h => ?wrDir, fun h => ?readDir, fun h => ?wrNdr, fun h => ?readNdr⟩
  case wrDir => exact exec_mem_of_ensures h (fun _ _ => rfl) (wrDir_keepsCells arg ha)
  case readDir => exact exec_mem_of_ensures h (fun _ _ => rfl) (readDir_keepsCells arg ha)
  case wrNdr =>
    have hkept := exec_mem_of_ensures h (fun _ _ => rfl) (wrNdr_keepsCells arg ha hp)
    exact fun b hpa hpp => hkept b (not_or.2 ⟨hpa, hpp⟩)
  case readNdr =>
    have hkept := exec_mem_of_ensures h (fun _ _ => rfl) (readNdr_keepsCells arg ha hp)
    exact fun b hpa hport => hkept b (not_or.2 ⟨hpa, hport⟩)

end Sys2Proof.Proofs
end

section
/-! What an instruction does to the depth of the stack and to the program counter (30_encoding.md R138,
41_control_flow.md R185), for every instruction in one pass over its micro-steps. Depths are counted from the depth the
instruction starts at, so the conditions under which a primitive raises no stack fault are between numerals: the least
and the largest starting depth of the table and the change so far. -/

namespace Sys2Proof.Proofs
open Sys2Proof.Machine

/-- A range of starting depths of the table, `lo` to `hi`. -/
structure DepthRange where
  lo : Nat
  hi : Nat

/-- The stack is `d` deeper than the starting depth `h`, and the program counter is `p`. -/
def AtDepth (h : Nat) (d : Int) (p : Word) (s : State) : Prop := (s.head : Int) = h + d ∧ s.pc = p

/-- From a depth `h` of the range no stack fault is raised. -/
def NoStackFault (h : Nat) (r : DepthRange) : Stop → State → Prop := fun e _ => r.lo ≤ h → h ≤ r.hi → ¬ StackFault e

/-- `m` takes the depth from `d` to `d'` and the program counter from `p` to `p'`, or stops without a stack fault. -/
abbrev Moves {α : Type} (h : Nat) (r : DepthRange) (d : Int) (p : Word) (m : Micro α) (d' : Int) (p' : Word) : Prop :=
  Ensures (AtDepth h d p) m (fun _ => AtDepth h d' p') (NoStackFault h r)

section
variable {h : Nat} {r : DepthRange} {d : Int} {p : Word}

theorem moves_top {k : Fin 4} (hk : (k.val : Int) < r.lo + d) : Moves h r d p (top k) d p := by
  refine ensures_top (fun _ hs _ => hs) fun s e ⟨hhead, _⟩ hshort hlo _ => ?_
  omega

theorem moves_setTop {k : Fin 4} (hk : (k.val : Int) < r.lo + d) (v : Word) : Moves h r d p (setTop k v) d p := by
  refine ensures_setTop (fun _ hs _ => hs) fun s e ⟨hhead, _⟩ hshort hlo _ => ?_
  omega

theorem moves_adjust {δ : HeadDelta} (hlo : 0 ≤ (r.lo : Int) + d + δ.toInt) (hhi : (r.hi : Int) + d + δ.toInt < 256) :
    Moves h r d p (adjust δ) (d + δ.toInt) p := by
  refine ensures_adjust (fun s ⟨hhead, hpc⟩ h0 => ⟨?_, hpc⟩) fun s e ⟨hhead, _⟩ hout h1 h2 => ?_
  · rw [setHead_head]
    omega
  · omega

theorem moves_push (hhi : (r.hi : Int) + d < 255) (v : Word) : Moves h r d p (push v) (d + 1) p := by
  refine ensures_push (fun s ⟨hhead, hpc⟩ => ⟨?_, hpc⟩) fun s e ⟨hhead, _⟩ hfull _ h2 => ?_
  · rw [setHead_head]
    omega
  · omega

theorem moves_latch (a : Word) : Moves h r d p (latch a) d p :=
  ensures_latch (fun _ hs => hs) fun _ _ _ hfault _ _ => hfault

theorem moves_memRead : Moves h r d p memRead d p :=
  ensures_memRead (fun _ hs _ => hs) (fun _ _ _ hs _ _ => hs) fun _ _ _ hfault _ _ => hfault

theorem moves_memWrite (v : Word) : Moves h r d p (memWrite v) d p :=
  ensures_memWrite (fun _ hs => hs) (fun _ hs _ => hs) fun _ _ _ hfault _ _ => hfault

theorem moves_latchAcc {result : Except Stop Int} (hr : ∀ e, result = .error e → ¬ StackFault e) :
    Moves h r d p (latchAcc result) d p :=
  ensures_latchAcc (fun _ _ hs => hs) hr fun _ _ _ hfault _ _ => hfault

theorem moves_increment (q : Word) : Moves h r d p (latchAcc (aluIncrement q)) d p := moves_latchAcc nofun

theorem moves_readAcc : Moves h r d p readAcc d p := ensures_readAcc fun _ hs => hs

theorem moves_advance : Moves h r d p advance d (p + 1) :=
  ensures_advance fun _ ⟨hhead, hpc⟩ => ⟨hhead, by rw [setPc_pc, hpc]⟩

theorem moves_jump (target : Word) : Moves h r d p (jump target) d target :=
  ensures_jump fun _ ⟨hhead, _⟩ => ⟨hhead, rfl⟩

/-- A tick changes neither. -/
theorem moves_cons {m : Micro Unit} {rest : List (Micro Unit)} {d' d'' : Int} {p' p'' : Word}
    (hm : Moves h r d p m d' p') (hrest : Moves h r d' p' (runTicks rest) d'' p'') :
    Moves h r d p (runTicks (m :: rest)) d'' p'' :=
  ensures_runTicks_cons (R := AtDepth h d' p') hm hrest

theorem moves_nil : Moves h r d p (runTicks []) d p := ensures_runTicks_nil

theorem moves_one {m : Micro Unit} {d' : Int} {p' : Word} (hm : Moves h r d p m d' p') :
    Moves h r d p (runTicks [m]) d' p' :=
  moves_cons hm moves_nil

end

/-! ## The two ALU sequences -/

/-- The faults of the ALU functions are none of the stack. -/
theorem aluMod_not_stackFault {b a : Word} {e : Stop} (h : aluMod b a = .error e) : ¬ StackFault e := by
  unfold aluMod at h
  split at h <;> cases h
  simp [StackFault]

theorem aluPow_not_stackFault {b a : Word} {e : Stop} (h : aluPow b a = .error e) : ¬ StackFault e := by
  unfold aluPow at h
  split at h <;> cases h
  simp [StackFault]

theorem moves_binarySequence {f : Word → Word → Except Stop Int} (hf : ∀ b a e, f b a = .error e → ¬ StackFault e)
    (h : Nat) (p : Word) : Moves h ⟨2, 255⟩ 0 p (runTicks (binarySequence f)) (-1) (p + 1) :=
  moves_cons ((moves_top (by decide)).andThen fun a => (moves_top (by decide)).andThen fun b =>
      moves_latchAcc (hf b a)) <|
    moves_one <| (moves_adjust (by decide) (by decide)).andThen fun _ => moves_readAcc.andThen fun v =>
      (moves_push (by decide) v).andThen fun _ => moves_advance

theorem moves_unarySequence {g : Word → Except Stop Int} (hg : ∀ a e, g a = .error e → ¬ StackFault e) (h : Nat)
    (p : Word) : Moves h ⟨1, 255⟩ 0 p (runTicks (unarySequence g)) 0 (p + 1) :=
  moves_cons ((moves_top (by decide)).andThen fun a => moves_latchAcc (hg a)) <|
    moves_one <| (moves_adjust (by decide) (by decide)).andThen fun _ => moves_readAcc.andThen fun v =>
      (moves_push (by decide) v).andThen fun _ => moves_advance

/-! ## Every instruction -/

/-- The exchange of the top two words, in a range that has two. -/
theorem moves_exchangeTopTwo {h : Nat} {r : DepthRange} (hlo : 2 ≤ r.lo) (p : Word) :
    Moves h r 0 p exchangeTopTwo 0 (p + 1) := by
  have h0 : ((0 : Fin 4).val : Int) < r.lo + 0 := by simp; omega
  have h1 : ((1 : Fin 4).val : Int) < r.lo + 0 := by simp; omega
  exact (moves_top h0).andThen fun x => (moves_top h1).andThen fun y => (moves_setTop h0 y).andThen fun _ =>
    (moves_setTop h1 x).andThen fun _ => moves_advance

theorem moves_latchTop {h : Nat} {r : DepthRange} {d : Int} {p : Word} (hd : 0 < r.lo + d) :
    Moves h r d p latchTop d p :=
  (moves_top (by simpa using hd)).andThen fun a => moves_latch a

theorem moves_pushPointer {h : Nat} {r : DepthRange} {d : Int} {p : Word} (hd : (r.hi : Int) + d < 255) :
    Moves h r d p pushPointer (d + 1) p :=
  moves_memRead.andThen fun q => moves_push hd q

theorem moves_wrDir (h : Nat) (p : Word) : Moves h ⟨2, 255⟩ 0 p (runTicks microWrDir) (-2) (p + 1) :=
  moves_cons (moves_latchTop (by decide)) <| moves_one <|
    (moves_top (by decide)).andThen fun v => (moves_memWrite v).andThen fun _ =>
    (moves_adjust (by decide) (by decide)).andThen fun _ => moves_advance

theorem moves_readDir (h : Nat) (p : Word) : Moves h ⟨1, 255⟩ 0 p (runTicks microReadDir) 0 (p + 1) :=
  moves_cons (moves_latchTop (by decide)) <| moves_one <|
    moves_memRead.andThen fun v => (moves_setTop (by decide) v).andThen fun _ => moves_advance

/-- DUP and OVER. -/
theorem moves_pushCopy {k : Fin 4} {lo : Nat} (hk : k.val < lo) (h : Nat) (p : Word) :
    Moves h ⟨lo, 254⟩ 0 p (runTicks [pushCopy k]) 1 (p + 1) :=
  moves_one <| (moves_top (by simpa using hk)).andThen fun v =>
    (moves_push (show (254 : Int) + 0 < 255 by decide) v).andThen fun _ => moves_advance

theorem moves_push_literal (v : Word) (h : Nat) (p : Word) :
    Moves h ⟨0, 254⟩ 0 p (runTicks [pushThenAdvance v]) 1 (p + 1) :=
  moves_one <| (moves_push (by decide) v).andThen fun _ => moves_advance

theorem moves_drop (h : Nat) (p : Word) : Moves h ⟨1, 255⟩ 0 p (runTicks microDrop) (-1) (p + 1) :=
  moves_one <| (moves_adjust (by decide) (by decide)).andThen fun _ => moves_advance

theorem moves_rot (h : Nat) (p : Word) : Moves h ⟨3, 255⟩ 0 p (runTicks microRot) 0 (p + 1) :=
  moves_one <| (moves_top (by decide)).andThen fun _ => moves_exchangeTopTwo (by decide) p

theorem moves_swap (h : Nat) (p : Word) : Moves h ⟨2, 255⟩ 0 p (runTicks microSwap) 0 (p + 1) :=
  moves_one (moves_exchangeTopTwo (by decide) p)

theorem moves_wrNdr (h : Nat) (p : Word) : Moves h ⟨2, 254⟩ 0 p (runTicks microWrNdr) (-2) (p + 1) :=
  moves_cons ((moves_top (by decide)).andThen fun a => (moves_top (by decide)).andThen fun _ => moves_latch a) <|
    moves_cons (moves_pushPointer (by decide)) <|
    moves_cons ((moves_top (by decide)).andThen fun q => (moves_latch q).andThen fun _ => moves_increment q) <|
    moves_cons ((moves_top (by decide)).andThen fun v => (moves_memWrite v).andThen fun _ =>
      (moves_top (by decide)).andThen fun a => moves_latch a) <|
    moves_one <| moves_readAcc.andThen fun q => (moves_memWrite q).andThen fun _ =>
      (moves_adjust (by decide) (by decide)).andThen fun _ => moves_advance

theorem moves_readNdr (h : Nat) (p : Word) : Moves h ⟨1, 253⟩ 0 p (runTicks microReadNdr) 0 (p + 1) :=
  moves_cons (moves_latchTop (by decide)) <| moves_cons (moves_pushPointer (by decide)) <|
    moves_cons (moves_latchTop (by decide)) <| moves_cons (moves_pushPointer (by decide)) <|
    moves_one <| (moves_top (by decide)).andThen fun q => (moves_increment q).andThen fun _ =>
      (moves_top (by decide)).andThen fun a => (moves_latch a).andThen fun _ => moves_readAcc.andThen fun q =>
      (moves_memWrite q).andThen fun _ => (moves_top (by decide)).andThen fun v =>
      (moves_setTop (by decide) v).andThen fun _ => (moves_adjust (by decide) (by decide)).andThen fun _ =>
      moves_advance

/-- What `microcode_moves` says of one instruction that starts in `s`. -/
abbrev MicrocodeMoves (i : Instr) (s : State) : Prop :=
  Ensures (· = s.issue i) (runTicks (microcode i)) (fun _ => AtDepth s.head (netHead i) (nextPc i s))
    (NoStackFault s.head ⟨minHead i, maxHead i⟩)

theorem microcodeMoves_of_moves {i : Instr} {s : State}
    (h : Moves s.head ⟨minHead i, maxHead i⟩ 0 s.pc (runTicks (microcode i)) (netHead i) (nextPc i s)) :
    MicrocodeMoves i s :=
  h.strengthen fun _ ht => ht ▸ ⟨(Int.add_zero _).symm, rfl⟩

/-- The not-equal-minus-one test of the flag `f` (42_arith_logic.md R202). -/
def notTrueWord (f : Word) : Word := if f = -1 then 0 else -1

theorem nextPc_jnt (target : Word) (s : State) : nextPc (.jnt target) s =
    if notTrueWord (s.slot (s.head - 1)) = -1 then target else s.pc + 1 := by
  by_cases hf : s.slot (s.head - 1) = -1 <;> simp only [nextPc, Machine.isTrue, notTrueWord, hf] <;> simp

/-- JNT chooses its latch by the flag it has read (41_control_flow.md R181). -/
theorem jnt_moves (target : Word) (s : State) : MicrocodeMoves (.jnt target) s := by
  have hnext := nextPc_jnt target s
  generalize hflag : s.slot (s.head - 1) = flag at hnext
  refine ensures_runTicks_cons (R := AtDepth s.head (-1) (nextPc (.jnt target) s)) ?_ ensures_runTicks_nil
  refine (ensures_top (Q := fun f t => t = s.issue (.jnt target) ∧ f = flag) ?read ?short).andThen fun f =>
    Ensures.andThen (M := fun _ t => AtDepth s.head 0 s.pc t ∧ t.acc = notTrueWord flag) ?test fun _ =>
    (ensures_adjust (Q := fun _ t => AtDepth s.head (-1) s.pc t ∧ t.acc = notTrueWord flag) ?drop ?full).andThen
    fun _ => (ensures_readAcc (Q := fun v t => AtDepth s.head (-1) s.pc t ∧ v = notTrueWord flag)
      fun _ h => h).andThen fun v => ?choose
  case read =>
    rintro _ rfl _
    exact ⟨rfl, hflag⟩
  case short =>
    rintro _ _ rfl hshort hlo _
    exact absurd hlo (Nat.not_le.2 (Nat.lt_succ_of_le hshort))
  case test =>
    rintro t ⟨rfl, rfl⟩
    rw [latchAcc_aluNotTrue]
    refine ⟨fun _ _ h => ?_, fun _ _ h => by cases h⟩
    cases h
    exact ⟨⟨(Int.add_zero _).symm, rfl⟩, rfl⟩
  case drop =>
    rintro t ⟨⟨hhead, hpc⟩, hacc⟩ h0
    simp only [HeadDelta.toInt] at h0 ⊢
    refine ⟨⟨?_, hpc⟩, hacc⟩
    rw [setHead_head]
    omega
  case full =>
    rintro t _ ⟨⟨hhead, -⟩, -⟩ hout hlo hhi
    simp only [HeadDelta.toInt, minHead, maxHead] at hout hlo hhi
    omega
  case choose =>
    rintro t ⟨hdepth, hv⟩
    rw [hnext, ← hv]
    split
    · exact moves_jump target t hdepth
    · exact moves_advance t hdepth

/-- All that an instruction that runs its micro-steps does to the depth and the program counter. -/
theorem microcode_moves {i : Instr} (hruns : tickCount i ≠ 0) (s : State) : MicrocodeMoves i s := by
  cases i with
  | jnt target => exact jnt_moves target s
  | halt => exact absurd rfl hruns
  | minus => exact absurd rfl hruns
  | div => exact absurd rfl hruns
  | print => exact absurd rfl hruns
  | wrDir => exact microcodeMoves_of_moves (moves_wrDir _ _)
  | wrNdr => exact microcodeMoves_of_moves (moves_wrNdr _ _)
  | readDir => exact microcodeMoves_of_moves (moves_readDir _ _)
  | readNdr => exact microcodeMoves_of_moves (moves_readNdr _ _)
  | jmp target => exact microcodeMoves_of_moves (moves_one (moves_jump target))
  | beginMark => exact microcodeMoves_of_moves (moves_one moves_advance)
  | nop => exact microcodeMoves_of_moves (moves_one moves_advance)
  | mod => exact microcodeMoves_of_moves (moves_binarySequence (fun _ _ _ => aluMod_not_stackFault) _ _)
  | plus => exact microcodeMoves_of_moves (moves_binarySequence (fun _ _ _ h => by cases h) _ _)
  | mult => exact microcodeMoves_of_moves (moves_binarySequence (fun _ _ _ h => by cases h) _ _)
  | pow => exact microcodeMoves_of_moves (moves_binarySequence (fun _ _ _ => aluPow_not_stackFault) _ _)
  | lt => exact microcodeMoves_of_moves (moves_binarySequence (fun _ _ _ h => by cases h) _ _)
  | neg => exact microcodeMoves_of_moves (moves_unarySequence (fun _ _ h => by cases h) _ _)
  | invert => exact microcodeMoves_of_moves (moves_unarySequence (fun _ _ h => by cases h) _ _)
  | dup => exact microcodeMoves_of_moves (moves_pushCopy (k := 0) Nat.one_pos _ _)
  | overWord => exact microcodeMoves_of_moves (moves_pushCopy (k := 1) Nat.one_lt_two _ _)
  | rot => exact microcodeMoves_of_moves (moves_rot _ _)
  | swap => exact microcodeMoves_of_moves (moves_swap _ _)
  | push lit => exact microcodeMoves_of_moves (moves_push_literal lit.value _ _)
  | drop => exact microcodeMoves_of_moves (moves_drop _ _)

/-! ## Whole instructions and steps -/

/-- Only HALT and the unimplemented opcodes take no tick (70_reset_and_hazards.md R311). -/
theorem tickCount_ne_zero {i : Instr} (h : (∀ arg, i ≠ .halt arg) ∧ (∀ arg, i ≠ .minus arg) ∧ (∀ arg, i ≠ .div arg) ∧
    ∀ arg, i ≠ .print arg) : tickCount i ≠ 0 := by
  obtain ⟨hhalt, hminus, hdiv, hprint⟩ := h
  cases i with
  | halt arg => exact absurd rfl (hhalt arg)
  | minus arg => exact absurd rfl (hminus arg)
  | div arg => exact absurd rfl (hdiv arg)
  | print arg => exact absurd rfl (hprint arg)
  | _ => simp [tickCount]

/-- An instruction that completes is one that runs its micro-steps. -/
theorem exec_completed {i : Instr} {s t : State} (h : exec i s = .next t) (hcheck : t.phase = .check) :
    tickCount i ≠ 0 ∧ ∃ u, runTicks (microcode i) (s.issue i) = .ok () u ∧ t = u.retire := by
  rcases exec_cases i s with ⟨arg, rfl, hexec⟩ | ⟨-, hexec⟩ | ⟨hop, hexec, -⟩
  · cases hexec.symm.trans h
    cases hcheck
  · cases hexec.symm.trans h
    cases hcheck
  · rcases runMicrocode_cases i (microcode i) s with ⟨_, u, hran, hend⟩ | ⟨e, u, -, hend⟩ <;>
      cases (hexec.trans hend).symm.trans h
    · exact ⟨tickCount_ne_zero hop, u, hran, rfl⟩
    · cases (stop_phase u _ e).symm.trans hcheck

/-- From a depth of the table no instruction raises a stack fault. -/
theorem exec_not_stackFault {i : Instr} {s t : State} (h : exec i s = .next t) (hlo : minHead i ≤ s.head)
    (hhi : s.head ≤ maxHead i) (hfault : t.endedFault) :
    ∃ cause : FaultCause, statusCause t.status = cause.code ∧ cause ≠ .stackUnderflow ∧ cause ≠ .stackOverflow := by
  rcases exec_cases i s with ⟨arg, rfl, hexec⟩ | ⟨-, hexec⟩ | ⟨hop, hexec, -⟩
  · cases hexec.symm.trans h
    obtain ⟨_, _, hnormal⟩ := (stop_endedFault_iff (s.issue (.halt arg)) 0 .normal).1 hfault
    cases hnormal
  · cases hexec.symm.trans h
    exact ⟨.unimplementedOpcode, statusCause_statusWord .., nofun, nofun⟩
  · rcases runMicrocode_cases i (microcode i) s with ⟨_, u, -, hend⟩ | ⟨e, u, hran, hend⟩ <;>
      cases (hexec.trans hend).symm.trans h
    · cases hfault.1
    · obtain ⟨cause, info, rfl⟩ := (stop_endedFault_iff u _ e).1 hfault
      have hnone := (microcode_moves (tickCount_ne_zero hop) s _ rfl).2 _ _ hran hlo hhi
      refine ⟨cause, statusCause_statusWord .., ?_, ?_⟩
      · rintro rfl
        exact hnone ⟨info, .inl rfl⟩
      · rintro rfl
        exact hnone ⟨info, .inr rfl⟩

/-- Settles O48: the depth and the stops of every instruction's micro-steps, in the table's range. -/
theorem depthTableHolds : Obligations.DepthTableHolds := by
  intro i s t h hlo hhi
  refine ⟨fun hfault => ?faults, fun hcheck => ?net⟩
  case faults =>
    obtain ⟨cause, hcause, hunder, hover⟩ := exec_not_stackFault h hlo hhi hfault
    rw [hcause]
    exact ⟨mt causeCode_injective.1 hunder, mt causeCode_injective.1 hover⟩
  case net =>
    obtain ⟨hruns, u, hran, rfl⟩ := exec_completed h hcheck
    exact ((microcode_moves hruns s _ rfl).1 _ _ hran).1

/-- Settles O46: a step from CHECK to CHECK completed an instruction, and the program counter is where its micro-steps
latched it. -/
theorem completedInstructionAccounting : Obligations.CompletedInstructionAccounting := by
  intro s t hphase hstep hcheck
  rcases step_check_ends hphase hstep with ⟨i, u, hend, rfl⟩ | ⟨opc, e, u, -, rfl⟩
  · obtain ⟨w, hfetch, hdecode⟩ := hend.fetched
    rw [step_of_decode_ok hphase hend.below hfetch hdecode] at hstep
    obtain ⟨hruns, v, hran, hv⟩ := exec_completed hstep hcheck
    have hpc := ((microcode_moves hruns s _ rfl).1 _ _ hend.ran).2
    refine ⟨w, i, hfetch, hdecode, hend.same.ir, congrArg Nat.succ hend.same.retired, hend.ticks, hpc, rfl⟩
  · cases (stop_phase u opc e).symm.trans hcheck

end Sys2Proof.Proofs
end

section
/-! The two readings of the control FSM (70_reset_and_hazards.md R304): its single transitions, run from CHECK to the
next CHECK or STOPPED, and the macro-step. They meet in EXEC, where each transition runs one micro-step of
`runTicks`. -/

namespace Sys2Proof.Proofs
open Sys2Proof.Machine

/-! ## Running single transitions -/

section
variable {n : Nat} {s t : State}

theorem fsmRun_of_end (h : fsm s = .next t) (hend : t.phase = .check ∨ t.phase = .stopped) :
    fsmRun (n + 1) s = .next t := by
  simp only [fsmRun, h, if_pos hend]

theorem fsmRun_of_middle (h : fsm s = .next t) (hmiddle : ¬ (t.phase = .check ∨ t.phase = .stopped)) :
    fsmRun (n + 1) s = fsmRun n t := by
  simp only [fsmRun, h, if_neg hmiddle]

end

/-! ## EXEC -/

/-- What a macro-step makes of the outcome of its micro-steps: RETIRE, or the stop. -/
def macroEnd (i : Instr) : Flow Unit → Result
  | .ok _ t    => .next t.retire
  | .error e t => .next (t.stop i.opcode.number e)

theorem runMicrocode_eq_macroEnd (i : Instr) (steps : List (Micro Unit)) (s : State) :
    runMicrocode i steps s = macroEnd i (runTicks steps (s.issue i)) := by
  unfold runMicrocode
  cases runTicks steps (s.issue i) <;> rfl

/-- What the FSM goes by in EXEC is the same in two states. -/
structure SameControl (s t : State) : Prop where
  phase : t.phase = s.phase
  ir : t.ir = s.ir
  upc : t.upc = s.upc

theorem closed_sameControl : Closed SameControl := by
  constructor
  case trans => exact fun _ _ _ h k => ⟨k.phase.trans h.phase, k.ir.trans h.ir, k.upc.trans h.upc⟩
  all_goals (intros; constructor <;> rfl)

/-- `u` stands in EXEC before micro-step `n + 1` of `i`. -/
structure InExec (i : Instr) (n : Nat) (u : State) : Prop where
  phase : u.phase = .exec
  ir : u.ir = some i
  upc : u.upc = n + 1

section
variable {i : Instr} {n : Nat} {u t : State} {m : Micro Unit} (h : InExec i n u) (hm : (microcode i)[n]? = some m)
include h hm

theorem inExec_after {a : Unit} (hok : m u = .ok a t) : InExec i (n + 1) t.tick := by
  have hrespects := microcode_respects closed_sameControl (fun _ _ => ⟨rfl, rfl, rfl⟩) i m (List.mem_of_getElem? hm) u
  have hsame := hrespects.1 a t hok
  exact ⟨hsame.phase.trans h.phase, hsame.ir.trans h.ir, congrArg Nat.succ (hsame.upc.trans h.upc)⟩

theorem fsm_exec_error {e : Stop} (herror : m u = .error e t) : fsm u = .next (t.stop i.opcode.number e) := by
  simp [fsm, h.phase, execMicroStep, h.ir, h.upc, hm, herror]

theorem fsm_exec_more {a : Unit} (hok : m u = .ok a t) (hmore : n + 1 < (microcode i).length) :
    fsm u = .next t.tick := by
  simp [fsm, h.phase, execMicroStep, h.ir, h.upc, hm, hok, hmore]

theorem fsm_exec_last {a : Unit} (hok : m u = .ok a t) (hlast : n + 1 = (microcode i).length) :
    fsm u = .next { t.tick with phase := .retire, upc := 0 } := by
  simp [fsm, h.phase, execMicroStep, h.ir, h.upc, hm, hok, hlast.not_lt]

end

/-- EXEC and RETIRE run the micro-steps that are left. -/
theorem fsmRun_exec {i : Instr} (k : Nat) : ∀ (rest : List (Micro Unit)) (m : Micro Unit) (n : Nat) (u : State),
    InExec i n u → (microcode i).drop n = m :: rest →
      fsmRun (rest.length + 2 + k) u = macroEnd i (runTicks (m :: rest) u) := by
  intro rest
  induction rest with
  | nil =>
    intro m n u hu hdrop
    have hm : (microcode i)[n]? = some m := by rw [← List.head?_drop, hdrop]; rfl
    have hlast : n + 1 = (microcode i).length := by
      have := congrArg List.length hdrop
      simp at this
      omega
    have hfuel : ([] : List (Micro Unit)).length + 2 + k = (k + 1) + 1 := by simp; omega
    rw [hfuel]
    cases hmu : m u with
    | error e t =>
      rw [runTicks_error hmu]
      exact fsmRun_of_end (fsm_exec_error hu hm hmu) (.inr (stop_phase ..))
    | ok a t =>
      rw [runTicks_ok hmu, fsmRun_of_middle (fsm_exec_last hu hm hmu hlast) (by simp)]
      exact fsmRun_of_end (t := t.tick.retire) rfl (.inl rfl)
  | cons m' rest ih =>
    intro m n u hu hdrop
    have hm : (microcode i)[n]? = some m := by rw [← List.head?_drop, hdrop]; rfl
    have hdrop' : (microcode i).drop (n + 1) = m' :: rest := by rw [← List.tail_drop, hdrop]; rfl
    have hmore : n + 1 < (microcode i).length := by
      have := congrArg List.length hdrop'
      simp at this
      omega
    have hfuel : (m' :: rest).length + 2 + k = (rest.length + 2 + k) + 1 := by simp; omega
    rw [hfuel]
    cases hmu : m u with
    | error e t =>
      rw [runTicks_error hmu]
      exact fsmRun_of_end (fsm_exec_error hu hm hmu) (.inr (stop_phase ..))
    | ok a t =>
      have hnext := inExec_after hu hm hmu
      rw [runTicks_ok hmu, fsmRun_of_middle (fsm_exec_more hu hm hmu hmore) (by rw [hnext.phase]; decide)]
      exact ih m' (n + 1) t.tick hnext hdrop'

/-! ## CHECK, FETCH and DECODE -/

/-- `s` with PHASE written. -/
def inPhase (s : State) (p : Phase) : State := { s with phase := p }

section
variable {s : State} {w : InstrWord} {i : Instr}

theorem fetch_inPhase (s : State) (p : Phase) : fetch (inPhase s p) = fetch s := rfl

/-- PHASE is written by every instruction before it is read. -/
theorem exec_inPhase (i : Instr) (s : State) (p : Phase) : exec i (inPhase s p) = exec i s := by
  cases i <;> rfl

theorem fsm_check_below (hphase : s.phase = .check) (hbelow : s.retired < s.ceiling) :
    fsm s = .next (inPhase s .fetch) := by
  simp [fsm, hphase, Nat.not_le.2 hbelow, inPhase]

theorem fsm_fetch_error {e : Stop} (h : fetch s = .error e) :
    fsm (inPhase s .fetch) = .next ((inPhase s .fetch).stop 0 e) := by
  have hphase : (inPhase s .fetch).phase = .fetch := rfl
  simp only [fsm, hphase, fetch_inPhase, h]

theorem fsm_fetch_ok (h : fetch s = .ok w) : fsm (inPhase s .fetch) = .next (inPhase s .decode) := by
  have hphase : (inPhase s .fetch).phase = .fetch := rfl
  simp only [fsm, hphase, fetch_inPhase, h] <;> rfl

theorem fsm_decode_error {e : DecodeError} (h : fetch s = .ok w) (hd : decode w = .error e) :
    fsm (inPhase s .decode) = .next ((inPhase s .decode).takeIllegal w) := by
  have hphase : (inPhase s .decode).phase = .decode := rfl
  simp only [fsm, hphase, fetch_inPhase, h, hd]

theorem fsm_decode_ok (h : fetch s = .ok w) (hd : decode w = .ok i) :
    fsm (inPhase s .decode) = enterExec i (inPhase s .decode) := by
  have hphase : (inPhase s .decode).phase = .decode := rfl
  simp only [fsm, hphase, fetch_inPhase, h, hd]

end

/-- DECODE of an instruction, and what follows it. -/
theorem fsmRun_enterExec {i : Instr} {s : State} (hfsm : fsm s = enterExec i s) : fsmRun 7 s = exec i s := by
  rcases exec_cases i s with ⟨arg, rfl, hexec⟩ | ⟨hop, hexec⟩ | ⟨hruns, hexec, henter⟩
  · rw [hexec]
    exact fsmRun_of_end hfsm (.inr rfl)
  · rw [hexec]
    rcases hop with ⟨arg, rfl⟩ | ⟨arg, rfl⟩ | ⟨arg, rfl⟩ <;> exact fsmRun_of_end hfsm (.inr rfl)
  · have hfive := tickCount_le_five i
    have hlength := microcode_length i
    rw [hexec, runMicrocode_eq_macroEnd, fsmRun_of_middle (hfsm.trans henter) (by simp)]
    cases hsteps : microcode i with
    | nil =>
      rw [hsteps] at hlength
      exact absurd hlength.symm (tickCount_ne_zero hruns)
    | cons m rest =>
      have hrest : rest.length + 2 + (4 - rest.length) = 6 := by
        rw [hsteps, List.length_cons] at hlength
        omega
      rw [← hrest]
      exact fsmRun_exec (i := i) _ rest m 0 (s.issue i) ⟨rfl, rfl, rfl⟩ hsteps

/-- Settles O44: the checks of the macro-step are those of CHECK, FETCH and DECODE, in that order. -/
theorem stepIsTheFsmRunToTheNextCheck : Obligations.StepIsTheFsmRunToTheNextCheck := by
  intro s hphase
  have hfetchPhase : s.retired < s.ceiling → fsmRun 9 s = fsmRun 8 (inPhase s .fetch) := fun hbelow =>
    fsmRun_of_middle (fsm_check_below hphase hbelow) (by simp [inPhase])
  have hdecodePhase : ∀ {w}, fetch s = .ok w → fsmRun 8 (inPhase s .fetch) = fsmRun 7 (inPhase s .decode) :=
    fun hf => fsmRun_of_middle (fsm_fetch_ok hf) (by simp [inPhase])
  rw [step_check hphase]
  rcases macroStep_cases s with ⟨hc, hm⟩ | ⟨hc, ⟨hf, hm⟩ | ⟨w, e, hf, hd, hm⟩ | ⟨w, i, hf, hd, hm⟩⟩ <;> rw [hm]
  case inl =>
    have hfsm : fsm s = .next (s.halted .ceiling 0) := by
      simp only [fsm, hphase, if_pos hc]
      rfl
    exact fsmRun_of_end hfsm (.inr rfl)
  case inr.inl =>
    rw [hfetchPhase hc]
    exact fsmRun_of_end (fsm_fetch_error hf) (.inr rfl)
  case inr.inr.inl =>
    rw [hfetchPhase hc, hdecodePhase hf]
    exact fsmRun_of_end (fsm_decode_error hf hd) (.inr rfl)
  case inr.inr.inr =>
    rw [hfetchPhase hc, hdecodePhase hf, fsmRun_enterExec (fsm_decode_ok hf hd), exec_inPhase]

/-! ## A placed word -/

/-- The program counter a word is placed at is a cell's index. -/
theorem placedPc_nonneg (p : Word) : 0 ≤ (if p.toInt < 0 then (0 : Word) else p).toInt := by
  split
  · decide
  · omega

/-- Settles O60: the placed state meets the conditions under which a step runs the decoded instruction. -/
theorem placedWordIsRunNext : Obligations.PlacedWordIsRunNext := by
  intro s nbits w i _ hdecode
  have hword : decode (BitVec.ofNat 48 (w % 2 ^ nbits)) = .ok i := by
    unfold decodeTableWord at hdecode
    split at hdecode
    next =>
      split at hdecode
      next heq => cases hdecode; exact heq
      next => cases hdecode
    next => cases hdecode
  have h0 : 0 ≤ (s.withFetchWord nbits w).pc.toInt := placedPc_nonneg s.pc
  have hnat : ((s.withFetchWord nbits w).pc.toNat : Int) = (s.withFetchWord nbits w).pc.toInt := by
    have := toNat_toInt_of_nonneg h0
    omega
  have hlength : (s.withFetchWord nbits w).pc.toNat + 1 ≤ (s.withFetchWord nbits w).programLength := le_max_right ..
  have hsize : (s.withFetchWord nbits w).programLength + 129 ≤ (s.withFetchWord nbits w).memorySize :=
    le_max_right ..
  have hceiling : s.retired + 1 ≤ (s.withFetchWord nbits w).ceiling := le_max_right ..
  refine stepRunsTheDecodedInstruction (s.withFetchWord nbits w) i rfl hceiling h0 (by omega) (by omega) ?_
  rw [← hword]
  congr 1
  exact (instrWord_setInstrWord ..).trans (if_pos rfl)

end Sys2Proof.Proofs
end

section
/-! Two runs that differ only in what no instruction reads (10_state.md R42, R45, R46; 93_implementation_defined.md U10,
U11, U16). MAR and ACC may differ before an instruction, and are read only after the instruction has written them; so
along the micro-steps the two states also agree on MAR once it is latched, and on ACC once it is. -/

namespace Sys2Proof.Proofs
open Sys2Proof.Machine

/-- The states agree on what is visible, on MAR where `mar` says so, and on ACC where `acc` says so. -/
structure Agree (mar acc : Bool) (s t : State) : Prop where
  visible : SameVisible s t
  marSame : mar = true → s.mar = t.mar
  accSame : acc = true → s.acc = t.acc

/-- From two states related by `P`, `m` gives the same answer in states related by `Q`, or meets the same stop in states
that agree on what is visible. -/
def Synced {α : Type} (P : State → State → Prop) (m : Micro α) (Q : State → State → Prop) : Prop :=
  ∀ s t, P s t → (∃ a s' t', m s = .ok a s' ∧ m t = .ok a t' ∧ Q s' t') ∨
    ∃ e s' t', m s = .error e s' ∧ m t = .error e t' ∧ SameVisible s' t'

section
variable {α β : Type} {P M Q : State → State → Prop} {b c b' c' : Bool}

theorem Synced.andThen {m : Micro α} {f : α → Micro β} (hm : Synced P m M) (hf : ∀ a, Synced M (f a) Q) :
    Synced P (andThen m f) Q := by
  intro s t h
  rcases hm s t h with ⟨a, s', t', hs, ht, h'⟩ | ⟨e, s', t', hs, ht, h'⟩
  · rw [andThen_ok hs, andThen_ok ht]
    exact hf a s' t' h'
  · exact .inr ⟨e, s', t', andThen_error hs, andThen_error ht, h'⟩

theorem synced_nil : Synced (Agree b c) (runTicks []) SameVisible :=
  fun s t h => .inl ⟨(), s, t, runTicks_nil s, runTicks_nil t, h.visible⟩

theorem agree_tick {s t : State} (h : Agree b c s t) : Agree b c s.tick t.tick :=
  ⟨{ h.visible with ticks := congrArg Nat.succ h.visible.ticks, upc := congrArg Nat.succ h.visible.upc },
    h.marSame, h.accSame⟩

theorem synced_cons {m : Micro Unit} {rest : List (Micro Unit)} (hm : Synced (Agree b c) m (Agree b' c'))
    (hrest : Synced (Agree b' c') (runTicks rest) Q) : Synced (Agree b c) (runTicks (m :: rest)) Q := by
  intro s t h
  rcases hm s t h with ⟨a, s', t', hs, ht, h'⟩ | ⟨e, s', t', hs, ht, h'⟩
  · rw [runTicks_ok hs, runTicks_ok ht]
    exact hrest _ _ (agree_tick h')
  · exact .inr ⟨e, s', t', runTicks_error hs, runTicks_error ht, h'⟩

end

/-! ## The primitives -/

section
variable {b c : Bool} {s t : State}

/-- Writing the same slot keeps the visible slots alike. -/
theorem sameVisible_setSlot (h : SameVisible s t) (k : Nat) (v : Word) :
    SameVisible (s.setSlot k v) (t.setSlot k v) := by
  refine { h with slots := fun i hi => ?_ }
  have hslot : Cells.read s.stack i = Cells.read t.stack i := h.slots i hi
  rw [slot_eq, slot_eq, setSlot_stack, setSlot_stack, read_write, read_write, hslot]

/-- A word pushed on both stacks is visible in both. -/
theorem sameVisible_pushed (h : SameVisible s t) (v : Word) :
    SameVisible ((s.setSlot s.head v).setHead (s.head + 1)) ((t.setSlot t.head v).setHead (t.head + 1)) := by
  refine { h with head := congrArg Nat.succ h.head, slots := fun i hi => ?_ }
  by_cases htop : i = s.head
  · rw [htop, slot_of_pushed, h.head, slot_of_pushed]
  · have hbelow : i < s.head := Nat.lt_of_le_of_ne (Nat.le_of_lt_succ hi) htop
    rw [slot_below_pushed s v htop, slot_below_pushed t v (h.head ▸ htop)]
    exact h.slots i hbelow

/-- Lowering both heads alike uncovers no slot. -/
theorem sameVisible_setHead (h : SameVisible s t) {n : Nat} (hn : n ≤ s.head) :
    SameVisible (s.setHead n) (t.setHead n) :=
  { h with head := rfl, slots := fun i hi => h.slots i (Nat.lt_of_lt_of_le hi hn) }

theorem sameVisible_setWord (h : SameVisible s t) (a : Nat) (v : Word) :
    SameVisible (s.setMem (s.mem.setWord a v)) (t.setMem (t.mem.setWord a v)) := by
  refine { h with words := fun k => ?_ }
  rw [setMem_mem, setMem_mem, word_setWord, word_setWord, h.words]

theorem synced_top (k : Fin 4) : Synced (Agree b c) (top k) (Agree b c) := by
  intro s t h
  have hhead := h.visible.head
  rcases Nat.lt_or_ge k.val s.head with hk | hk
  · have hslot : Cells.read s.stack (s.head - 1 - k.val) = Cells.read t.stack (t.head - 1 - k.val) := by
      rw [← hhead]
      exact h.visible.slots _ (by omega)
    exact .inl ⟨_, s, t, top_ok hk, hslot ▸ top_ok (hhead ▸ hk), h⟩
  · exact .inr ⟨_, s, t, top_underflow hk, top_underflow (hhead ▸ hk), h.visible⟩

theorem synced_setTop (k : Fin 4) (v : Word) : Synced (Agree b c) (setTop k v) (Agree b c) := by
  intro s t h
  have hhead := h.visible.head
  rcases Nat.lt_or_ge k.val s.head with hk | hk
  · refine .inl ⟨(), _, _, setTop_ok hk, setTop_ok (hhead ▸ hk), ?_, h.marSame, h.accSame⟩
    rw [← hhead]
    exact sameVisible_setSlot h.visible _ v
  · exact .inr ⟨_, s, t, setTop_underflow hk, setTop_underflow (hhead ▸ hk), h.visible⟩

/-- An adjustment that only drops words; +1 is made by `push` alone. -/
theorem synced_adjust {d : HeadDelta} (hd : d.toInt ≤ 0) : Synced (Agree b c) (adjust d) (Agree b c) := by
  intro s t h
  have hhead := h.visible.head
  rcases lt_or_ge ((s.head : Int) + d.toInt) 0 with h0 | h0
  · exact .inr ⟨_, s, t, adjust_underflow h0, adjust_underflow (hhead ▸ h0), h.visible⟩
  · rcases lt_or_ge ((s.head : Int) + d.toInt) 256 with h1 | h1
    · refine .inl ⟨(), _, _, adjust_ok h0 h1, adjust_ok (hhead ▸ h0) (hhead ▸ h1), ?_, h.marSame, h.accSame⟩
      rw [← hhead]
      exact sameVisible_setHead h.visible (by omega)
    · exact .inr ⟨_, s, t, adjust_overflow h1, adjust_overflow (hhead ▸ h1), h.visible⟩

theorem synced_push (v : Word) : Synced (Agree b c) (push v) (Agree b c) := by
  intro s t h
  have hhead := h.visible.head
  rcases Nat.lt_or_ge s.head 255 with hroom | hfull
  · exact .inl ⟨(), _, _, push_ok hroom, push_ok (hhead ▸ hroom), sameVisible_pushed h.visible v, h.marSame, h.accSame⟩
  · refine .inr ⟨_, _, _, push_overflow hfull, push_overflow (hhead ▸ hfull), ?_⟩
    rw [← hhead]
    exact sameVisible_setSlot h.visible _ v

/-- Once latched, MAR is the same. -/
theorem synced_latch (a : Word) : Synced (Agree b c) (latch a) (Agree true c) := by
  intro s t h
  have hsize := h.visible.memorySize
  by_cases hout : a.toInt < 0 ∨ (s.memorySize : Int) < a.toInt
  · exact .inr ⟨_, s, t, latch_range hout, latch_range (hsize ▸ hout), h.visible⟩
  · have h0 : 0 ≤ a.toInt := by omega
    have h1 : a.toInt ≤ s.memorySize := by omega
    exact .inl ⟨(), _, _, latch_ok h0 h1, latch_ok h0 (hsize ▸ h1), { h.visible with }, fun _ => rfl, h.accSame⟩

/-- Once written, ACC is the same. -/
theorem synced_latchAcc (r : Except Stop Int) : Synced (Agree b c) (latchAcc r) (Agree b true) := by
  intro s t h
  cases hr : r with
  | error e => exact .inr ⟨e, s, t, latchAcc_fault rfl, latchAcc_fault rfl, h.visible⟩
  | ok v =>
    cases hw : checkW v with
    | error e => exact .inr ⟨e, s, t, latchAcc_overflow rfl hw, latchAcc_overflow rfl hw, h.visible⟩
    | ok w => exact .inl ⟨(), _, _, latchAcc_ok rfl hw, latchAcc_ok rfl hw, { h.visible with }, h.marSame, fun _ => rfl⟩

theorem synced_readAcc : Synced (Agree b true) readAcc (Agree b true) :=
  fun s t h => .inl ⟨s.acc, s, t, rfl, by rw [h.accSame rfl]; rfl, h⟩

theorem synced_memRead : Synced (Agree true c) memRead (Agree true c) := by
  intro s t h
  have hmar := h.marSame rfl
  have hcell : s.marCell = t.marCell := congrArg BitVec.toNat hmar
  have hinq := h.visible.inq
  rcases Nat.lt_or_ge s.marCell 128 with h128 | h128
  case inr =>
    exact .inr ⟨_, s, t, memRead_program h128, hmar ▸ memRead_program (hcell ▸ h128), h.visible⟩
  by_cases h0 : s.marCell = 0
  · cases hq : s.inq with
    | nil =>
      have hq' : t.inq = [] := hinq.symm.trans hq
      exact .inr ⟨_, s, t, memRead_exhausted h0 hq, memRead_exhausted (hcell ▸ h0) hq', h.visible⟩
    | cons code rest =>
      have hq' : t.inq = code :: rest := hinq.symm.trans hq
      refine .inl ⟨code, _, _, memRead_input h0 hq, memRead_input (hcell ▸ h0) hq', ?_, h.marSame, h.accSame⟩
      exact { sameVisible_setWord h.visible 0 code with inq := rfl }
  by_cases h1 : s.marCell = 1
  · exact .inr ⟨_, s, t, memRead_port h1, hmar ▸ memRead_port (hcell ▸ h1), h.visible⟩
  · have h2 : 2 ≤ s.marCell := by omega
    have hword : s.mem.word s.marCell = t.mem.word t.marCell := hcell ▸ h.visible.words _
    exact .inl ⟨_, s, t, memRead_data h2 h128, hword ▸ memRead_data (hcell ▸ h2) (hcell ▸ h128), h⟩

theorem synced_memWrite (v : Word) : Synced (Agree true c) (memWrite v) (Agree true c) := by
  intro s t h
  have hmar := h.marSame rfl
  have hcell : s.marCell = t.marCell := congrArg BitVec.toNat hmar
  rcases Nat.lt_or_ge s.marCell 128 with h128 | h128
  case inr =>
    exact .inr ⟨_, s, t, memWrite_program h128, hmar ▸ memWrite_program (hcell ▸ h128), h.visible⟩
  by_cases h0 : s.marCell = 0
  · exact .inr ⟨_, s, t, memWrite_port h0, hmar ▸ memWrite_port (hcell ▸ h0), h.visible⟩
  by_cases h1 : s.marCell = 1
  · refine .inl ⟨(), _, _, memWrite_output h1, memWrite_output (hcell ▸ h1), ?_, h.marSame, h.accSame⟩
    exact { sameVisible_setWord h.visible 1 v with outq := congrArg (· ++ [token v]) h.visible.outq }
  · have h2 : 2 ≤ s.marCell := by omega
    refine .inl ⟨(), _, _, memWrite_data h2 h128, memWrite_data (hcell ▸ h2) (hcell ▸ h128), ?_, h.marSame, h.accSame⟩
    rw [← hcell]
    exact sameVisible_setWord h.visible _ v

theorem synced_advance : Synced (Agree b c) advance (Agree b c) := fun _ _ h =>
  .inl ⟨(), _, _, rfl, rfl, { h.visible with pc := congrArg (· + 1) h.visible.pc }, h.marSame, h.accSame⟩

theorem synced_jump (target : Word) : Synced (Agree b c) (jump target) (Agree b c) := fun _ _ h =>
  .inl ⟨(), _, _, rfl, rfl, { h.visible with pc := rfl }, h.marSame, h.accSame⟩

end

/-! ## Every instruction -/

theorem synced_one {m : Micro Unit} {b c b' c' : Bool} (hm : Synced (Agree b c) m (Agree b' c')) :
    Synced (Agree b c) (runTicks [m]) SameVisible := synced_cons hm synced_nil

theorem synced_binarySequence (f : Word → Word → Except Stop Int) :
    Synced (Agree false false) (runTicks (binarySequence f)) SameVisible :=
  synced_cons ((synced_top 0).andThen fun a => (synced_top 1).andThen fun b => synced_latchAcc (f b a)) <|
    synced_one <| (synced_adjust (d := .dec2) (by decide)).andThen fun _ => synced_readAcc.andThen fun r =>
      (synced_push r).andThen fun _ => synced_advance

theorem synced_unarySequence (g : Word → Except Stop Int) :
    Synced (Agree false false) (runTicks (unarySequence g)) SameVisible :=
  synced_cons ((synced_top 0).andThen fun a => synced_latchAcc (g a)) <|
    synced_one <| (synced_adjust (d := .dec1) (by decide)).andThen fun _ => synced_readAcc.andThen fun r =>
      (synced_push r).andThen fun _ => synced_advance

section
variable {b c : Bool}

theorem synced_latchTop : Synced (Agree b c) latchTop (Agree true c) :=
  (synced_top 0).andThen fun a => synced_latch a

theorem synced_pushPointer : Synced (Agree true c) pushPointer (Agree true c) :=
  synced_memRead.andThen fun p => synced_push p

theorem synced_pushThenAdvance (v : Word) : Synced (Agree b c) (pushThenAdvance v) (Agree b c) :=
  (synced_push v).andThen fun _ => synced_advance

theorem synced_exchangeTopTwo : Synced (Agree b c) exchangeTopTwo (Agree b c) :=
  (synced_top 0).andThen fun x => (synced_top 1).andThen fun y => (synced_setTop 0 y).andThen fun _ =>
    (synced_setTop 1 x).andThen fun _ => synced_advance

end

theorem synced_branchUnlessTrue (target : Word) :
    Synced (Agree false false) (branchUnlessTrue target) (Agree false true) := by
  refine (synced_top 0).andThen fun f => (synced_latchAcc (aluNotTrue f)).andThen fun _ =>
    (synced_adjust (d := .dec1) (by decide)).andThen fun _ => synced_readAcc.andThen fun notTrue => ?_
  split
  · exact synced_jump target
  · exact synced_advance

theorem synced_microWrDir : Synced (Agree false false) (runTicks microWrDir) SameVisible :=
  synced_cons synced_latchTop <| synced_one <| (synced_top 1).andThen fun v => (synced_memWrite v).andThen fun _ =>
    (synced_adjust (d := .dec2) (by decide)).andThen fun _ => synced_advance

theorem synced_microReadDir : Synced (Agree false false) (runTicks microReadDir) SameVisible :=
  synced_cons synced_latchTop <| synced_one <| synced_memRead.andThen fun v => (synced_setTop 0 v).andThen fun _ =>
    synced_advance

theorem synced_microWrNdr : Synced (Agree false false) (runTicks microWrNdr) SameVisible :=
  synced_cons ((synced_top 0).andThen fun a => (synced_top 1).andThen fun _ => synced_latch a) <|
    synced_cons synced_pushPointer <|
    synced_cons ((synced_top 0).andThen fun p => (synced_latch p).andThen fun _ => synced_latchAcc (aluIncrement p)) <|
    synced_cons ((synced_top 2).andThen fun v => (synced_memWrite v).andThen fun _ => (synced_top 1).andThen fun a =>
      synced_latch a) <|
    synced_one <| synced_readAcc.andThen fun next => (synced_memWrite next).andThen fun _ =>
      (synced_adjust (d := .dec3) (by decide)).andThen fun _ => synced_advance

theorem synced_microReadNdr : Synced (Agree false false) (runTicks microReadNdr) SameVisible :=
  synced_cons synced_latchTop <| synced_cons synced_pushPointer <| synced_cons synced_latchTop <|
    synced_cons synced_pushPointer <|
    synced_one <| (synced_top 1).andThen fun p => (synced_latchAcc (aluIncrement p)).andThen fun _ =>
      (synced_top 2).andThen fun a => (synced_latch a).andThen fun _ => synced_readAcc.andThen fun next =>
      (synced_memWrite next).andThen fun _ => (synced_top 0).andThen fun v => (synced_setTop 2 v).andThen fun _ =>
      (synced_adjust (d := .dec2) (by decide)).andThen fun _ => synced_advance

theorem microcode_synced (i : Instr) : Synced (Agree false false) (runTicks (microcode i)) SameVisible := by
  cases i with
  | wrDir => exact synced_microWrDir
  | wrNdr => exact synced_microWrNdr
  | readDir => exact synced_microReadDir
  | readNdr => exact synced_microReadNdr
  | jmp target => exact synced_one (synced_jump target)
  | jnt target => exact synced_one (synced_branchUnlessTrue target)
  | halt => exact synced_nil
  | beginMark => exact synced_one synced_advance
  | nop => exact synced_one synced_advance
  | mod => exact synced_binarySequence _
  | plus => exact synced_binarySequence _
  | minus => exact synced_nil
  | mult => exact synced_binarySequence _
  | div => exact synced_nil
  | pow => exact synced_binarySequence _
  | lt => exact synced_binarySequence _
  | neg => exact synced_unarySequence _
  | invert => exact synced_unarySequence _
  | dup => exact synced_one ((synced_top 0).andThen synced_pushThenAdvance)
  | overWord => exact synced_one ((synced_top 1).andThen synced_pushThenAdvance)
  | rot => exact synced_one ((synced_top 2).andThen fun _ => synced_exchangeTopTwo)
  | swap => exact synced_one synced_exchangeTopTwo
  | push lit => exact synced_one (synced_pushThenAdvance lit.value)
  | drop => exact synced_one ((synced_adjust (d := .dec1) (by decide)).andThen fun _ => synced_advance)
  | print => exact synced_nil

/-! ## Whole instructions and steps -/

section
variable {s t : State} (h : SameVisible s t)
include h

theorem sameVisible_stop (opc : OpcodeNumber) (e : Stop) : SameVisible (s.stop opc e) (t.stop opc e) := by
  cases e with
  | fault cause info =>
    exact { h with status := rfl, faultPc := h.pc, faultOpc := rfl, faultInfo := rfl, phase := rfl, upc := rfl
                   faultTick := congrArg (BitVec.ofNat 64) h.ticks }
  | normal => exact { h with status := rfl, phase := rfl, upc := rfl }
  | ceiling => exact { h with status := rfl, phase := rfl, upc := rfl }

theorem sameVisible_issue (i : Instr) : SameVisible (s.issue i) (t.issue i) := { h with phase := rfl, upc := rfl }

theorem sameVisible_retire : SameVisible s.retire t.retire :=
  { h with retired := congrArg Nat.succ h.retired, phase := rfl, upc := rfl }

theorem sameVisible_start (hready : s.phase = .ready) : SameVisible s.start t.start := by
  rw [start_of_ready hready, start_of_ready (h.phase ▸ hready)]
  exact { h with phase := rfl, status := by rw [h.status] }

/-- Both states fetch the same word: the program counter decides it, and the cells of the program are the same. -/
theorem sameVisible_fetch : fetch t = fetch s := by
  cases hf : fetch s with
  | error e =>
    rw [fetch_eq_error hf, h.pc]
    unfold fetch at hf ⊢
    rw [← h.pc, ← h.programLength, ← h.memorySize]
    split at hf
    · rw [if_pos ‹_›]
    · rw [if_neg ‹_›]
      split at hf
      · rw [if_pos ‹_›]
      · cases hf
  | ok w =>
    obtain ⟨h0, hlen, hsize, rfl⟩ := fetch_eq_ok hf
    have hword := h.program s.pc.toInt.toNat (by omega)
    rw [hword, h.pc]
    rw [h.pc] at h0 hlen hsize
    exact fetch_ok h0 (h.programLength ▸ hlen) (h.memorySize ▸ hsize)

/-- HALT and the unimplemented opcodes stop both; every other instruction runs the same micro-steps in both. -/
theorem sameVisible_exec (i : Instr) :
    ∃ s' t', exec i s = .next s' ∧ exec i t = .next t' ∧ SameVisible s' t' := by
  rcases exec_cases i s with ⟨arg, rfl, hs⟩ | ⟨hnone, hs⟩ | ⟨⟨hhalt, hminus, hdiv, hprint⟩, hs, -⟩
  · exact ⟨_, _, hs, rfl, sameVisible_stop (sameVisible_issue h _) 0 .normal⟩
  · have ht : exec i t = unimplemented i.opcode t := by
      obtain ⟨arg, rfl⟩ | ⟨arg, rfl⟩ | ⟨arg, rfl⟩ := hnone <;> rfl
    exact ⟨_, _, hs, ht, sameVisible_stop h _ (.fault .unimplementedOpcode _)⟩
  · have ht : exec i t = runMicrocode i (microcode i) t := by
      rcases exec_cases i t with ⟨arg, hi, -⟩ | ⟨⟨arg, hi⟩ | ⟨arg, hi⟩ | ⟨arg, hi⟩, -⟩ | ⟨-, ht, -⟩
      · exact absurd hi (hhalt arg)
      · exact absurd hi (hminus arg)
      · exact absurd hi (hdiv arg)
      · exact absurd hi (hprint arg)
      · exact ht
    rw [hs, ht]
    have hissued : Agree false false (s.issue i) (t.issue i) := ⟨sameVisible_issue h i, nofun, nofun⟩
    rcases microcode_synced i _ _ hissued with ⟨u, s', t', hrun, hrun', h'⟩ | ⟨e, s', t', hrun, hrun', h'⟩
    · exact ⟨_, _, runMicrocode_of_runTicks_ok hrun, runMicrocode_of_runTicks_ok hrun', sameVisible_retire h'⟩
    · exact ⟨_, _, runMicrocode_of_runTicks_error hrun, runMicrocode_of_runTicks_error hrun', sameVisible_stop h' _ e⟩

/-- The checks before an instruction read only what is visible. -/
theorem sameVisible_macroStep :
    ∃ s' t', macroStep s = .next s' ∧ macroStep t = .next t' ∧ SameVisible s' t' := by
  have hfetch := sameVisible_fetch h
  have hexec := sameVisible_exec h
  unfold macroStep
  rw [hfetch, ← h.ceiling, ← h.retired]
  split
  · exact ⟨_, _, rfl, rfl, sameVisible_stop h 0 .ceiling⟩
  · cases fetch s with
    | error e => exact ⟨_, _, rfl, rfl, sameVisible_stop h 0 e⟩
    | ok w =>
      cases hdecode : decode w with
      | error e =>
        simp only [hdecode]
        exact ⟨_, _, rfl, rfl, sameVisible_stop h (opcField w) (.fault .illegalInstruction _)⟩
      | ok i =>
        simp only [hdecode]
        exact hexec i

end

/-- Settles O56: the phases agree, so both states make the same kind of step. -/
theorem unobservableElementsHaveNoEffect : Obligations.UnobservableElementsHaveNoEffect := by
  intro s t hbetween h
  have hphase := h.phase
  rcases hbetween with hready | hcheck | hstopped
  · exact ⟨_, _, step_ready hready, step_ready (hphase ▸ hready), sameVisible_start h hready⟩
  · rw [step_check hcheck, step_check (hphase ▸ hcheck)]
    exact sameVisible_macroStep h
  · exact ⟨_, _, step_stopped hstopped, step_stopped (hphase ▸ hstopped), h⟩

end Sys2Proof.Proofs
end

section
/-! Launches: which configuration errors a launch has, and that it is refused with the one of the lowest code
(60_exceptions.md R262, 30_encoding.md R122). -/

namespace Sys2Proof.Proofs
open Sys2Proof.Machine

/-! ## The arrays of a container -/

section
variable {c : Json} {items : List Json}

theorem instrItems_of_array (h : c.member "instructions" = some (.arr items)) : instrItems c = items := by
  rw [instrItems, h]

theorem instrItems_of_no_array (h : ∀ items, c.member "instructions" ≠ some (.arr items)) : instrItems c = [] := by
  unfold instrItems
  split
  · exact absurd ‹_› (h _)
  · rfl

theorem dataItems_of_array (h : c.member "data" = some (.arr items)) : dataItems c = items := by
  rw [dataItems, h]

theorem dataItems_of_no_array (h : ∀ items, c.member "data" ≠ some (.arr items)) : dataItems c = [] := by
  unfold dataItems
  split
  · exact absurd ‹_› (h _)
  · rfl

/-- The outer form fails with no `instructions` array, or with a `data` member that is no array. -/
theorem outerForm_eq_false : outerForm c = false ↔ (∀ items, c.member "instructions" ≠ some (.arr items)) ∨
    ∃ d, c.member "data" = some d ∧ ∀ items, d ≠ .arr items := by
  rw [outerForm, Bool.and_eq_false_iff]
  refine or_congr ?instructions ?data
  case instructions => split <;> simp_all
  case data => split <;> simp_all

end

/-! ## The configuration errors -/

theorem not_fitsWord_iff {n : Int} : ¬ fitsWord n ↔ n < -2 ^ 31 ∨ 2 ^ 31 - 1 < n := by
  rw [fitsWord_iff]
  omega

/-- The opcode names are the 25 of the table, compared exactly. -/
theorem ofName_eq_none {name : String} : Opcode.ofName name = none ↔ name ∉ Opcode.all.map Opcode.name := by
  simp [Opcode.ofName, List.find?_eq_none]

section
variable {c : Json} {memorySize ceiling : Nat} {e : ConfigError}

/-- Where each error of a launch comes from. -/
theorem mem_configErrors : e ∈ configErrors c memorySize ceiling ↔
    (memorySize ≤ (instrItems c).length + 128 ∧ e = .memoryTooSmall) ∨
    (126 < (dataItems c).length ∧ e = .dataTooLong) ∨
    (outerForm c = false ∧ e = .badContainer) ∨
    (∃ j ∈ dataItems c, readDatum j = .error e) ∨
    (∃ j ∈ instrItems c, readOpcode j = .error e ∨ readArg (j.member "arg") = .error e ∨
      readTerm (j.member "term") = .error e) ∨
    ((2 ^ 31 - 2 < memorySize ∨ 2 ^ 61 < ceiling) ∧ e = .badParameter) := by
  simp only [configErrors, List.mem_append, List.mem_flatMap, mem_readErrors, mem_instrErrors, or_assoc]
  refine or_congr ?_ (or_congr ?_ (or_congr ?_ (or_congr_right (or_congr_right ?_))))
  case refine_3 => cases outerForm c <;> simp
  all_goals simp [Config.programBase, Config.dataWords, Config.maxMemorySize, Config.maxCeiling]

theorem memoryTooSmall_mem :
    .memoryTooSmall ∈ configErrors c memorySize ceiling ↔ memorySize ≤ (instrItems c).length + 128 := by
  simp [mem_configErrors, readDatum_eq_error, readOpcode_eq_error, readArg_eq_error, readTerm_eq_error]

theorem dataTooLong_mem : .dataTooLong ∈ configErrors c memorySize ceiling ↔ 126 < (dataItems c).length := by
  simp [mem_configErrors, readDatum_eq_error, readOpcode_eq_error, readArg_eq_error, readTerm_eq_error]

theorem badContainer_mem : .badContainer ∈ configErrors c memorySize ceiling ↔
    outerForm c = false ∨ (∃ j ∈ dataItems c, readDatum j = .error .badContainer) ∨
      (∃ j ∈ instrItems c, readOpcode j = .error .badContainer) ∨
      ∃ j ∈ instrItems c, readTerm (j.member "term") = .error .badContainer := by
  simp [mem_configErrors, readArg_eq_error, and_or_left, exists_or]

theorem unknownOpcode_mem : .unknownOpcode ∈ configErrors c memorySize ceiling ↔
    ∃ j ∈ instrItems c, readOpcode j = .error .unknownOpcode := by
  simp [mem_configErrors, readDatum_eq_error, readArg_eq_error, readTerm_eq_error]

theorem badArgument_mem : .badArgument ∈ configErrors c memorySize ceiling ↔
    ∃ j ∈ instrItems c, readArg (j.member "arg") = .error .badArgument := by
  simp [mem_configErrors, readDatum_eq_error, readOpcode_eq_error, readTerm_eq_error]

theorem badParameter_mem :
    .badParameter ∈ configErrors c memorySize ceiling ↔ 2 ^ 31 - 2 < memorySize ∨ 2 ^ 61 < ceiling := by
  simp [mem_configErrors, readDatum_eq_error, readOpcode_eq_error, readArg_eq_error, readTerm_eq_error]

/-! ## Refusal -/

theorem refusal_eq_none : refusal c memorySize ceiling = none ↔ configErrors c memorySize ceiling = [] := by
  rw [refusal, List.find?_eq_none, List.eq_nil_iff_forall_not_mem]
  refine ⟨fun h e he => h e (mem_inOrder e) (List.contains_iff_mem.2 he), fun h e _ he => ?_⟩
  exact h e (List.contains_iff_mem.1 he)

theorem inOrder_sorted : ConfigError.inOrder.Pairwise fun a b => a.code.toNat ≤ b.code.toNat := by decide

/-- The first error in the order of codes has the lowest code. -/
theorem refusal_lowest (h : refusal c memorySize ceiling = some e) : e ∈ configErrors c memorySize ceiling ∧
    ∀ e' ∈ configErrors c memorySize ceiling, e.code.toNat ≤ e'.code.toNat := by
  obtain ⟨he, before, after, horder, hbefore⟩ := List.find?_eq_some_iff_append.1 h
  refine ⟨List.contains_iff_mem.1 he, fun e' he' => ?_⟩
  have hsorted := inOrder_sorted
  have hmem := mem_inOrder e'
  rw [horder] at hsorted hmem
  obtain ⟨-, hrest, -⟩ := List.pairwise_append.1 hsorted
  obtain ⟨hafter, -⟩ := List.pairwise_cons.1 hrest
  rcases List.mem_append.1 hmem with hb | hb
  · have := hbefore e' hb
    rw [List.contains_iff_mem.2 he'] at this
    contradiction
  · rcases List.mem_cons.1 hb with rfl | ha
    · exact le_rfl
    · exact hafter e' ha

theorem launch_refused (input : List Word) (h : refusal c memorySize ceiling = some e) :
    launch c memorySize ceiling input = refusedState e := by
  simp only [launch, h]

theorem launch_accepted (input : List Word) (h : configErrors c memorySize ceiling = []) :
    launch c memorySize ceiling input = loadedState (programOf c) (dataOf c) memorySize ceiling input := by
  simp only [launch, refusal_eq_none.2 h]

end

theorem refused_status (e : ConfigError) :
    statusWord .stopped .fault e.code = BitVec.ofNat 16 (2 + 4 * 3 + 16 * e.code.toNat) := by
  cases e <;> decide

/-- Settles O57: each error is read off its source, and the refusal is the first in the order of codes. -/
theorem refusalReportsTheLowestCode : Obligations.RefusalReportsTheLowestCode := by
  rintro c memorySize ceiling input errors rfl
  refine ⟨fun _ => instrItems_of_array, instrItems_of_no_array, fun _ => dataItems_of_array, dataItems_of_no_array,
    memoryTooSmall_mem, dataTooLong_mem, ?container, ?opcode, ?argument, badParameter_mem, refusal_eq_none,
    fun e he => ?refused⟩
  case container =>
    simp only [badContainer_mem, outerForm_eq_false, or_assoc, readDatum_eq_error, readOpcode_eq_error,
      readTerm_eq_error, not_fitsWord_iff, reduceCtorEq, true_and, false_and, or_false]
  case opcode =>
    simp only [unknownOpcode_mem, readOpcode_eq_error, ofName_eq_none, reduceCtorEq, true_and, false_and, false_or]
    exact Iff.rfl
  case argument =>
    simp only [badArgument_mem, readArg_eq_error, not_fitsWord_iff, true_and]
  case refused =>
    obtain ⟨hmem, hleast⟩ := refusal_lowest he
    refine ⟨hmem, hleast, ?_⟩
    rw [launch_refused input he, refusedState, refused_status]

end Sys2Proof.Proofs
end

section
/-! The forms of a container (30_encoding.md R121), each part read back, and the state an accepted launch leaves
(10_state.md R58, 70_reset_and_hazards.md R313). -/

namespace Sys2Proof.Proofs
open Sys2Proof.Machine

/-! ## The forms are read back -/

theorem member_of_optional {ms : List (String × Json)} {name : String} {o : Option Json}
    (hn : (ms.map Prod.fst).Nodup) (h : OptionalMember ms name o) : (Json.obj ms).member name = o := by
  cases o with
  | none => exact member_of_not_mem h
  | some v => exact member_of_mem hn h

theorem readArg_of_form {o : Option Json} {arg : Arg} (h : ArgForm o arg) : readArg o = .ok arg := by
  cases h with
  | absent => rfl
  | null => rfl
  | int v => simp [readArg, fitsWord_toInt v]
  | chr c => simp [readArg]

theorem readTerm_of_form {o : Option Json} {term : Option Term} (h : TermForm o term) : readTerm o = .ok term := by
  cases h with
  | absent => rfl
  | null => rfl
  | object j ms t hobj line context text =>
    obtain ⟨rfl, hn, -⟩ := hobj
    simp [readTerm, member_of_mem hn line, member_of_mem hn context, member_of_mem hn text]

/-- Each of the three parts of an instruction object is read back. -/
theorem reads_of_instrForm {j : Json} {x : ContainerInstr} (h : InstrForm j x) :
    readOpcode j = .ok x.op ∧ readArg (j.member "arg") = .ok x.arg ∧ readTerm (j.member "term") = .ok x.term := by
  obtain ⟨ms, arg, term, ⟨rfl, hn, -⟩, hopcode, harg, hargForm, hterm, htermForm⟩ := h
  refine ⟨by simp [readOpcode, member_of_mem hn hopcode], ?_, ?_⟩
  · rw [member_of_optional hn harg, readArg_of_form hargForm]
  · rw [member_of_optional hn hterm, readTerm_of_form htermForm]

theorem readInstr_of_form {j : Json} {x : ContainerInstr} (h : InstrForm j x) : readInstr j = some x := by
  obtain ⟨hop, harg, hterm⟩ := reads_of_instrForm h
  simp [readInstr, hop, harg, hterm]

theorem filterMap_readInstr {items : List Json} {program : List ContainerInstr}
    (h : List.Forall₂ InstrForm items program) : items.filterMap readInstr = program := by
  induction h with
  | nil => rfl
  | cons hform _ ih => rw [List.filterMap_cons_some (readInstr_of_form hform), ih]

theorem filterMap_readDatum (data : List Word) :
    (data.map fun v => Json.int v.toInt).filterMap (fun j => (readDatum j).toOption) = data :=
  filterMap_map_of_read_write fun v _ => by rw [readDatum_toInt]; rfl

section
variable {c : Json} {data : List Word} {program : List ContainerInstr}

/-- The arrays of a container form hold its data and, form by form, its program. -/
theorem items_of_containerForm (h : ContainerForm c data program) :
    outerForm c = true ∧ dataItems c = (data.map fun v => Json.int v.toInt) ∧
      List.Forall₂ InstrForm (instrItems c) program := by
  obtain ⟨ms, items, ⟨rfl, hn, -⟩, hinstr, hitems, hdata⟩ := h
  have hprogram := member_of_mem hn hinstr
  rw [instrItems_of_array hprogram]
  rcases hdata with hdata | ⟨hdata, rfl⟩
  · have hmember := member_of_mem hn hdata
    exact ⟨by simp [outerForm, hprogram, hmember], dataItems_of_array hmember, hitems⟩
  · have hmember := member_of_not_mem hdata
    exact ⟨by simp [outerForm, hprogram, hmember], dataItems_of_no_array (by simp [hmember]), hitems⟩

/-- Within the bounds a container form has no configuration error. -/
theorem configErrors_of_form {memorySize ceiling : Nat} (h : ContainerForm c data program)
    (hdata : data.length ≤ 126) (hprogram : program.length + 128 < memorySize)
    (hsize : memorySize ≤ 2 ^ 31 - 2) (hceiling : ceiling ≤ 2 ^ 61) : configErrors c memorySize ceiling = [] := by
  obtain ⟨houter, hitems, hforms⟩ := items_of_containerForm h
  have hlength := hforms.length_eq
  rw [List.eq_nil_iff_forall_not_mem]
  intro e he
  rcases mem_configErrors.1 he with
    ⟨hsmall, -⟩ | ⟨hlong, -⟩ | ⟨hform, -⟩ | ⟨j, hj, hread⟩ | ⟨j, hj, hread⟩ | ⟨hparameter, -⟩
  · omega
  · rw [hitems, List.length_map] at hlong
    omega
  · rw [houter] at hform
    cases hform
  · rw [hitems] at hj
    obtain ⟨v, -, rfl⟩ := List.mem_map.1 hj
    rw [readDatum_toInt] at hread
    cases hread
  · obtain ⟨k, hk, rfl⟩ := List.getElem_of_mem hj
    have hk' : k < program.length := hlength ▸ hk
    have hform : InstrForm (instrItems c)[k] program[k] := hforms.get hk hk'
    obtain ⟨hop, harg, hterm⟩ := reads_of_instrForm hform
    rw [hop, harg, hterm] at hread
    simp at hread
  · omega

end

/-! ## The containers the model writes -/

theorem argForm_toJson {l : Literal} (h : ∀ c, l = .chr c → c.toNat.isValidChar) :
    ArgForm (some (Literal.toJson l)) (some l) := by
  cases l with
  | int v => exact .int v
  | chr c =>
    have hform := ArgForm.chr (Char.ofNat c.toNat)
    rwa [Char.toNat_ofNat, if_pos (h c rfl), BitVec.ofNat_toNat, BitVec.setWidth_eq] at hform

theorem termForm_toJson (t : Term) : TermForm (some (Term.toJson t)) (some t) := by
  refine .object _ _ t ⟨rfl, ?_, ?_⟩ ?_ ?_ ?_ <;> simp

theorem instrForm_toJson {x : ContainerInstr} (h : ∀ c, x.arg = some (.chr c) → c.toNat.isValidChar) :
    InstrForm x.toJson x := by
  have harg : ∃ j, x.toJson.member "arg" = some j ∧ ArgForm (some j) x.arg := by
    obtain ⟨op, _ | l, term⟩ := x
    · exact ⟨_, rfl, .null⟩
    · exact ⟨_, rfl, argForm_toJson fun c hc => h c (congrArg some hc)⟩
  have hterm : ∃ j, x.toJson.member "term" = some j ∧ TermForm (some j) x.term := by
    obtain ⟨op, arg, _ | t⟩ := x
    · exact ⟨_, rfl, .null⟩
    · exact ⟨_, rfl, termForm_toJson t⟩
  obtain ⟨ja, hja, harg⟩ := harg
  obtain ⟨jt, hjt, hterm⟩ := hterm
  cases hja
  cases hjt
  refine ⟨_, some _, some _, ⟨rfl, ?_, ?_⟩, ?_, ?_, harg, ?_, hterm⟩ <;> simp [OptionalMember]

theorem containerForm_containerJson (data : List Word) {program : List ContainerInstr}
    (h : ∀ x ∈ program, ∀ c, x.arg = some (.chr c) → c.toNat.isValidChar) :
    ContainerForm (containerJson data program) data program := by
  refine ⟨_, program.map ContainerInstr.toJson, ⟨rfl, ?_, ?_⟩, ?_, ?_, .inl ?_⟩
  case refine_4 => exact List.forall₂_map_left_iff.2 (List.forall₂_same.2 fun x hx => instrForm_toJson (h x hx))
  all_goals simp

/-- Settles O58: a container form has no error, and its items are read back. -/
theorem wellFormedContainersAreLoaded : Obligations.WellFormedContainersAreLoaded := by
  refine ⟨?_, fun data program => containerForm_containerJson data⟩
  intro c data program memorySize ceiling input h hdata hprogram hsize hceiling
  obtain ⟨-, hitems, hforms⟩ := items_of_containerForm h
  rw [launch_accepted input (configErrors_of_form h hdata hprogram hsize hceiling), programOf, dataOf,
    filterMap_readInstr hforms, hitems, filterMap_readDatum]

/-! ## The state after a launch -/

/-- Settles O59: the memory as the two loads leave it; every other element is written by the load or as at reset. -/
theorem loadedStateHoldsItsResetValues : Obligations.LoadedStateHoldsItsResetValues := by
  rintro program data memorySize ceiling input s hdata rfl
  have hword : ∀ a, (loadedState program data memorySize ceiling input).mem.word a =
      if 2 ≤ a then data.getD (a - 2) 0 else 0 := fun a =>
    (word_loadProgramFrom ..).trans (word_loadDataFrom data State.reset.mem 0 a)
  refine ⟨fun k hk => ?data, by rw [hword]; rfl, by rw [hword]; rfl, fun i hi => ?program, rfl, rfl, rfl, rfl,
    fun _ => rfl, rfl, rfl, rfl, rfl, rfl, rfl, rfl, rfl, rfl, rfl, rfl, rfl, rfl, rfl, rfl, rfl⟩
  case data => rw [hword, if_pos (Nat.le_add_right 2 k), Nat.add_sub_cancel_left]
  case program =>
    refine (instrWord_loadProgramFrom program _ 0 (128 + i)).trans ?_
    simp [hi]

/-- The invariant of a loaded state needs the bounds of the parameters and of the data alone. -/
theorem inv_loadedState {program : List ContainerInstr} {data : List Word} {memorySize ceiling : Nat}
    (input : List Word) (hprogram : program.length + 128 < memorySize) (hdata : data.length ≤ 126)
    (hsize : memorySize ≤ 2 ^ 31 - 2) (hceiling : ceiling ≤ 2 ^ 61) :
    (loadedState program data memorySize ceiling input).Inv := by
  obtain ⟨hstack, -, -, hfsm, hrecord, -⟩ := invariantHoldsAtReset
  have hmemory : ((State.reset.mem.loadDataFrom 0 data).loadProgramFrom 0 program).wf memorySize = true :=
    wf_loadProgramFrom (by omega) (wf_loadDataFrom (by omega) rfl)
  exact ⟨hstack, hmemory, ⟨hprogram, hsize, hceiling⟩, hfsm, hrecord, Nat.zero_le _, Nat.zero_le _⟩

/-- A refused launch differs from reset in STATUS, which holds the refusal, and in PHASE. -/
theorem inv_refusedState (e : ConfigError) : (refusedState e).Inv := by
  obtain ⟨hstack, hmemory, hparameters, -, -, -⟩ := invariantHoldsAtReset
  have hwhy : statusWhy (statusWord .stopped .fault e.code) = Why.code .fault := statusWhy_statusWord ..
  refine ⟨hstack, hmemory, hparameters, ⟨.inr (.inr rfl), rfl, nofun, nofun, fun _ => ⟨statusRun_statusWord .., ?_⟩⟩,
    ⟨statusReserved_statusWord .., fun hne => absurd hwhy hne⟩, Nat.zero_le _, Nat.zero_le _⟩
  rw [refusedState, hwhy]
  decide

/-- Settles O50: an accepted launch has no configuration error, so its parameters and its data are within the bounds. -/
theorem invariantHoldsAfterLaunch : Obligations.InvariantHoldsAfterLaunch := by
  intro c memorySize ceiling input
  cases hrefusal : refusal c memorySize ceiling with
  | some e =>
    rw [launch_refused input hrefusal]
    exact inv_refusedState e
  | none =>
    have hnone := refusal_eq_none.1 hrefusal
    have hmem : ∀ e, e ∉ configErrors c memorySize ceiling := List.eq_nil_iff_forall_not_mem.1 hnone
    have hsmall := memoryTooSmall_mem.not.1 (hmem _)
    have hlong := dataTooLong_mem.not.1 (hmem _)
    have hparameter := badParameter_mem.not.1 (hmem _)
    have hprogram : (programOf c).length ≤ (instrItems c).length := List.length_filterMap_le ..
    have hdata : (dataOf c).length ≤ (dataItems c).length := List.length_filterMap_le ..
    rw [launch_accepted input hnone]
    exact inv_loadedState input (by omega) (by omega) (by omega) (by omega)

end Sys2Proof.Proofs
end
